-- ==== Sys2Proof/Word.lean ====
section
/-! DEFINITION. The word types of the block and nothing else: bytes, port words, 256-bit register values and
the 4-bit index fields of a command word (00_scope.md R9, R13; 30_encoding.md R71). -/

namespace Sys2Proof

/-- One character of the string buffer or one byte of a wire format (R14, R24). -/
abbrev Byte := BitVec 8

/-- One word of the register port, a command word, and a word of the hash functions (R50, R70, R150). -/
abbrev Word := BitVec 32

/-- The value of an integer register or of a point coordinate: `FW = 256` bits (R9). -/
abbrev Word256 := BitVec 256

/-- An index field of a command word: four bits, of which R72 lets an integer register use three and a
point register two. -/
abbrev RegIx := BitVec 4

/-- A word address of the register port: 0x000 .. 0x3FF (R50). -/
abbrev PortAddr := BitVec 10

end Sys2Proof
end

