-- ==== Sys2Proof/Syntax.lean ====
section
/-! DEFINITION. The eighteen commands of CORE-CMD version 1, one constructor per row of the opcode table
(30_encoding.md R73), their mnemonics and assembler text (R78), and the two pseudo-instructions (R79). -/

namespace Sys2Proof

/-- A command. `rd ra rb` are integer register indices, `pd pa pb` point register indices, `v` the version byte,
`c` the prefix character (R71, R74). An index is the four bits of its field; `WellFormed` keeps it in range. -/
inductive Instr where
  | fclr
  | modmul (rd ra rb : RegIx)
  | modinv (rd ra : RegIx)
  | modpow (rd ra rb : RegIx)
  | pldg (pd : RegIx)
  | pdbl (pd pa : RegIx)
  | padd (pd pa pb : RegIx)
  | smul (pd ra pb : RegIx)
  | oncurve (pa : RegIx)
  | derive (pd ra : RegIx)
  | seqinit (ra rb : RegIx)
  | seqnext (pd : RegIx)
  | b58enc (ra : RegIx)
  | b58dec (rd : RegIx)
  | hashpk (rd pa : RegIx)
  | addrenc (ra : RegIx) (v c : Byte)
  | addrdec (rd : RegIx) (c : Byte)
  | addrgen (pa : RegIx)
  deriving DecidableEq, Repr

/-- The mnemonic of R73. -/
def Instr.mnemonic : Instr → String
  | .fclr => "FCLR"
  | .modmul .. => "MODMUL"
  | .modinv .. => "MODINV"
  | .modpow .. => "MODPOW"
  | .pldg .. => "PLDG"
  | .pdbl .. => "PDBL"
  | .padd .. => "PADD"
  | .smul .. => "SMUL"
  | .oncurve .. => "ONCURVE"
  | .derive .. => "DERIVE"
  | .seqinit .. => "SEQINIT"
  | .seqnext .. => "SEQNEXT"
  | .b58enc .. => "B58ENC"
  | .b58dec .. => "B58DEC"
  | .hashpk .. => "HASHPK"
  | .addrenc .. => "ADDRENC"
  | .addrdec .. => "ADDRDEC"
  | .addrgen .. => "ADDRGEN"

/-- The assembler operands of R78, in order: `r<i>`, `p<j>` or a decimal number. -/
def Instr.operands : Instr → List String
  | .fclr => []
  | .modmul d a b => [asmR d, asmR a, asmR b]
  | .modinv d a => [asmR d, asmR a]
  | .modpow d a b => [asmR d, asmR a, asmR b]
  | .pldg d => [asmP d]
  | .pdbl d a => [asmP d, asmP a]
  | .padd d a b => [asmP d, asmP a, asmP b]
  | .smul d a b => [asmP d, asmR a, asmP b]
  | .oncurve a => [asmP a]
  | .derive d a => [asmP d, asmR a]
  | .seqinit a b => [asmR a, asmR b]
  | .seqnext d => [asmP d]
  | .b58enc a => [asmR a]
  | .b58dec d => [asmR d]
  | .hashpk d a => [asmR d, asmP a]
  | .addrenc a v c => [asmR a, toString v.toNat, toString c.toNat]
  | .addrdec d c => [asmR d, toString c.toNat]
  | .addrgen a => [asmP a]
where
  asmR (i : RegIx) : String := "r" ++ toString i.toNat
  asmP (j : RegIx) : String := "p" ++ toString j.toNat

/-- One line of assembler: the mnemonic, then the operands separated by commas (R78). -/
def Instr.asm (i : Instr) : String :=
  match i.operands with
  | [] => i.mnemonic
  | os => i.mnemonic ++ " " ++ ", ".intercalate os

/-- The pseudo-instruction `PUBKEY pd, ra` expands to one command (R79, R140). -/
def pubkey (pd ra : RegIx) : List Instr := [.derive pd ra]

/-- The pseudo-instruction `ADDRFOR pd, ra` expands to two commands, issued in this order (R79, R141). -/
def addrfor (pd ra : RegIx) : List Instr := [.derive pd ra, .addrgen pd]

end Sys2Proof
end

