-- ==== Sys2Proof/WellFormed.lean ====
section
/-! DEFINITION. The well-formedness of a command: every index field in the range of its register file
(30_encoding.md R72). The immediates `v` and `c` are bytes and every value of them is legal (R74). -/

namespace Sys2Proof

/-- An index field that selects an integer register holds 0 .. 7: bit 3 is 0 (R72). -/
def isIntIx (i : RegIx) : Bool := i < 8#4

/-- An index field that selects a point register holds 0 .. 3: bits 3:2 are 0 (R72). -/
def isPointIx (j : RegIx) : Bool := j < 4#4

/-- Every index of the command is in range (R72, R73). -/
def Instr.wf : Instr → Bool
  | .fclr => true
  | .modmul d a b => isIntIx d && isIntIx a && isIntIx b
  | .modinv d a => isIntIx d && isIntIx a
  | .modpow d a b => isIntIx d && isIntIx a && isIntIx b
  | .pldg d => isPointIx d
  | .pdbl d a => isPointIx d && isPointIx a
  | .padd d a b => isPointIx d && isPointIx a && isPointIx b
  | .smul d a b => isPointIx d && isIntIx a && isPointIx b
  | .oncurve a => isPointIx a
  | .derive d a => isPointIx d && isIntIx a
  | .seqinit a b => isIntIx a && isIntIx b
  | .seqnext d => isPointIx d
  | .b58enc a => isIntIx a
  | .b58dec d => isIntIx d
  | .hashpk d a => isIntIx d && isPointIx a
  | .addrenc a _ _ => isIntIx a
  | .addrdec d _ => isIntIx d
  | .addrgen a => isPointIx a

end Sys2Proof
end

