-- ==== Sys2Proof/Decode.lean ====
section
/-! DEFINITION. Decoding a 32-bit command word into a command, total on all 2^32 words (30_encoding.md R70 to R76),
and the encoder written from the same formats (R71, R73). -/

namespace Sys2Proof

/-- `opc = W[31:24]` (R17, R71). -/
def opcField (w : Word) : BitVec 8 := w.extractLsb' 24 8
/-- `d = W[23:20]`. -/
def dField (w : Word) : RegIx := w.extractLsb' 20 4
/-- `a = W[19:16]`. -/
def aField (w : Word) : RegIx := w.extractLsb' 16 4
/-- `b = W[15:12]`. -/
def bField (w : Word) : RegIx := w.extractLsb' 12 4
/-- `v = W[15:8]` (format I). -/
def vField (w : Word) : Byte := w.extractLsb' 8 8
/-- `c = W[7:0]` (format I). -/
def cField (w : Word) : Byte := w.extractLsb' 0 8
/-- Bits 11:0, which format R wants 0. -/
def lowField (w : Word) : BitVec 12 := w.extractLsb' 0 12

/-- The command the word encodes, or `none` where the word is illegal: an unassigned opcode, an index out of range,
a non-zero unused field (R72, R73, R75, R76). -/
def decode (w : Word) : Option Instr :=
  let opc := opcField w
  let d := dField w
  let a := aField w
  let b := bField w
  let v := vField w
  let c := cField w
  let z := lowField w
  if opc = 0x01#8 then
    if d = 0 ∧ a = 0 ∧ b = 0 ∧ z = 0 then some .fclr else none
  else if opc = 0x10#8 then
    if isIntIx d ∧ isIntIx a ∧ isIntIx b ∧ z = 0 then some (.modmul d a b) else none
  else if opc = 0x11#8 then
    if isIntIx d ∧ isIntIx a ∧ b = 0 ∧ z = 0 then some (.modinv d a) else none
  else if opc = 0x12#8 then
    if isIntIx d ∧ isIntIx a ∧ isIntIx b ∧ z = 0 then some (.modpow d a b) else none
  else if opc = 0x20#8 then
    if isPointIx d ∧ a = 0 ∧ b = 0 ∧ z = 0 then some (.pldg d) else none
  else if opc = 0x21#8 then
    if isPointIx d ∧ isPointIx a ∧ b = 0 ∧ z = 0 then some (.pdbl d a) else none
  else if opc = 0x22#8 then
    if isPointIx d ∧ isPointIx a ∧ isPointIx b ∧ z = 0 then some (.padd d a b) else none
  else if opc = 0x23#8 then
    if isPointIx d ∧ isIntIx a ∧ isPointIx b ∧ z = 0 then some (.smul d a b) else none
  else if opc = 0x24#8 then
    if d = 0 ∧ isPointIx a ∧ b = 0 ∧ z = 0 then some (.oncurve a) else none
  else if opc = 0x25#8 then
    if isPointIx d ∧ isIntIx a ∧ b = 0 ∧ z = 0 then some (.derive d a) else none
  else if opc = 0x26#8 then
    if d = 0 ∧ isIntIx a ∧ isIntIx b ∧ z = 0 then some (.seqinit a b) else none
  else if opc = 0x27#8 then
    if isPointIx d ∧ a = 0 ∧ b = 0 ∧ z = 0 then some (.seqnext d) else none
  else if opc = 0x30#8 then
    if d = 0 ∧ isIntIx a ∧ b = 0 ∧ z = 0 then some (.b58enc a) else none
  else if opc = 0x31#8 then
    if isIntIx d ∧ a = 0 ∧ b = 0 ∧ z = 0 then some (.b58dec d) else none
  else if opc = 0x40#8 then
    if isIntIx d ∧ isPointIx a ∧ b = 0 ∧ z = 0 then some (.hashpk d a) else none
  else if opc = 0x41#8 then
    if d = 0 ∧ isIntIx a then some (.addrenc a v c) else none
  else if opc = 0x42#8 then
    if isIntIx d ∧ a = 0 ∧ v = 0 then some (.addrdec d c) else none
  else if opc = 0x43#8 then
    if d = 0 ∧ isPointIx a ∧ b = 0 ∧ z = 0 then some (.addrgen a) else none
  else none

/-- Format R: `opc d a b` and twelve zero bits (R71). -/
def formatR (opc : BitVec 8) (d a b : RegIx) : Word := opc ++ d ++ a ++ b ++ 0#12

/-- Format I: `opc d a v c` (R71). -/
def formatI (opc : BitVec 8) (d a : RegIx) (v c : Byte) : Word := opc ++ d ++ a ++ v ++ c

/-- The word of a command: its row of R73, unused fields 0. -/
def encode : Instr → Word
  | .fclr => formatR 0x01#8 0 0 0
  | .modmul d a b => formatR 0x10#8 d a b
  | .modinv d a => formatR 0x11#8 d a 0
  | .modpow d a b => formatR 0x12#8 d a b
  | .pldg d => formatR 0x20#8 d 0 0
  | .pdbl d a => formatR 0x21#8 d a 0
  | .padd d a b => formatR 0x22#8 d a b
  | .smul d a b => formatR 0x23#8 d a b
  | .oncurve a => formatR 0x24#8 0 a 0
  | .derive d a => formatR 0x25#8 d a 0
  | .seqinit a b => formatR 0x26#8 0 a b
  | .seqnext d => formatR 0x27#8 d 0 0
  | .b58enc a => formatR 0x30#8 0 a 0
  | .b58dec d => formatR 0x31#8 d 0 0
  | .hashpk d a => formatR 0x40#8 d a 0
  | .addrenc a v c => formatI 0x41#8 0 a v c
  | .addrdec d c => formatI 0x42#8 d 0 0 c
  | .addrgen a => formatR 0x43#8 0 a 0

/-- The match and mask columns of R73, row by row in the table's order: the decoder above does not use them, so that
the two forms of the spec (fields, and match and mask) can be held against each other. -/
def opcodeRows : List (Word × Word) :=
  [(0x01000000#32, 0xFFFFFFFF#32), (0x10000000#32, 0xFF888FFF#32), (0x11000000#32, 0xFF88FFFF#32),
   (0x12000000#32, 0xFF888FFF#32), (0x20000000#32, 0xFFCFFFFF#32), (0x21000000#32, 0xFFCCFFFF#32),
   (0x22000000#32, 0xFFCCCFFF#32), (0x23000000#32, 0xFFC8CFFF#32), (0x24000000#32, 0xFFFCFFFF#32),
   (0x25000000#32, 0xFFC8FFFF#32), (0x26000000#32, 0xFFF88FFF#32), (0x27000000#32, 0xFFCFFFFF#32),
   (0x30000000#32, 0xFFF8FFFF#32), (0x31000000#32, 0xFF8FFFFF#32), (0x40000000#32, 0xFF8CFFFF#32),
   (0x41000000#32, 0xFFF80000#32), (0x42000000#32, 0xFF8FFF00#32), (0x43000000#32, 0xFFFCFFFF#32)]

/-- What the decoder reads from an instruction whose bits are `w`, numbered as the opcode table numbers them. Every
command is one 32-bit word (R70), so there is nothing to lay out: the bits above `nbits` are 0. -/
def decodeTableWord (nbits w : Nat) : Option Instr :=
  if nbits ≤ 32 then decode (BitVec.ofNat 32 (w % 2 ^ nbits)) else none

end Sys2Proof
end

