-- ==== Sys2Proof/Machine/State.lean ====
section
/-! DEFINITION. The state of the block as plain data (10_state.md), the reasons a step can stop, the fault kinds
the block records (60_exceptions.md R160), and the state after reset (R38). -/

namespace Sys2Proof.Machine

/-- A point register, or the generator's `SEQCUR`: the fields `inf`, `x`, `y` of R22. -/
structure PointReg where
  inf : Bool
  x : Word256
  y : Word256
  deriving DecidableEq, Repr

/-- The values a reset leaves unspecified (R38, R191): each is a draw under no law. They are data of the reset event, so
that a statement about a reset holds for every draw. -/
structure Draws where
  r : Vector Word256 8
  p : Vector PointReg 4
  str : Vector Byte 64
  seqK : Word256
  seqCur : PointReg
  deriving DecidableEq, Repr

/-- What moves next: one access of the agent `HOST`, the input `reset`, or an explicit turn of the agent `CORE`
(R20, R50, R190). -/
inductive HostEvent where
  /-- `HostRead(addr)` (R53). -/
  | read (addr : PortAddr)
  /-- `HostWrite(addr, w)` (R54, R56, R145). -/
  | write (addr : PortAddr) (w : Word)
  /-- `CORE` takes its turn before the host's next access (R61: completion may fall between any two accesses). -/
  | core
  /-- The input `reset` is asserted (R190). -/
  | reset (draws : Draws)
  deriving DecidableEq, Repr

/-- The state of the block, and the two fields of the model's own (`inputs`, `answers`) that stand for its host. -/
structure State where
  /-- The integer registers `r[0..7]` (R21). -/
  r : Vector Word256 8
  /-- The point registers `p[0..3]`; their `inf` bits are also the port register `PINF` (R22, R31). -/
  p : Vector PointReg 4
  /-- The bytes `S[0..63]` of the string buffer (R24). -/
  str : Vector Byte 64
  /-- `SLEN[6:0]` (R24, R32); bits 31:7 are hardwired 0. -/
  slen : BitVec 7
  /-- `CMD`: the word of the most recently accepted command (R28). -/
  cmd : Word
  /-- `STATUS` bit 0, `BUSY` (R26); bits 31:6 of `STATUS` are hardwired 0. -/
  busy : Bool
  /-- `STATUS` bit 1, `DONE` (R26). -/
  done : Bool
  /-- `STATUS` bit 2, `FAULT` (R26). -/
  fault : Bool
  /-- `STATUS` bit 3, `DROP` (R26). -/
  drop : Bool
  /-- `STATUS` bit 4, the truth flag `T` (R27). -/
  t : Bool
  /-- `STATUS` bit 5, the sequence-end flag `END` (R27). -/
  endFlag : Bool
  /-- `FCODE[7:0]` (R29); bits 31:8 are hardwired 0. -/
  fcode : BitVec 8
  /-- `FINFO` (R30). -/
  finfo : Word
  /-- Hidden: the private key the sequence started from, `SEQK` (R33). -/
  seqK : Word256
  /-- Hidden: how many points the sequence has, `SEQCNT` (R33). -/
  seqCnt : Word256
  /-- Hidden: how many it has produced, `SEQIDX` (R33). -/
  seqIdx : Word256
  /-- Hidden: the last point produced, `SEQCUR` (R33). -/
  seqCur : PointReg
  /-- THE MODEL'S OWN: what the environment does next, in order; empty means that `CORE` has the next turn. -/
  inputs : List HostEvent
  /-- THE MODEL'S OWN: the words `HostRead` has returned so far, oldest first. -/
  answers : List Word
  deriving DecidableEq, Repr

/-- The faults the block RECORDS and goes on from (R160), the document's typed failures and five more. They are no stop of
the machine: a faulting completion is a next state (R163). `FCODE` 0x00, `None`, is the absence of one. -/
inductive FaultKind where
  | illegalCommand
  | operandRange
  | infinityOperand
  | noInverse
  | coincidentX
  | consistency
  | negativeInput
  | invalidCharacter
  | b58Overflow
  | checksumMismatch
  | addrRange
  deriving DecidableEq, Repr

/-- `raise X(info)` (R15): a fault kind and the number that goes to `FINFO`. -/
structure Raised where
  kind : FaultKind
  info : Word
  deriving DecidableEq, Repr

/-- The reasons the MACHINE itself would stop. The spec names one (93_implementation_defined.md U9). -/
inductive Fault where
  /-- A hash collaborator that never answers: the spec's one stuck state. Raised by nobody, since this hardware's two hash
  functions are total (R130); safe. -/
  | hashCollaboratorSilent
  deriving DecidableEq, Repr

/-- The reasons the MODEL has no step. -/
inductive Refusal where
  /-- The instruction has no meaning yet. Raised by nobody: every command has its meaning; safe. -/
  | notModelled (mnemonic : String)
  deriving DecidableEq, Repr

/-- The point register a reset of the model starts from: every field 0. -/
def PointReg.zero : PointReg := ⟨false, 0, 0⟩

/-- The state right after reset (R38): the control state is the spec's. The spec gives `r`, `p`, `S`, `SEQK`, `SEQCUR` no
value; each is 0 here. DESIGN CHOICE, unsafe: notes/assumptions/1.md. `inputs` and `answers` are the model's own, empty:
notes/assumptions/2.md. -/
def State.reset : State where
  r := Vector.replicate 8 0
  p := Vector.replicate 4 PointReg.zero
  str := Vector.replicate 64 0
  slen := 0
  cmd := 0
  busy := false
  done := false
  fault := false
  drop := false
  t := false
  endFlag := false
  fcode := 0
  finfo := 0
  seqK := 0
  seqCnt := 0
  seqIdx := 0
  seqCur := PointReg.zero
  inputs := []
  answers := []

end Sys2Proof.Machine
end

