-- ==== Sys2Proof/Machine/Flags.lean ====
section
/-! DEFINITION. The flags and the words the host reads them in: the layout of `STATUS`, `FCODE`, `FINFO`, `PINF`, `SLEN`
(10_state.md R26 to R32), the fault codes (60_exceptions.md R160), and the two flag writes (R27). -/

namespace Sys2Proof.Machine

/-- The fault codes of R160. -/
def FaultKind.code : FaultKind → BitVec 8
  | .illegalCommand => 0x01
  | .operandRange => 0x02
  | .infinityOperand => 0x03
  | .noInverse => 0x10
  | .coincidentX => 0x11
  | .consistency => 0x12
  | .negativeInput => 0x20
  | .invalidCharacter => 0x21
  | .b58Overflow => 0x22
  | .checksumMismatch => 0x30
  | .addrRange => 0x31

/-- One bit as a one-bit vector. -/
def bit (b : Bool) : BitVec 1 := BitVec.ofBool b

/-- `STATUS`: `BUSY` at bit 0, then `DONE`, `FAULT`, `DROP`, `T`, `END`; bits 31:6 are 0 (R26). -/
def statusWord (s : State) : Word :=
  (bit s.endFlag ++ bit s.t ++ bit s.drop ++ bit s.fault ++ bit s.done ++ bit s.busy).setWidth 32

/-- `FCODE`: the code in bits 7:0, bits 31:8 are 0 (R29). -/
def fcodeWord (s : State) : Word := s.fcode.setWidth 32

/-- `PINF`: bit j is `p[j].inf`, bits 31:4 are 0 (R31). -/
def pinfWord (s : State) : Word :=
  (bit s.p[3].inf ++ bit s.p[2].inf ++ bit s.p[1].inf ++ bit s.p[0].inf).setWidth 32

/-- `SLEN`: the length in bits 6:0, bits 31:7 are 0 (R32). -/
def slenWord (s : State) : Word := s.slen.setWidth 32

/-- `T <- b` (R15, R27). -/
def writeT (s : State) (b : Bool) : State := { s with t := b }

/-- `END <- b` (R15, R27). -/
def writeEnd (s : State) (b : Bool) : State := { s with endFlag := b }

end Sys2Proof.Machine
end

