-- ==== Sys2Proof/Machine/Bytes.lean ====
section
/-! DEFINITION. Byte strings and integers (00_scope.md R14), the words of a 256-bit register on the port (20_memory.md
R52) and the byte lanes of the string buffer (R55). -/

namespace Sys2Proof.Machine

/-- `BEint(b)`: the integer the string spells, first byte most significant (R14). -/
def beInt (b : List Byte) : Nat := b.foldl (fun acc x => acc * 256 + x.toNat) 0

/-- `BE_L(v)`: the L-byte string with `BEint(BE_L(v)) = v`, for v < 256^L (R14). -/
def beBytes : (len : Nat) → (v : Nat) → List Byte
  | 0, _ => []
  | len + 1, v => beBytes len (v / 256) ++ [BitVec.ofNat 8 v]

/-- The bytes of a string, then zeros, 64 in all (10_state.md R35). -/
def padTo64 (b : List Byte) : Vector Byte 64 := ⟨⟨(b ++ List.replicate 64 0#8).take 64⟩, by simp⟩

/-- Word `w` of a 256-bit value, word 0 the least significant (R52). -/
def wordOf (v : Word256) (w : Fin 8) : Word := v.extractLsb' (32 * w.val) 32

/-- The 256-bit value with word `w` replaced and no other word changed (R52, R54). -/
def withWord (v : Word256) (w : Fin 8) (x : Word) : Word256 :=
  (v &&& ~~~((0xFFFFFFFF#256) <<< (32 * w.val))) ||| (x.setWidth 256 <<< (32 * w.val))

/-- Four bytes as one port word, the byte with the lowest index in the least significant lane (R55). -/
def lanes (b0 b1 b2 b3 : Byte) : Word := b3 ++ b2 ++ b1 ++ b0

/-- The byte of lane `n` (0 .. 3) of a port word (R55). -/
def laneOf (w : Word) (n : Nat) : Byte := w.extractLsb' (8 * n) 8

end Sys2Proof.Machine
end

