-- ==== Sys2Proof/Config.lean ====
section
/-! DEFINITION. The behavioural parameters the spec leaves open by name (00_scope.md R10): each is a value the
pure functions take as an argument. The values THIS hardware takes stand in Machine/Constants.lean (the three
choices) and Machine/Hash.lean (the two hash functions), where `Machine.hw` gathers them. -/

namespace Sys2Proof

/-- `PADD_COINCIDENT` (R10, R110): what adding two finite points with equal x does. -/
inductive PaddCoincident where
  | strict
  | corrected
  deriving DecidableEq, Repr

/-- `ADDR_PAD` (R10, R136): how many prefix characters `ADDRENC` puts in front of the Base58 digits. -/
inductive AddrPad where
  | perZeroByte
  | once
  deriving DecidableEq, Repr

/-- The parameters of R10. The two hash functions are the hash collaborator's (R130): total, and depending on
the bytes alone. -/
structure Config where
  paddCoincident : PaddCoincident
  addrVerify : Bool
  addrPad : AddrPad
  sha256 : List Byte → List Byte
  ripemd160 : List Byte → List Byte

end Sys2Proof
end

