-- ==== Sys2Proof/Machine/Constants.lean ====
section
/-! DEFINITION. The constants of the block, which no command and no host access can change (00_scope.md R7, R8;
10_state.md R34), and the three behavioural choices of this hardware (R10). -/

namespace Sys2Proof.Machine

/-- The field prime M (R7). -/
def M : Nat := 0xFFFFFFFFFFFFFFFFFFFFFFFFFFFFFFFFFFFFFFFFFFFFFFFFFFFFFFFEFFFFFC2F

/-- The x coordinate of the generator G (R7). -/
def GX : Nat := 0x79BE667EF9DCBBAC55A06295CE870B07029BFCDB2DCE28D959F2815B16F81798

/-- The y coordinate of the generator G (R7). -/
def GY : Nat := 0x483ADA7726A3C4655DA4FBFC0E1108A8FD17B448A68554199C47D08FFB10D4B8

/-- `ALPHA`: the byte codes of the 58 characters, digit 0 first (R8, R120). -/
def alpha : List Byte :=
  [0x31, 0x32, 0x33, 0x34, 0x35, 0x36, 0x37, 0x38, 0x39, 0x41, 0x42, 0x43, 0x44, 0x45, 0x46] ++
  [0x47, 0x48, 0x4A, 0x4B, 0x4C, 0x4D, 0x4E, 0x50, 0x51, 0x52, 0x53, 0x54, 0x55, 0x56, 0x57] ++
  [0x58, 0x59, 0x5A, 0x61, 0x62, 0x63, 0x64, 0x65, 0x66, 0x67, 0x68, 0x69, 0x6A, 0x6B, 0x6D] ++
  [0x6E, 0x6F, 0x70, 0x71, 0x72, 0x73, 0x74, 0x75, 0x76, 0x77, 0x78, 0x79, 0x7A]

/-- `PADD_COINCIDENT = STRICT` on this hardware (R10, R110). -/
def hwPaddCoincident : PaddCoincident := .strict

/-- `ADDR_VERIFY = TRUE` on this hardware (R10, R137). -/
def hwAddrVerify : Bool := true

/-- `ADDR_PAD = PER_ZERO_BYTE` on this hardware (R10, R136). -/
def hwAddrPad : AddrPad := .perZeroByte

end Sys2Proof.Machine
end

