-- ==== Sys2Proof/Machine/Operands.lean ====
section
/-! DEFINITION. Every operand form of the commands: integer registers (10_state.md R21), point registers read and written
as point values (R23, 41_curve.md R101), and the string buffer (R24, R35). Reads and writes of registers by commands go
through these accessors. -/

namespace Sys2Proof.Machine

/-- A point value (00_scope.md R16): infinity, or a pair of integers. -/
inductive Point where
  | inf
  | aff (x y : Nat)
  deriving DecidableEq, Repr

/-- The register an integer index names. A decoded command's index is below 8 (R72); to be total on the four bits of the
field, the low three are taken (notes/assumptions/5.md). -/
def intIx (i : RegIx) : Fin 8 := ⟨i.toNat % 8, Nat.mod_lt _ (by decide)⟩

/-- The register a point index names, likewise (R72; notes/assumptions/5.md). -/
def pointIx (j : RegIx) : Fin 4 := ⟨j.toNat % 4, Nat.mod_lt _ (by decide)⟩

/-- `r[i]` (R15, R21). -/
def readR (s : State) (i : RegIx) : Word256 := s.r[intIx i]

/-- `r[i] <- v`, for an integer v that the rule shows to fit (R12, R15). -/
def writeR (s : State) (i : RegIx) (v : Nat) : State :=
  { s with r := s.r.set (intIx i) (BitVec.ofNat 256 v) (intIx i).isLt }

/-- The point value a register's fields stand for: `inf = 1` overrides the coordinates (R23). -/
def PointReg.point (q : PointReg) : Point :=
  if q.inf then .inf else .aff q.x.toNat q.y.toNat

/-- The fields a point value is stored as: infinity has both coordinates 0 (R23). -/
def Point.toReg : Point → PointReg
  | .inf => ⟨true, 0, 0⟩
  | .aff x y => ⟨false, BitVec.ofNat 256 x, BitVec.ofNat 256 y⟩

/-- The fields of point register `p[j]` (R22). -/
def readP (s : State) (j : RegIx) : PointReg := s.p[pointIx j]

/-- `p[j] <- P` (R23). -/
def writeP (s : State) (j : RegIx) (P : Point) : State :=
  { s with p := s.p.set (pointIx j) P.toReg (pointIx j).isLt }

/-- The range check of `rdpoint`: a finite point has x < M and y < M (R101). The curve equation is not checked. -/
def PointReg.checked (q : PointReg) : Except Raised Point :=
  if q.inf then .ok .inf
  else if M ≤ q.x.toNat ∨ M ≤ q.y.toNat then .error ⟨.operandRange, 0⟩
  else .ok (.aff q.x.toNat q.y.toNat)

/-- `rdpoint(j)`: how every command reads point register j (R101). -/
def rdpoint (s : State) (j : RegIx) : Except Raised Point := (readP s j).checked

/-- The byte string the buffer holds: `S[0:SLEN)` (R15, R24). -/
def readString (s : State) : List Byte := s.str.toList.take s.slen.toNat

/-- The string as an operand: refused when `SLEN > 64` (R123, R133). -/
def rdstring (s : State) : Except Raised (List Byte) :=
  if 64 < s.slen.toNat then .error ⟨.operandRange, 0⟩ else .ok (readString s)

/-- `S <- s`: all 64 bytes, zeros after the string, and `SLEN` (R35). -/
def writeString (s : State) (b : List Byte) : State :=
  { s with str := padTo64 b, slen := BitVec.ofNat 7 b.length }

end Sys2Proof.Machine
end

