-- ==== Sys2Proof/Machine/Ops.lean ====
section
/-! DEFINITION. How a command ends: the shared completion (45_system.md R146), TAKING A FAULT (60_exceptions.md R163) and
the return from one (R147, R175); acceptance (R145) and the reset event (70_reset_and_hazards.md R190). -/

namespace Sys2Proof.Machine

/-- The outcome of one step of this machine. -/
abbrev Outcome := Host.Outcome State Fault Refusal

/-- TAKING A FAULT: what a faulting completion does, and nothing else changes (R163). `CMD` already holds the faulting
word; there is no vector, no mode and no saved program counter. -/
def takeFault (s : State) (f : Raised) : State :=
  { s with fault := true, fcode := f.kind.code, finfo := f.info, busy := false, done := true }

/-- THE RETURN FROM A FAULT: what `FCLR` writes (R147, R175); nothing was saved, so nothing is restored. -/
def faultReturn (s : State) : State :=
  { s with fault := false, drop := false, fcode := 0, finfo := 0 }

/-- The end of a completion without fault (R146). -/
def finish (s : State) : State := { s with busy := false, done := true }

/-- COMPLETION: every write the pseudocode names is made, or none and the fault is recorded; either way in one step
(R146, R163). `res` is the state with the command's writes made, computed from `s` alone. -/
def complete (s : State) (res : Except Raised State) : Outcome :=
  match res with
  | .ok s' => .next (finish s')
  | .error f => .next (takeFault s f)

/-- The word of `FCLR`, the only one accepted while `FAULT = 1` (R145, R147). -/
def fclrWord : Word := 0x01000000#32

/-- ACCEPTANCE of a word written to `CMD` while `BUSY = 0`: cases (b) and (c) of R145. -/
def acceptWord (s : State) (w : Word) : State :=
  if s.fault ∧ w ≠ fclrWord then { s with drop := true }
  else { s with cmd := w, busy := true, done := false }

/-- THE RESET EVENT (R190, R38): the control state is cleared, the data registers and the hidden `SEQK`, `SEQCUR` take
the draws, and a command in progress is abandoned. What the host was about to do is unaffected. -/
def resetEvent (s : State) (d : Draws) : State :=
  { r := d.r, p := d.p, str := d.str, slen := 0, cmd := 0, busy := false, done := false, fault := false, drop := false,
    t := false, endFlag := false, fcode := 0, finfo := 0, seqK := d.seqK, seqCnt := 0, seqIdx := 0, seqCur := d.seqCur,
    inputs := s.inputs, answers := s.answers }

end Sys2Proof.Machine
end

