-- ==== Sys2Proof/Machine/Base58.lean ====
section
/-! DEFINITION. Base58 (42_base58.md): digits, encoding, decoding, and the commands `B58ENC`, `B58DEC`. -/

namespace Sys2Proof.Machine

/-- `digit(byte)`: the digit whose code is the byte, or none (R120). -/
def digit (b : Byte) : Option Nat := alpha.findIdx? (fun x => x == b)

/-- `code(d)`, the inverse of `digit` on 0 .. 57 (R120). -/
def code (d : Nat) : Byte := alpha.getD d 0

/-- The loop of `b58enc` (R126): each new digit goes in front. Since n is divided by 58 at each iteration, any fuel of at
least the first n is enough. -/
def b58encLoop : (fuel n : Nat) → (s : List Byte) → List Byte
  | 0, _, s => s
  | fuel + 1, n, s => if n = 0 then s else b58encLoop fuel (n / 58) (code (n % 58) :: s)

/-- `b58enc(n)` (R126): the base-58 numeral of n, and the empty string for 0. -/
def b58enc (n : Nat) : List Byte := b58encLoop n n []

/-- The loop of `b58dec` (R122) on the characters left, `i` the index in `S` of the first of them. -/
def b58decLoop : (s : List Byte) → (i acc : Nat) → Except Raised Nat
  | [], _, acc => .ok acc
  | x :: rest, i, acc =>
    match digit x with
    | none => .error ⟨.invalidCharacter, BitVec.ofNat 32 i⟩
    | some d =>
      if 2 ^ 256 ≤ acc * 58 + d then .error ⟨.b58Overflow, BitVec.ofNat 32 i⟩
      else b58decLoop rest (i + 1) (acc * 58 + d)

/-- `b58dec(s, base)` (R122): the first character that faults decides the fault. -/
def b58dec (s : List Byte) (base : Nat) : Except Raised Nat := b58decLoop s base 0

/-- `B58ENC ra` (R121). -/
def execB58enc (ra : RegIx) (s : State) : Outcome :=
  complete s (.ok (writeString s (b58enc (readR s ra).toNat)))

/-- `B58DEC rd` (R123). -/
def execB58dec (rd : RegIx) (s : State) : Outcome :=
  complete s (do
    let str ← rdstring s
    let v ← b58dec str 0
    pure (writeR s rd v))

end Sys2Proof.Machine
end

