-- ==== Sys2Proof/Machine/Field.lean ====
section
/-! DEFINITION. Field arithmetic (40_field.md): the primitives, the inverse by the extended Euclidean algorithm, the power
by squaring, and the commands `MODMUL`, `MODINV`, `MODPOW`. -/

namespace Sys2Proof.Machine

/-- `addm(u, w) = (u + w) mod M` (R90). -/
def addm (u w : Nat) : Nat := (u + w) % M

/-- `subm(u, w) = (u − w) mod M`, in [0, M−1] also when u < w (R12, R90). -/
def subm (u w : Nat) : Nat := (((u : Int) - (w : Int)) % (M : Int)).toNat

/-- `mulm(u, w) = (u · w) mod M` (R90). -/
def mulm (u w : Nat) : Nat := (u * w) % M

/-- The loop of the extended Euclidean algorithm (R92), answering (r0, t0) when r1 = 0. `fuel` bounds the iterations; r1
falls at each, so any fuel above the first r1 is enough. -/
def euclid : (fuel : Nat) → (r0 r1 : Nat) → (t0 t1 : Int) → Nat × Int
  | 0, r0, _, t0, _ => (r0, t0)
  | fuel + 1, r0, r1, t0, t1 =>
    if r1 = 0 then (r0, t0)
    else euclid fuel r1 (r0 - r0 / r1 * r1) t1 (t0 - (r0 / r1 : Nat) * t1)

/-- `finv(u)` (R92): the inverse of u modulo M in [1, M−1], or `NoInverse` when gcd(u mod M, M) ≠ 1. -/
def finv (u : Nat) : Except Raised Nat :=
  let x := u % M
  let e := euclid (x + 1) M x 0 1
  if e.1 ≠ 1 then .error ⟨.noInverse, 0⟩ else .ok (e.2 % (M : Int)).toNat

/-- The loop of the power (R94), answering `res` when e = 0. Since e is halved at each iteration, any fuel of at least the
first e is enough. -/
def fpowLoop : (fuel e res s : Nat) → Nat
  | 0, _, res, _ => res
  | fuel + 1, e, res, s =>
    if e = 0 then res
    else fpowLoop fuel (e / 2) (if e % 2 = 1 then mulm res s else res) (mulm s s)

/-- `fpow(u, e)` (R94): u^e mod M, and 1 for e = 0. -/
def fpow (u e : Nat) : Nat := fpowLoop e e 1 (u % M)

/-- `MODMUL rd, ra, rb` (R91). -/
def execModmul (rd ra rb : RegIx) (s : State) : Outcome :=
  complete s (.ok (writeR s rd (mulm (readR s ra).toNat (readR s rb).toNat)))

/-- `MODINV rd, ra` (R93). -/
def execModinv (rd ra : RegIx) (s : State) : Outcome :=
  complete s (do
    let y ← finv (readR s ra).toNat
    pure (writeR s rd y))

/-- `MODPOW rd, ra, rb` (R95): base `r[a]`, exponent `r[b]`, not reduced. -/
def execModpow (rd ra rb : RegIx) (s : State) : Outcome :=
  complete s (.ok (writeR s rd (fpow (readR s ra).toNat (readR s rb).toNat)))

end Sys2Proof.Machine
end

