-- ==== Sys2Proof/Machine/Hash.lean ====
section
/-! DEFINITION. The hash collaborator instantiated (46_hash_collaborator.md): SHA-256 and RIPEMD-160 as R150 to R152 write
them, and the parameters of this hardware, which hold the two (00_scope.md R10, R153). -/

namespace Sys2Proof.Machine

/-! ## Padding and words (R150) -/

/-- The fewest zero bytes that make the length ≡ 56 (mod 64) after the byte 0x80 (R150). -/
def padZeros (len : Nat) : Nat := (119 - len % 64) % 64

/-- The padded message with `lenBytes` the eight bytes of the bit length (R150). -/
def padMessage (m lenBytes : List Byte) : List Byte :=
  m ++ [0x80#8] ++ List.replicate (padZeros m.length) 0x00#8 ++ lenBytes

/-- The bytes as words, `conv` reading one word from its four bytes (R150). -/
def toWords (conv : Byte → Byte → Byte → Byte → Word) : List Byte → List Word
  | a :: b :: c :: d :: rest => conv a b c d :: toWords conv rest
  | _ => []

/-- A word read big-endian from its bytes. -/
def wordBE (a b c d : Byte) : Word := a ++ b ++ c ++ d
/-- A word read little-endian from its bytes. -/
def wordLE (a b c d : Byte) : Word := d ++ c ++ b ++ a

/-- The words cut into blocks of sixteen, 64 bytes each (R150). -/
def blocks (ws : List Word) : List (List Word) :=
  (List.range (ws.length / 16)).map (fun i => (ws.drop (16 * i)).take 16)

/-- A word written as four bytes, big-endian. -/
def bytesBE (w : Word) : List Byte := [laneOf w 3, laneOf w 2, laneOf w 1, laneOf w 0]
/-- A word written as four bytes, little-endian. -/
def bytesLE (w : Word) : List Byte := [laneOf w 0, laneOf w 1, laneOf w 2, laneOf w 3]

/-! ## SHA-256 (R151) -/

/-- The eight words of the SHA-256 state. -/
structure Sha where
  a : Word
  b : Word
  c : Word
  d : Word
  e : Word
  f : Word
  g : Word
  h : Word
  deriving DecidableEq, Repr

/-- The initial state H (R151). -/
def shaInit : Sha :=
  ⟨0x6A09E667, 0xBB67AE85, 0x3C6EF372, 0xA54FF53A, 0x510E527F, 0x9B05688C, 0x1F83D9AB, 0x5BE0CD19⟩

/-- The round constants K (R151). -/
def shaK : List Word :=
  [0x428A2F98, 0x71374491, 0xB5C0FBCF, 0xE9B5DBA5, 0x3956C25B, 0x59F111F1, 0x923F82A4, 0xAB1C5ED5] ++
  [0xD807AA98, 0x12835B01, 0x243185BE, 0x550C7DC3, 0x72BE5D74, 0x80DEB1FE, 0x9BDC06A7, 0xC19BF174] ++
  [0xE49B69C1, 0xEFBE4786, 0x0FC19DC6, 0x240CA1CC, 0x2DE92C6F, 0x4A7484AA, 0x5CB0A9DC, 0x76F988DA] ++
  [0x983E5152, 0xA831C66D, 0xB00327C8, 0xBF597FC7, 0xC6E00BF3, 0xD5A79147, 0x06CA6351, 0x14292967] ++
  [0x27B70A85, 0x2E1B2138, 0x4D2C6DFC, 0x53380D13, 0x650A7354, 0x766A0ABB, 0x81C2C92E, 0x92722C85] ++
  [0xA2BFE8A1, 0xA81A664B, 0xC24B8B70, 0xC76C51A3, 0xD192E819, 0xD6990624, 0xF40E3585, 0x106AA070] ++
  [0x19A4C116, 0x1E376C08, 0x2748774C, 0x34B0BCB5, 0x391C0CB3, 0x4ED8AA4A, 0x5B9CCA4F, 0x682E6FF3] ++
  [0x748F82EE, 0x78A5636F, 0x84C87814, 0x8CC70208, 0x90BEFFFA, 0xA4506CEB, 0xBEF9A3F7, 0xC67178F2]

/-- The message schedule `W[0..63]` of a block (R151). -/
def shaSchedule (block : List Word) : List Word :=
  (List.range' 16 48).foldl (fun W t =>
    let w15 := W.getD (t - 15) 0
    let w2 := W.getD (t - 2) 0
    let s0 := w15.rotateRight 7 ^^^ w15.rotateRight 18 ^^^ (w15 >>> 3)
    let s1 := w2.rotateRight 17 ^^^ w2.rotateRight 19 ^^^ (w2 >>> 10)
    W ++ [W.getD (t - 16) 0 + s0 + W.getD (t - 7) 0 + s1]) block

/-- One round, on the round constant and the schedule word (R151). -/
def shaRound (s : Sha) (kw : Word × Word) : Sha :=
  let S1 := s.e.rotateRight 6 ^^^ s.e.rotateRight 11 ^^^ s.e.rotateRight 25
  let ch := (s.e &&& s.f) ^^^ (~~~s.e &&& s.g)
  let t1 := s.h + S1 + ch + kw.1 + kw.2
  let S0 := s.a.rotateRight 2 ^^^ s.a.rotateRight 13 ^^^ s.a.rotateRight 22
  let maj := (s.a &&& s.b) ^^^ (s.a &&& s.c) ^^^ (s.b &&& s.c)
  let t2 := S0 + maj
  ⟨t1 + t2, s.a, s.b, s.c, s.d + t1, s.e, s.f, s.g⟩

/-- The compression of one block (R151). -/
def shaBlock (s : Sha) (block : List Word) : Sha :=
  let z := (shaK.zip (shaSchedule block)).foldl shaRound s
  ⟨s.a + z.a, s.b + z.b, s.c + z.c, s.d + z.d, s.e + z.e, s.f + z.f, s.g + z.g, s.h + z.h⟩

/-- The words of a state, first to last. -/
def Sha.words (s : Sha) : List Word := [s.a, s.b, s.c, s.d, s.e, s.f, s.g, s.h]

/-- `SHA256(m)`: 32 bytes (R151). -/
def sha256 (m : List Byte) : List Byte :=
  let padded := padMessage m (beBytes 8 (8 * m.length))
  ((blocks (toWords wordBE padded)).foldl shaBlock shaInit).words.flatMap bytesBE

/-! ## RIPEMD-160 (R152) -/

/-- The five words of the RIPEMD-160 state, or of one of its two lines. -/
structure Rmd where
  a : Word
  b : Word
  c : Word
  d : Word
  e : Word
  deriving DecidableEq, Repr

/-- The initial state h (R152). -/
def rmdInit : Rmd := ⟨0x67452301, 0xEFCDAB89, 0x98BADCFE, 0x10325476, 0xC3D2E1F0⟩

/-- The five Boolean functions, by number (R152). -/
def rmdF (q : Nat) (x y z : Word) : Word :=
  match q with
  | 0 => x ^^^ y ^^^ z
  | 1 => (x &&& y) ||| (~~~x &&& z)
  | 2 => (x ||| ~~~y) ^^^ z
  | 3 => (x &&& z) ||| (y &&& ~~~z)
  | _ => x ^^^ (y ||| ~~~z)

/-- The added constants of the left line, by round (R152). -/
def rmdKL : List Word := [0x00000000, 0x5A827999, 0x6ED9EBA1, 0x8F1BBCDC, 0xA953FD4E]
/-- The added constants of the right line, by round (R152). -/
def rmdKR : List Word := [0x50A28BE6, 0x5C4DD124, 0x6D703EF3, 0x7A6D76E9, 0x00000000]

/-- Message word order, left line (R152). -/
def rmdRL : List Nat :=
  [0, 1, 2, 3, 4, 5, 6, 7, 8, 9, 10, 11, 12, 13, 14, 15] ++
  [7, 4, 13, 1, 10, 6, 15, 3, 12, 0, 9, 5, 2, 14, 11, 8] ++
  [3, 10, 14, 4, 9, 15, 8, 1, 2, 7, 0, 6, 13, 11, 5, 12] ++
  [1, 9, 11, 10, 0, 8, 12, 4, 13, 3, 7, 15, 14, 5, 6, 2] ++
  [4, 0, 5, 9, 7, 12, 2, 10, 14, 1, 3, 8, 11, 6, 15, 13]

/-- Message word order, right line (R152). -/
def rmdRR : List Nat :=
  [5, 14, 7, 0, 9, 2, 11, 4, 13, 6, 15, 8, 1, 10, 3, 12] ++
  [6, 11, 3, 7, 0, 13, 5, 10, 14, 15, 8, 12, 4, 9, 1, 2] ++
  [15, 5, 1, 3, 7, 14, 6, 9, 11, 8, 12, 2, 10, 0, 4, 13] ++
  [8, 6, 4, 1, 3, 11, 15, 0, 5, 12, 2, 13, 9, 7, 10, 14] ++
  [12, 15, 10, 4, 1, 5, 8, 7, 6, 2, 13, 14, 0, 3, 9, 11]

/-- Rotation amounts, left line (R152). -/
def rmdSL : List Nat :=
  [11, 14, 15, 12, 5, 8, 7, 9, 11, 13, 14, 15, 6, 7, 9, 8] ++
  [7, 6, 8, 13, 11, 9, 7, 15, 7, 12, 15, 9, 11, 7, 13, 12] ++
  [11, 13, 6, 7, 14, 9, 13, 15, 14, 8, 13, 6, 5, 12, 7, 5] ++
  [11, 12, 14, 15, 14, 15, 9, 8, 9, 14, 5, 6, 8, 6, 5, 12] ++
  [9, 15, 5, 11, 6, 8, 13, 12, 5, 12, 13, 14, 11, 8, 5, 6]

/-- Rotation amounts, right line (R152). -/
def rmdSR : List Nat :=
  [8, 9, 9, 11, 13, 15, 15, 5, 7, 7, 8, 11, 14, 14, 12, 6] ++
  [9, 13, 15, 7, 12, 8, 9, 11, 7, 7, 12, 7, 6, 15, 13, 11] ++
  [9, 7, 15, 11, 8, 6, 6, 14, 12, 13, 5, 14, 13, 13, 7, 5] ++
  [15, 5, 8, 11, 14, 14, 6, 14, 6, 9, 12, 9, 12, 5, 15, 8] ++
  [8, 5, 12, 9, 12, 5, 14, 6, 8, 13, 6, 5, 15, 13, 11, 11]

/-- One step of a line: `f` the number of its Boolean function, `k` its constant, `x` its message word, `n` its rotation
(R152). -/
def rmdStep (s : Rmd) (f : Nat) (k x : Word) (n : Nat) : Rmd :=
  let t := (s.a + rmdF f s.b s.c s.d + x + k).rotateLeft n + s.e
  ⟨s.e, t, s.b, s.c.rotateLeft 10, s.d⟩

/-- Step j of the left line on the block X (R152). -/
def rmdLeft (X : List Word) (s : Rmd) (j : Nat) : Rmd :=
  rmdStep s (j / 16) (rmdKL.getD (j / 16) 0) (X.getD (rmdRL.getD j 0) 0) (rmdSL.getD j 0)

/-- Step j of the right line, the Boolean functions in the opposite order (R152). -/
def rmdRight (X : List Word) (s : Rmd) (j : Nat) : Rmd :=
  rmdStep s (4 - j / 16) (rmdKR.getD (j / 16) 0) (X.getD (rmdRR.getD j 0) 0) (rmdSR.getD j 0)

/-- The compression of one block: the two lines, then the five sums (R152). -/
def rmdBlock (h : Rmd) (X : List Word) : Rmd :=
  let l := (List.range 80).foldl (rmdLeft X) h
  let r := (List.range 80).foldl (rmdRight X) h
  ⟨h.b + l.c + r.d, h.c + l.d + r.e, h.d + l.e + r.a, h.e + l.a + r.b, h.a + l.b + r.c⟩

/-- The words of a state, first to last. -/
def Rmd.words (s : Rmd) : List Word := [s.a, s.b, s.c, s.d, s.e]

/-- `RIPEMD160(m)`: 20 bytes (R152). -/
def ripemd160 (m : List Byte) : List Byte :=
  let padded := padMessage m (beBytes 8 (8 * m.length)).reverse
  ((blocks (toWords wordLE padded)).foldl rmdBlock rmdInit).words.flatMap bytesLE

/-! ## This hardware -/

/-- The parameters of this hardware (R10; the standard hash functions, R153). -/
def hw : Config where
  paddCoincident := hwPaddCoincident
  addrVerify := hwAddrVerify
  addrPad := hwAddrPad
  sha256 := sha256
  ripemd160 := ripemd160

end Sys2Proof.Machine
end

