-- ==== Sys2Proof/Machine/Curve.lean ====
section
/-! DEFINITION. Points of the curve y² ≡ x³ + 7 (41_curve.md): doubling, addition, scalar multiplication, the on-curve test
and key derivation, and the commands `PLDG`, `PDBL`, `PADD`, `SMUL`, `ONCURVE`, `DERIVE`, `SEQINIT`, `SEQNEXT`. -/

namespace Sys2Proof.Machine

/-- The generator G (R7). -/
def G : Point := .aff GX GY

/-- `fdouble(P)` (R109). -/
def fdouble : Point → Except Raised Point
  | .inf => .ok .inf
  | .aff x y =>
    if y = 0 then .ok .inf
    else do
      let i ← finv (mulm 2 y)
      let s := mulm (mulm 3 (mulm x x)) i
      let x' := subm (mulm s s) (mulm 2 x)
      let y' := subm (mulm s (subm x x')) y
      pure (.aff x' y')

/-- What `fadd` does when x1 = x2 (R110): always the fault under `STRICT`; under `CORRECTED` a doubling for the same
point, infinity for inverse points, the fault otherwise. -/
def faddCoincident (mode : PaddCoincident) (x1 y1 y2 : Nat) : Except Raised Point :=
  match mode with
  | .strict => .error ⟨.coincidentX, 0⟩
  | .corrected =>
    if y1 = y2 then fdouble (.aff x1 y1)
    else if addm y1 y2 = 0 then .ok .inf
    else .error ⟨.coincidentX, 0⟩

/-- `fadd(P1, P2)` (R110): infinity in either operand gives infinity. -/
def fadd (cfg : Config) : Point → Point → Except Raised Point
  | .inf, _ => .ok .inf
  | .aff _ _, .inf => .ok .inf
  | .aff x1 y1, .aff x2 y2 =>
    if x1 = x2 then faddCoincident cfg.paddCoincident x1 y1 y2
    else do
      let i ← finv (subm x1 x2)
      let s := mulm (subm y1 y2) i
      let x' := subm (mulm s s) (addm x1 x2)
      let y' := subm (mulm s (subm x1 x')) y1
      pure (.aff x' y')

/-- One accumulation of `fsmul`: an infinite accumulator is replaced by the addend (R111). -/
def accumulate (cfg : Config) (acc scale : Point) : Except Raised Point :=
  match acc with
  | .inf => .ok scale
  | .aff x y => fadd cfg (.aff x y) scale

/-- What bit 0 of e does to the accumulator: `scale` is accumulated when it is set (R111). -/
def accumulateBit (cfg : Config) (e : Nat) (acc scale : Point) : Except Raised Point :=
  if e % 2 = 1 then accumulate cfg acc scale else .ok acc

/-- The loop of `fsmul` (R111), least significant bit first, answering `acc` when e = 0. Since e is halved at each
iteration, any fuel of at least the first e is enough. -/
def fsmulLoop (cfg : Config) : (fuel e : Nat) → (acc scale : Point) → Except Raised Point
  | 0, _, acc, _ => .ok acc
  | fuel + 1, e, acc, scale =>
    if e = 0 then .ok acc
    else do
      let acc' ← accumulateBit cfg e acc scale
      let scale' ← fdouble scale
      fsmulLoop cfg fuel (e / 2) acc' scale'

/-- `fsmul(k, P)` (R111). -/
def fsmul (cfg : Config) (k : Nat) (P : Point) : Except Raised Point := fsmulLoop cfg k k .inf P

/-- `foncurve(P)` (R112): y² − x³ − 7 ≡ 0 (mod M), and `InfinityOperand` for infinity. -/
def foncurve : Point → Except Raised Bool
  | .inf => .error ⟨.infinityOperand, 0⟩
  | .aff x y => .ok (subm (subm (mulm y y) (mulm x (mulm x x))) 7 == 0)

/-- `fderive(k)` (R113): the product k·G, checked to be on the curve. -/
def fderive (cfg : Config) (k : Nat) : Except Raised Point := do
  let Q ← fsmul cfg k G
  let ok ← foncurve Q
  if ok then pure Q else .error ⟨.consistency, 0⟩

/-- `PLDG pd` (R100). -/
def execPldg (pd : RegIx) (s : State) : Outcome :=
  complete s (.ok (writeP s pd G))

/-- `PDBL pd, pa` (R102). -/
def execPdbl (pd pa : RegIx) (s : State) : Outcome :=
  complete s (do
    let P ← rdpoint s pa
    let Q ← fdouble P
    pure (writeP s pd Q))

/-- `PADD pd, pa, pb` (R103): `p[a]` is read and checked before `p[b]` (R101). -/
def execPadd (pd pa pb : RegIx) (s : State) : Outcome :=
  complete s (do
    let P1 ← rdpoint s pa
    let P2 ← rdpoint s pb
    let Q ← fadd hw P1 P2
    pure (writeP s pd Q))

/-- `SMUL pd, ra, pb` (R104): the scalar is the whole unsigned value of `r[a]`. -/
def execSmul (pd ra pb : RegIx) (s : State) : Outcome :=
  complete s (do
    let P ← rdpoint s pb
    let Q ← fsmul hw (readR s ra).toNat P
    pure (writeP s pd Q))

/-- `ONCURVE pa` (R105). -/
def execOncurve (pa : RegIx) (s : State) : Outcome :=
  complete s (do
    let P ← rdpoint s pa
    let b ← foncurve P
    pure (writeT s b))

/-- `DERIVE pd, ra` (R106). -/
def execDerive (pd ra : RegIx) (s : State) : Outcome :=
  complete s (do
    let Q ← fderive hw (readR s ra).toNat
    pure (writeP s pd Q))

/-- `SEQINIT ra, rb` (R107): no point is computed yet. -/
def execSeqinit (ra rb : RegIx) (s : State) : Outcome :=
  complete s (.ok (writeEnd { s with seqK := readR s ra, seqCnt := readR s rb, seqIdx := 0 } false))

/-- The next point of the sequence: the derived key first, then the previous point plus G (R108). -/
def seqPoint (s : State) : Except Raised Point :=
  if s.seqIdx = 0 then fderive hw s.seqK.toNat else fadd hw s.seqCur.point G

/-- `SEQNEXT pd` (R108). -/
def execSeqnext (pd : RegIx) (s : State) : Outcome :=
  complete s (
    if s.seqCnt.toNat ≤ s.seqIdx.toNat then .ok (writeEnd s true)
    else do
      let Q ← seqPoint s
      pure (writeEnd { writeP s pd Q with seqCur := Q.toReg, seqIdx := s.seqIdx + 1 } false))

end Sys2Proof.Machine
end

