-- ==== Sys2Proof/Machine/Address.lean ====
section
/-! DEFINITION. Addresses (43_address.md): the public-key hash, encoding and decoding with version byte and checksum, and
the commands `HASHPK`, `ADDRENC`, `ADDRDEC`, `ADDRGEN`. -/

namespace Sys2Proof.Machine

/-- The 65-byte uncompressed serialisation of a finite point (R60, R135). -/
def serialise (x y : Nat) : List Byte := 0x04#8 :: (beBytes 32 x ++ beBytes 32 y)

/-- `fhashpk(P)` (R135): RIPEMD-160 of SHA-256 of the serialised point, and `InfinityOperand` for infinity. -/
def fhashpk (cfg : Config) : Point → Except Raised (List Byte)
  | .inf => .error ⟨.infinityOperand, 0⟩
  | .aff x y => .ok (cfg.ripemd160 (cfg.sha256 (serialise x y)))

/-- The checksum: the first four bytes of the double SHA-256 (R136, R137). -/
def checksum (cfg : Config) (pl : List Byte) : List Byte := (cfg.sha256 (cfg.sha256 pl)).take 4

/-- The 25-byte buffer `version‖hash160‖checksum` (R136). -/
def addrBuffer (cfg : Config) (h : List Byte) (v : Byte) : List Byte := (v :: h) ++ checksum cfg (v :: h)

/-- How many prefix characters `ADDRENC` puts in front (R136). -/
def prefixCount (pad : AddrPad) (buf : List Byte) : Nat :=
  match pad with
  | .perZeroByte => (buf.takeWhile (fun b => b == 0)).length
  | .once => 1

/-- `faddrenc(h, v, c)` (R136). -/
def faddrenc (cfg : Config) (h : List Byte) (v c : Byte) : List Byte :=
  let buf := addrBuffer cfg h v
  List.replicate (prefixCount cfg.addrPad buf) c ++ b58enc (beInt buf)

/-- The last steps of `faddrdec` (R137): the range of the number, the checksum where it is verified, the embedded hash. -/
def addrPayload (cfg : Config) (val : Nat) : Except Raised (List Byte) :=
  if 2 ^ 200 ≤ val then .error ⟨.addrRange, 0⟩
  else
    let buf := beBytes 25 val
    if cfg.addrVerify ∧ checksum cfg (buf.take 21) ≠ buf.drop 21 then .error ⟨.checksumMismatch, 0⟩
    else .ok ((buf.drop 1).take 20)

/-- `faddrdec(s, c)` (R137): all leading prefix bytes are stripped; a fault carries the index in s. -/
def faddrdec (cfg : Config) (s : List Byte) (c : Byte) : Except Raised (List Byte) := do
  let i := (s.takeWhile (fun b => b == c)).length
  let val ← b58dec (s.drop i) i
  addrPayload cfg val

/-- `HASHPK rd, pa` (R131). -/
def execHashpk (rd pa : RegIx) (s : State) : Outcome :=
  complete s (do
    let P ← rdpoint s pa
    let h ← fhashpk hw P
    pure (writeR s rd (beInt h)))

/-- `ADDRENC ra, v, c` (R132). -/
def execAddrenc (ra : RegIx) (v c : Byte) (s : State) : Outcome :=
  complete s (
    if 2 ^ 160 ≤ (readR s ra).toNat then .error ⟨.operandRange, 0⟩
    else .ok (writeString s (faddrenc hw (beBytes 20 (readR s ra).toNat) v c)))

/-- `ADDRDEC rd, c` (R133). -/
def execAddrdec (rd : RegIx) (c : Byte) (s : State) : Outcome :=
  complete s (do
    let str ← rdstring s
    let h ← faddrdec hw str c
    pure (writeR s rd (beInt h)))

/-- `ADDRGEN pa` (R134): version 0x00, prefix '1'. -/
def execAddrgen (pa : RegIx) (s : State) : Outcome :=
  complete s (do
    let P ← rdpoint s pa
    let h ← fhashpk hw P
    pure (writeString s (faddrenc hw h 0x00#8 0x31#8)))

end Sys2Proof.Machine
end

