-- ==== Sys2Proof/Machine/System.lean ====
section
/-! DEFINITION. The one system command, `FCLR` (45_system.md R147, R148). -/

namespace Sys2Proof.Machine

/-- `FCLR` (R147): the fault acknowledge; it does the same when `FAULT = 0`. -/
def execFclr (s : State) : Outcome := complete s (.ok (faultReturn s))

end Sys2Proof.Machine
end

