-- ==== Sys2Proof/Machine/Dispatch.lean ====
section
/-! DEFINITION. One arm per command: the meaning its completion has (45_system.md R146). -/

namespace Sys2Proof.Machine

def exec (i : Instr) (s : State) : Host.Outcome State Fault Refusal :=
  match i with
  | .fclr => Sys2Proof.Machine.execFclr s
  | .modmul rd ra rb => Sys2Proof.Machine.execModmul rd ra rb s
  | .modinv rd ra => Sys2Proof.Machine.execModinv rd ra s
  | .modpow rd ra rb => Sys2Proof.Machine.execModpow rd ra rb s
  | .pldg pd => Sys2Proof.Machine.execPldg pd s
  | .pdbl pd pa => Sys2Proof.Machine.execPdbl pd pa s
  | .padd pd pa pb => Sys2Proof.Machine.execPadd pd pa pb s
  | .smul pd ra pb => Sys2Proof.Machine.execSmul pd ra pb s
  | .oncurve pa => Sys2Proof.Machine.execOncurve pa s
  | .derive pd ra => Sys2Proof.Machine.execDerive pd ra s
  | .seqinit ra rb => Sys2Proof.Machine.execSeqinit ra rb s
  | .seqnext pd => Sys2Proof.Machine.execSeqnext pd s
  | .b58enc ra => Sys2Proof.Machine.execB58enc ra s
  | .b58dec rd => Sys2Proof.Machine.execB58dec rd s
  | .hashpk rd pa => Sys2Proof.Machine.execHashpk rd pa s
  | .addrenc ra v c => Sys2Proof.Machine.execAddrenc ra v c s
  | .addrdec rd c => Sys2Proof.Machine.execAddrdec rd c s
  | .addrgen pa => Sys2Proof.Machine.execAddrgen pa s

end Sys2Proof.Machine
end

