-- ==== Sys2Proof/Machine/Port.lean ====
section
/-! DEFINITION. The register port: the address map (20_memory.md R51), `HostRead` (R53) and `HostWrite` (R54, R56, R145). -/

namespace Sys2Proof.Machine

/-- What a port address maps (R51). -/
inductive PortReg where
  | cmd
  | status
  | fcode
  | finfo
  | pinf
  | slen
  | rWord (i w : Fin 8)
  | xWord (j : Fin 4) (w : Fin 8)
  | yWord (j : Fin 4) (w : Fin 8)
  | sWord (k : Fin 16)
  | unmapped
  deriving DecidableEq, Repr

/-- Index `n mod 8`, for the word of a 256-bit register and the number of an integer register. -/
def ix8 (n : Nat) : Fin 8 := ⟨n % 8, Nat.mod_lt _ (by decide)⟩
/-- Index `n mod 4`, for the number of a point register. -/
def ix4 (n : Nat) : Fin 4 := ⟨n % 4, Nat.mod_lt _ (by decide)⟩
/-- Index `n mod 16`, for the word of the string buffer. -/
def ix16 (n : Nat) : Fin 16 := ⟨n % 16, Nat.mod_lt _ (by decide)⟩

/-- The address map of R51. -/
def portMap (addr : PortAddr) : PortReg :=
  let n := addr.toNat
  if n = 0x000 then .cmd
  else if n = 0x001 then .status
  else if n = 0x002 then .fcode
  else if n = 0x003 then .finfo
  else if n = 0x004 then .pinf
  else if n = 0x005 then .slen
  else if n < 0x040 then .unmapped
  else if n < 0x080 then .rWord (ix8 ((n - 0x040) / 8)) (ix8 n)
  else if n < 0x0C0 then
    if n % 16 < 8 then .xWord (ix4 ((n - 0x080) / 16)) (ix8 n) else .yWord (ix4 ((n - 0x080) / 16)) (ix8 n)
  else if n < 0x0D0 then .sWord (ix16 (n - 0x0C0))
  else .unmapped

/-- Word k of the string buffer: bytes `S[4k .. 4k+3]` (R55). -/
def stringWord (s : State) (k : Fin 16) : Word :=
  lanes (s.str[4 * k.val]) (s.str[4 * k.val + 1]) (s.str[4 * k.val + 2]) (s.str[4 * k.val + 3])

/-- `HostRead(addr)`: the current value of the mapped word, 0 where nothing is mapped (R53). A function of the state: no
read changes any state. -/
def hostRead (s : State) (addr : PortAddr) : Word :=
  match portMap addr with
  | .cmd => s.cmd
  | .status => statusWord s
  | .fcode => fcodeWord s
  | .finfo => s.finfo
  | .pinf => pinfWord s
  | .slen => slenWord s
  | .rWord i w => wordOf s.r[i] w
  | .xWord j w => wordOf s.p[j].x w
  | .yWord j w => wordOf s.p[j].y w
  | .sWord k => stringWord s k
  | .unmapped => 0

/-- Point register j with other fields. -/
def setPointReg (s : State) (j : Fin 4) (q : PointReg) : State := { s with p := s.p.set j q j.isLt }

/-- A write of `PINF`: all four `inf` bits at once, every coordinate unchanged (R31). -/
def writePinf (s : State) (w : Word) : State :=
  { s with p := Vector.ofFn (fun j : Fin 4 => { s.p[j] with inf := w.getLsbD j.val }) }

/-- A write of word k of the string buffer: the four bytes of its lanes (R54, R55). -/
def writeStringWord (s : State) (k : Fin 16) (w : Word) : State :=
  { s with str := (((s.str.set (4 * k.val) (laneOf w 0)).set (4 * k.val + 1) (laneOf w 1)).set (4 * k.val + 2)
      (laneOf w 2)).set (4 * k.val + 3) (laneOf w 3) }

/-- `HostWrite(addr, w)`: dropped while `BUSY = 1`, whatever the address (R56); otherwise a write to `CMD` issues a command
(R145), a write to a data word, `PINF` or `SLEN` stores it, and any other changes nothing (R54). -/
def hostWrite (s : State) (addr : PortAddr) (w : Word) : State :=
  if s.busy then { s with drop := true }
  else match portMap addr with
    | .cmd => acceptWord s w
    | .pinf => writePinf s w
    | .slen => { s with slen := w.setWidth 7 }
    | .rWord i k => { s with r := s.r.set i (withWord s.r[i] k w) i.isLt }
    | .xWord j k => setPointReg s j { s.p[j] with x := withWord s.p[j].x k w }
    | .yWord j k => setPointReg s j { s.p[j] with y := withWord s.p[j].y k w }
    | .sWord k => writeStringWord s k w
    | .status => s
    | .fcode => s
    | .finfo => s
    | .unmapped => s

/-- The port address of word w of `r[i]` (R51). -/
def rAddr (i w : Fin 8) : PortAddr := BitVec.ofNat 10 (0x040 + 8 * i.val + w.val)
/-- The port address of word w of `p[j].x` (R51). -/
def xAddr (j : Fin 4) (w : Fin 8) : PortAddr := BitVec.ofNat 10 (0x080 + 16 * j.val + w.val)
/-- The port address of word w of `p[j].y` (R51). -/
def yAddr (j : Fin 4) (w : Fin 8) : PortAddr := BitVec.ofNat 10 (0x088 + 16 * j.val + w.val)
/-- The port address of word k of `S` (R51). -/
def sAddr (k : Fin 16) : PortAddr := BitVec.ofNat 10 (0x0C0 + k.val)

/-- `LOAD r<i>, v`: the eight host writes that put a 256-bit value in an integer register (R78). -/
def loadR (i : Fin 8) (v : Word256) : List HostEvent :=
  (List.finRange 8).map (fun w => .write (rAddr i w) (wordOf v w))

/-- `LOAD p<j>, (x, y)`: the sixteen host writes and the write of `PINF` that clears bit j; `pinf` is what the host read
there (R78). -/
def loadP (j : Fin 4) (x y : Word256) (pinf : Word) : List HostEvent :=
  (List.finRange 8).map (fun w => .write (xAddr j w) (wordOf x w)) ++
  (List.finRange 8).map (fun w => .write (yAddr j w) (wordOf y w)) ++
  [.write 0x004#10 (pinf &&& ~~~(1#32 <<< j.val))]

end Sys2Proof.Machine
end

