-- ==== Sys2Proof/Machine/Complete.lean ====
section
/-! DEFINITION. The one kind of step the agent `CORE` has, *complete* (10_state.md R20, 45_system.md R146), and what a
`HostRead` gives its host (20_memory.md R53). -/

namespace Sys2Proof.Machine

/-- The complete step: the word in `CMD` is decoded, and its command ends, or it is illegal and takes the fault
(R75, R76, R146, R161). -/
def completeStep (s : State) : Outcome :=
  match decode s.cmd with
  | some i => exec i s
  | none => .next (takeFault s ⟨.illegalCommand, 0⟩)

/-- The turn of `CORE`: while `BUSY = 1` it completes, while `BUSY = 0` it has no step and nothing changes
(R146, R182; notes/assumptions/3.md). -/
def coreTurn (s : State) : Outcome := if s.busy then completeStep s else .next s

/-- `HostRead(addr)` as an event: the host gets the word, the block does not change (R53). -/
def readEvent (s : State) (addr : PortAddr) : State := { s with answers := s.answers ++ [hostRead s addr] }

end Sys2Proof.Machine
end

