-- ==== Sys2Proof/Machine/Step.lean ====
section
/-! DEFINITION. One step of the machine: the next event of the host, or the turn of `CORE` (10_state.md R20, 20_memory.md
R61, 45_system.md R146); and the state in which a given command word is the accepted one. -/

namespace Sys2Proof.Machine

/-- One step. The first of `inputs` moves; with none left `CORE` moves. -/
def step (s : State) : Host.Outcome State Fault Refusal :=
  match s.inputs with
  | [] => coreTurn s
  | .core :: rest => coreTurn { s with inputs := rest }
  | .read a :: rest => .next (readEvent { s with inputs := rest } a)
  | .write a w :: rest => .next (hostWrite { s with inputs := rest } a w)
  | .reset d :: rest => .next (resetEvent { s with inputs := rest } d)

/-- `s` with the word accepted: `CMD` holds it and `BUSY = 1` (R145 case (c)), and `CORE` has the next turn, so that the
very next step completes it. -/
def State.withFetchWord (s : State) (nbits w : Nat) : State :=
  { s with cmd := BitVec.ofNat 32 (w % 2 ^ nbits), busy := true, done := false, inputs := .core :: s.inputs }

end Sys2Proof.Machine
end

