-- ==== Sys2Proof/Safety.lean ====
section
/-! DEFINITION. The terms the statements about the machine use: which part of the state a completion may touch, the curve
and its group, the numerals of Base58, which fault a command may raise, and the invariants of a run. -/

namespace Sys2Proof.Machine

/-! ## Frames: what a completion leaves unchanged -/

/-- `t` is `s` with the fault recorded and nothing else changed but the end of the command (60_exceptions.md R163). -/
def FaultTaken (kind : FaultKind) (info : Word) (s t : State) : Prop :=
  t = { s with fault := true, fcode := kind.code, finfo := info, busy := false, done := true }

/-- `t` is `s` after a completion that wrote one integer register at most: every other register, every flag, the string
buffer, the sequence state, the fault record, `CMD` and `DROP` are unchanged. -/
def OnlyIntReg (d : RegIx) (s t : State) : Prop :=
  t = { s with r := t.r, busy := false, done := true } ∧ ∀ k : Fin 8, k ≠ intIx d → t.r[k] = s.r[k]

/-- `t` is `s` after a completion that wrote one point register at most. -/
def OnlyPointReg (d : RegIx) (s t : State) : Prop :=
  t = { s with p := t.p, busy := false, done := true } ∧ ∀ k : Fin 4, k ≠ pointIx d → t.p[k] = s.p[k]

/-- `t` is `s` after a completion that wrote the string buffer and its length at most. -/
def OnlyString (s t : State) : Prop :=
  t = { s with str := t.str, slen := t.slen, busy := false, done := true }

/-- The buffer holds the bytes `b`, zeros after them, and `SLEN` is their number (10_state.md R35). -/
def HoldsString (t : State) (b : List Byte) : Prop :=
  b.length ≤ 64 ∧ t.slen.toNat = b.length ∧ ∀ i : Fin 64, t.str[i] = b.getD i.val 0

/-! ## Whose turn it is -/

/-- `CORE` has the next turn, and `rest` is what the host does after it. -/
def CoreMoves (s : State) (rest : List HostEvent) : Prop := (s.inputs = [] ∧ rest = []) ∨ s.inputs = .core :: rest

/-- `n` steps of the machine. -/
def runFor (n : Nat) (s : State) : Outcome := core.run n s

/-- The host's accesses that are no turn of `CORE` and no reset. -/
def IsAccess : HostEvent → Prop
  | .read _ => True
  | .write _ _ => True
  | .core => False
  | .reset _ => False

/-! ## The opcode table read as R75 reads it -/

/-- The command of row k of R73 (0 for `FCLR`, in the table's order) with the operands the fields of `w` give it (30_encoding.md
R71, R75). -/
def rowCommand (k : Fin 18) (w : Word) : Instr :=
  let d := w.extractLsb' 20 4
  let a := w.extractLsb' 16 4
  let b := w.extractLsb' 12 4
  let v := w.extractLsb' 8 8
  let c := w.extractLsb' 0 8
  match k.val with
  | 0 => .fclr
  | 1 => .modmul d a b
  | 2 => .modinv d a
  | 3 => .modpow d a b
  | 4 => .pldg d
  | 5 => .pdbl d a
  | 6 => .padd d a b
  | 7 => .smul d a b
  | 8 => .oncurve a
  | 9 => .derive d a
  | 10 => .seqinit a b
  | 11 => .seqnext d
  | 12 => .b58enc a
  | 13 => .b58dec d
  | 14 => .hashpk d a
  | 15 => .addrenc a v c
  | 16 => .addrdec d c
  | _ => .addrgen a

/-- `w` matches row k: `(w and mask) = match` (R73). -/
def MatchesRow (k : Fin 18) (w : Word) : Prop := ∃ row, opcodeRows[k.val]? = some row ∧ w &&& row.2 = row.1

/-! ## The curve -/

/-- A point register whose coordinates are in [0, M−1], as `rdpoint` wants a finite operand (41_curve.md R101). -/
def InRange (q : PointReg) : Prop := q.x.toNat < M ∧ q.y.toNat < M

/-- A point operand that `rdpoint` answers: infinity, or coordinates in range (R101). -/
def Readable (q : PointReg) : Prop := q.inf = true ∨ InRange q

/-- y² ≡ x³ + 7 (mod M) (00_scope.md R2). -/
def OnCurve (x y : Nat) : Prop := (y * y) % M = (x * x * x + 7) % M

/-- The chord or tangent of slope `l` through (x1, y1) with x-coordinates x1, x2 gives (x', y'): x' = l² − x1 − x2 and
y' = l·(x1 − x') − y1, written without subtraction (R109, R110). -/
def LineGives (l x1 y1 x2 x' y' : Nat) : Prop :=
  x' < M ∧ y' < M ∧ (x' + x1 + x2) % M = (l * l) % M ∧ (y' + y1 + l * x') % M = (l * x1) % M

/-- The i-fold double of a point. -/
def doubleTimes : Nat → Point → Except Raised Point
  | 0, P => .ok P
  | i + 1, P => do
    let Q ← doubleTimes i P
    fdouble Q

/-- A point register that holds infinity, or a point of the curve in range (10_state.md R23). -/
def HoldsCurvePoint (q : PointReg) : Prop := q.inf = true ∨ (InRange q ∧ OnCurve q.x.toNat q.y.toNat)

/-- The curve y² = x³ + 7 over the prime field, as Mathlib's Weierstrass curve. -/
def secp256k1 : WeierstrassCurve.Affine (ZMod M) := { a₁ := 0, a₂ := 0, a₃ := 0, a₄ := 0, a₆ := 7 }

/-- A point value, with coordinates in [0, M−1], stands for a point of the curve. -/
def Represents (P : Point) (Q : secp256k1.Point) : Prop :=
  match P, Q with
  | .inf, .zero => True
  | .aff x y, .some X Y _ => x < M ∧ y < M ∧ (x : ZMod M) = X ∧ (y : ZMod M) = Y
  | .inf, .some _ _ _ => False
  | .aff _ _, .zero => False

/-- The order n of the generator, from general knowledge (R104; 93_implementation_defined.md G3). No definition of the
machine uses it. -/
def groupOrder : Nat := 0xFFFFFFFFFFFFFFFFFFFFFFFFFFFFFFFEBAAEDCE6AF48A03BBFD25E8CD0364141

/-! ## Base58 and addresses -/

/-- The value of a string of base-58 digits, most significant first (42_base58.md R126). -/
def digitsValue (ds : List Nat) : Nat := ds.foldl (fun acc d => acc * 58 + d) 0

/-- Every digit is in 0 .. 57. -/
def AllDigits (ds : List Nat) : Prop := ∀ d ∈ ds, d < 58

/-- `b` is the numeral of `n`: the codes of its base-58 digits, with no leading zero digit (R126). -/
def IsNumeral (b : List Byte) (n : Nat) : Prop :=
  ∃ ds : List Nat, AllDigits ds ∧ ds.head? ≠ some 0 ∧ b = ds.map code ∧ digitsValue ds = n

/-- The first four bytes of SHA-256(SHA-256(b)), as an integer (43_address.md R136). -/
def checkInt (b : List Byte) : Nat := beInt ((sha256 (sha256 b)).take 4)

/-- The address string of the version byte `v`, the 20-byte hash with integer value `h` and the prefix `c`: `N` is the integer
of the 25-byte buffer, `z` the number of its leading zero bytes, and z prefix bytes stand before the numeral of N (R136). -/
def IsAddress (b : List Byte) (v : Byte) (h : Nat) (c : Byte) : Prop :=
  ∃ N z : Nat, ∃ body : List Byte, N = v.toNat * 2 ^ 192 + h * 2 ^ 32 + checkInt (v :: beBytes 20 h) ∧
    z ≤ 25 ∧ N < 256 ^ (25 - z) ∧ (z = 25 ∨ 256 ^ (24 - z) ≤ N) ∧ IsNumeral body N ∧ b = List.replicate z c ++ body

/-- The hash160 of a finite point, as an integer: RIPEMD-160 of SHA-256 of 0x04, the 32 bytes of x and the 32 bytes of y
(R135). -/
def keyHash (x y : Nat) : Nat := beInt (ripemd160 (sha256 (0x04#8 :: (beBytes 32 x ++ beBytes 32 y))))

/-! ## What a command reads and what it writes (44_keyderivation.md R143) -/

/-- The two states agree on everything the command reads. -/
def SameOperands (i : Instr) (s s' : State) : Prop :=
  match i with
  | .fclr => True
  | .modmul _ a b => readR s a = readR s' a ∧ readR s b = readR s' b
  | .modinv _ a => readR s a = readR s' a
  | .modpow _ a b => readR s a = readR s' a ∧ readR s b = readR s' b
  | .pldg _ => True
  | .pdbl _ a => readP s a = readP s' a
  | .padd _ a b => readP s a = readP s' a ∧ readP s b = readP s' b
  | .smul _ a b => readR s a = readR s' a ∧ readP s b = readP s' b
  | .oncurve a => readP s a = readP s' a
  | .derive _ a => readR s a = readR s' a
  | .seqinit a b => readR s a = readR s' a ∧ readR s b = readR s' b
  | .seqnext _ => s.seqK = s'.seqK ∧ s.seqCnt = s'.seqCnt ∧ s.seqIdx = s'.seqIdx ∧ s.seqCur = s'.seqCur
  | .b58enc a => readR s a = readR s' a
  | .b58dec _ => s.slen = s'.slen ∧ readString s = readString s'
  | .hashpk _ a => readP s a = readP s' a
  | .addrenc a _ _ => readR s a = readR s' a
  | .addrdec _ _ => s.slen = s'.slen ∧ readString s = readString s'
  | .addrgen a => readP s a = readP s' a

/-- The two states agree on everything the command has written; a `SEQNEXT` writes a point only when it delivers one. -/
def SameResult (i : Instr) (t t' : State) : Prop :=
  match i with
  | .fclr => t.fault = t'.fault ∧ t.drop = t'.drop ∧ t.fcode = t'.fcode ∧ t.finfo = t'.finfo
  | .modmul d _ _ => readR t d = readR t' d
  | .modinv d _ => readR t d = readR t' d
  | .modpow d _ _ => readR t d = readR t' d
  | .pldg d => readP t d = readP t' d
  | .pdbl d _ => readP t d = readP t' d
  | .padd d _ _ => readP t d = readP t' d
  | .smul d _ _ => readP t d = readP t' d
  | .oncurve _ => t.t = t'.t
  | .derive d _ => readP t d = readP t' d
  | .seqinit _ _ => t.seqK = t'.seqK ∧ t.seqCnt = t'.seqCnt ∧ t.seqIdx = t'.seqIdx ∧ t.endFlag = t'.endFlag
  | .seqnext d => (t.endFlag = false → readP t d = readP t' d) ∧ t.seqIdx = t'.seqIdx ∧ t.seqCur = t'.seqCur ∧
      t.endFlag = t'.endFlag
  | .b58enc _ => t.str = t'.str ∧ t.slen = t'.slen
  | .b58dec d => readR t d = readR t' d
  | .hashpk d _ => readR t d = readR t' d
  | .addrenc _ _ _ => t.str = t'.str ∧ t.slen = t'.slen
  | .addrdec d _ => readR t d = readR t' d
  | .addrgen _ => t.str = t'.str ∧ t.slen = t'.slen

/-! ## Faults -/

/-- The faults a decoded command may raise: the "raised by" column of R160, less `Consistency`, which the rule says is
never raised, and `NegativeInput`, which no command raises. -/
def mayRaise : Instr → FaultKind → Bool
  | .fclr, _ => false
  | .modmul .., _ => false
  | .modinv .., k => k == .noInverse
  | .modpow .., _ => false
  | .pldg .., _ => false
  | .pdbl .., k => k == .operandRange
  | .padd .., k => k == .operandRange || k == .coincidentX
  | .smul .., k => k == .operandRange || k == .coincidentX
  | .oncurve .., k => k == .operandRange || k == .infinityOperand
  | .derive .., k => k == .infinityOperand || k == .coincidentX
  | .seqinit .., _ => false
  | .seqnext .., k => k == .infinityOperand || k == .coincidentX
  | .b58enc .., _ => false
  | .b58dec .., k => k == .operandRange || k == .invalidCharacter || k == .b58Overflow
  | .hashpk .., k => k == .operandRange || k == .infinityOperand
  | .addrenc .., k => k == .operandRange
  | .addrdec .., k => k == .operandRange || k == .invalidCharacter || k == .b58Overflow || k == .addrRange ||
      k == .checksumMismatch
  | .addrgen .., k => k == .operandRange || k == .infinityOperand

/-- `FINFO` locates a fault in the string only for the two faults of a character (10_state.md R30). -/
def locates (k : FaultKind) : Bool := k == .invalidCharacter || k == .b58Overflow

/-- The fault recorded is one the word in `CMD` may raise (R160, R161). -/
def raisedBy (w : Word) (k : FaultKind) : Prop :=
  match decode w with
  | none => k = .illegalCommand
  | some i => mayRaise i k = true

/-! ## Invariants of a run -/

/-- Once the sequence has produced a point, the last one is infinity or in [0, M−1] (41_curve.md R108). -/
def SeqCurInRange (s : State) : Prop := s.seqIdx ≠ 0 → s.seqCur.inf = false → InRange s.seqCur

/-- The fault record is coherent: no code without a fault; with one, a code of R160 whose cause the word in `CMD` can have,
and an index in 0 .. 63 where one is due; while a fault stands only `FCLR` runs; `DONE` is 0 while `BUSY` is 1
(10_state.md R26, R28 to R30; 60_exceptions.md R160, R174). -/
def FaultRecordCoherent (s : State) : Prop :=
  (s.fault = false → s.fcode = 0 ∧ s.finfo = 0) ∧
  (s.fault = true → ∃ k : FaultKind, s.fcode = k.code ∧ (s.busy = false → raisedBy s.cmd k) ∧
    s.finfo.toNat < 64 ∧ (locates k = false → s.finfo = 0)) ∧
  (s.fault = true → s.busy = true → s.cmd = fclrWord) ∧
  (s.busy = true → s.done = false)

/-- The sequence generator is coherent: no more points produced than the sequence has, and the last one produced is finite
and is the multiple of G that its place in the sequence names (10_state.md R33, 41_curve.md R108). -/
def SequenceCoherent [Fact (Nat.Prime M)] (s : State) : Prop :=
  s.seqIdx.toNat ≤ s.seqCnt.toNat ∧
  (s.seqIdx ≠ 0 → s.seqCur.inf = false ∧ ∃ g : secp256k1.Point, Represents G g ∧
    Represents s.seqCur.point ((s.seqK.toNat + s.seqIdx.toNat - 1) • g))

end Sys2Proof.Machine
end

