-- ==== Sys2Proof/Certificates/Slice0/Obligations.lean ====
section
/-! DEFINITION. The statements about the block, from the spec's numbered rules. -/

open Sys2Proof Sys2Proof.Machine

/-! ## The encoding (30_encoding.md) -/

/-- The decoder is the exact inverse of the encoder: a word decodes to `i` just when `i` is well-formed and `w` is its word, with
every operand at every value (R71 to R76). -/
def Obligations.DecoderInvertsEncoder : Prop :=
  ∀ (w : Word) (i : Instr), decode w = some i ↔ i.wf = true ∧ encode i = w

/-- Decoding as R75 puts it: at most one row of the table of R73 matches; where row k does, the command is that row's with the
operands of the word's fields; where none does, the word is illegal. -/
def Obligations.DecoderIsTheMatchMaskTable : Prop :=
  ∀ w : Word,
    (∀ k k' : Fin 18, MatchesRow k w → MatchesRow k' w → k = k') ∧
    (∀ k : Fin 18, MatchesRow k w → decode w = some (rowCommand k w)) ∧
    ((∀ k : Fin 18, ¬ MatchesRow k w) → decode w = none)

/-- Words the spec writes out, bit by bit from R71 and R73, decode to the commands they stand for, and three illegal ones to
none (R75, R76). -/
def Obligations.SpecWordsDecode : Prop :=
  decode 0x01000000#32 = some .fclr ∧
  decode 0x10201000#32 = some (.modmul 2 0 1) ∧
  decode 0x11200000#32 = some (.modinv 2 0) ∧
  decode 0x22210000#32 = some (.padd 2 1 0) ∧
  decode 0x23300000#32 = some (.smul 3 0 0) ∧
  decode 0x26001000#32 = some (.seqinit 0 1) ∧
  decode 0x31100000#32 = some (.b58dec 1) ∧
  decode 0x40200000#32 = some (.hashpk 2 0) ∧
  decode 0x41020031#32 = some (.addrenc 2 0x00#8 0x31#8) ∧
  decode 0x42100031#32 = some (.addrdec 1 0x31#8) ∧
  decode 0x23380000#32 = none ∧
  decode 0x00000000#32 = none ∧
  decode 0xFFFFFFFF#32 = none

/-- A word that matches no row completes with `IllegalCommand`, code 0x01, `FINFO` 0, whatever the operands hold, and changes
nothing else (R161, R76). -/
def Obligations.IllegalWordFaults : Prop :=
  ∀ (s : State) (rest : List HostEvent), s.busy = true → CoreMoves s rest → (∀ k : Fin 18, ¬ MatchesRow k s.cmd) →
    step s = .next { s with fault := true, fcode := 0x01#8, finfo := 0, busy := false, done := true, inputs := rest }

/-! ## The steps of the machine -/

/-- While a command is accepted, the turn of `CORE` is the meaning of the decoded word and nothing more; and the state that
`withFetchWord` makes takes that turn next (R146). The order of turns, `inputs`, is the model's own (log entry 2). -/
def Obligations.StepRunsTheAcceptedCommand : Prop :=
  (∀ (s : State) (i : Instr) (rest : List HostEvent), s.busy = true → CoreMoves s rest → decode s.cmd = some i →
    step s = exec i { s with inputs := rest }) ∧
  (∀ (s : State) (w : Word) (i : Instr), decode w = some i →
    step (s.withFetchWord 32 w.toNat) = exec i { s with cmd := w, busy := true, done := false })

/-- A block that is idle stays as it is unless the host writes or `reset` is asserted, and the one thing that starts a command
is a write to `CMD` (R146, R190). That an idle turn of `CORE` leaves the state alone is the model's form of "it has none" (log
entry 3). -/
def Obligations.OnlyAWriteToCmdStartsACommand : Prop :=
  ∀ s t : State, s.busy = false → step s = .next t →
    ((∀ a w rest, s.inputs ≠ .write a w :: rest) → (∀ d rest, s.inputs ≠ .reset d :: rest) →
      t = { s with inputs := t.inputs, answers := t.answers }) ∧
    (t.busy = true → ∃ w, s.inputs = .write 0x000#10 w :: t.inputs ∧ t.cmd = w ∧ t.done = false)

/-- Acceptance (R145): dropped while `BUSY = 1`; dropped while `FAULT = 1` unless the word is `FCLR`'s; otherwise accepted, legal
or not. Nothing else changes. -/
def Obligations.AcceptanceOfACommandWord : Prop :=
  ∀ (s : State) (w : Word) (rest : List HostEvent), s.inputs = .write 0x000#10 w :: rest →
    (s.busy = true → step s = .next { s with drop := true, inputs := rest }) ∧
    (s.busy = false → s.fault = true → w ≠ 0x01000000#32 → step s = .next { s with drop := true, inputs := rest }) ∧
    (s.busy = false → (s.fault = false ∨ w = 0x01000000#32) →
      step s = .next { s with cmd := w, busy := true, done := false, inputs := rest })

/-- A host write while `BUSY = 1`, to any address, sets `DROP` and changes nothing else (R56). -/
def Obligations.WriteWhileBusyIsDropped : Prop :=
  ∀ (s : State) (a : PortAddr) (w : Word) (rest : List HostEvent), s.busy = true → s.inputs = .write a w :: rest →
    step s = .next { s with drop := true, inputs := rest }

/-- A host write while `BUSY = 0`, to an address other than `CMD`: the mapped word of a data register takes `w` and no other
word changes; `PINF` and `SLEN` take their low bits; a read-only or unmapped address changes nothing; `DROP` and the rest of
the control state stay, whether `FAULT` is 0 or 1 (R54, with the map of R51 and the lanes of R55). -/
def Obligations.IdleWriteStoresTheWord : Prop :=
  ∀ (s : State) (a : PortAddr) (w : Word) (rest : List HostEvent), s.busy = false → a.toNat ≠ 0x000 →
    s.inputs = .write a w :: rest →
    ∃ t, step s = .next t ∧ t = { s with r := t.r, p := t.p, str := t.str, slen := t.slen, inputs := rest } ∧
      (∀ i k : Fin 8, a.toNat = 0x040 + 8 * i.val + k.val → t.p = s.p ∧ t.str = s.str ∧ t.slen = s.slen ∧
        ∀ i' k' : Fin 8, t.r[i'].extractLsb' (32 * k'.val) 32 =
          if i' = i ∧ k' = k then w else s.r[i'].extractLsb' (32 * k'.val) 32) ∧
      (∀ (j : Fin 4) (k : Fin 8), a.toNat = 0x080 + 16 * j.val + k.val → t.r = s.r ∧ t.str = s.str ∧ t.slen = s.slen ∧
        ∀ (j' : Fin 4) (k' : Fin 8), t.p[j'].inf = s.p[j'].inf ∧ t.p[j'].y = s.p[j'].y ∧
          t.p[j'].x.extractLsb' (32 * k'.val) 32 =
            if j' = j ∧ k' = k then w else s.p[j'].x.extractLsb' (32 * k'.val) 32) ∧
      (∀ (j : Fin 4) (k : Fin 8), a.toNat = 0x088 + 16 * j.val + k.val → t.r = s.r ∧ t.str = s.str ∧ t.slen = s.slen ∧
        ∀ (j' : Fin 4) (k' : Fin 8), t.p[j'].inf = s.p[j'].inf ∧ t.p[j'].x = s.p[j'].x ∧
          t.p[j'].y.extractLsb' (32 * k'.val) 32 =
            if j' = j ∧ k' = k then w else s.p[j'].y.extractLsb' (32 * k'.val) 32) ∧
      (∀ k : Fin 16, a.toNat = 0x0C0 + k.val → t.r = s.r ∧ t.p = s.p ∧ t.slen = s.slen ∧
        ∀ n : Fin 64, t.str[n] = if n.val / 4 = k.val then w.extractLsb' (8 * (n.val % 4)) 8 else s.str[n]) ∧
      (a.toNat = 0x004 → t.r = s.r ∧ t.str = s.str ∧ t.slen = s.slen ∧
        ∀ j : Fin 4, t.p[j].inf = w.getLsbD j.val ∧ t.p[j].x = s.p[j].x ∧ t.p[j].y = s.p[j].y) ∧
      (a.toNat = 0x005 → t.r = s.r ∧ t.p = s.p ∧ t.str = s.str ∧ t.slen.toNat = w.toNat % 128) ∧
      (a.toNat < 0x004 ∨ (0x005 < a.toNat ∧ a.toNat < 0x040) ∨ 0x0D0 ≤ a.toNat →
        t.r = s.r ∧ t.p = s.p ∧ t.str = s.str ∧ t.slen = s.slen)

/-- `HostRead`: in any state, the current value of the word the map of R51 puts at the address, 0 where nothing is mapped, and
no side effect (R53). A word of a 256-bit register is the w-th digit of its value in base 2^32 (R52); a word of the string has
its lowest byte in the lowest lane (R55); `STATUS`, `FCODE`, `PINF` and `SLEN` have their bits where R26, R29, R31 and R32 put
them and 0 elsewhere. -/
def Obligations.HostReadReturnsTheMappedWord : Prop :=
  ∀ (s : State) (a : PortAddr) (rest : List HostEvent), s.inputs = .read a :: rest →
    ∃ w : Word, step s = .next { s with inputs := rest, answers := s.answers ++ [w] } ∧
      (a.toNat = 0x000 → w = s.cmd) ∧
      (a.toNat = 0x001 → w.toNat = s.busy.toNat + 2 * s.done.toNat + 4 * s.fault.toNat + 8 * s.drop.toNat + 16 * s.t.toNat +
        32 * s.endFlag.toNat) ∧
      (a.toNat = 0x002 → w.toNat = s.fcode.toNat) ∧
      (a.toNat = 0x003 → w = s.finfo) ∧
      (a.toNat = 0x004 → w.toNat = s.p[0].inf.toNat + 2 * s.p[1].inf.toNat + 4 * s.p[2].inf.toNat + 8 * s.p[3].inf.toNat) ∧
      (a.toNat = 0x005 → w.toNat = s.slen.toNat) ∧
      (∀ i k : Fin 8, a.toNat = 0x040 + 8 * i.val + k.val → w.toNat = s.r[i].toNat / 2 ^ (32 * k.val) % 2 ^ 32) ∧
      (∀ (j : Fin 4) (k : Fin 8), a.toNat = 0x080 + 16 * j.val + k.val →
        w.toNat = s.p[j].x.toNat / 2 ^ (32 * k.val) % 2 ^ 32) ∧
      (∀ (j : Fin 4) (k : Fin 8), a.toNat = 0x088 + 16 * j.val + k.val →
        w.toNat = s.p[j].y.toNat / 2 ^ (32 * k.val) % 2 ^ 32) ∧
      (∀ k : Fin 16, a.toNat = 0x0C0 + k.val → w.toNat = s.str[4 * k.val].toNat + 2 ^ 8 * s.str[4 * k.val + 1].toNat +
        2 ^ 16 * s.str[4 * k.val + 2].toNat + 2 ^ 24 * s.str[4 * k.val + 3].toNat) ∧
      ((0x005 < a.toNat ∧ a.toNat < 0x040) ∨ 0x0D0 ≤ a.toNat → w = 0)

/-- What the host writes while the block is idle it reads back: the whole word of a data register, the four low bits of `PINF`,
the seven of `SLEN` (R53, R54). -/
def Obligations.WrittenWordReadsBack : Prop :=
  ∀ (s : State) (a : PortAddr) (w : Word) (rest : List HostEvent), s.busy = false →
    s.inputs = .write a w :: .read a :: rest →
    ∃ t, runFor 2 s = .next t ∧
      (0x040 ≤ a.toNat → a.toNat < 0x0D0 → t.answers = s.answers ++ [w]) ∧
      (a.toNat = 0x004 → t.answers = s.answers ++ [w &&& 0xF#32]) ∧
      (a.toNat = 0x005 → t.answers = s.answers ++ [w &&& 0x7F#32])

/-- The eight writes of `LOAD r<i>` put the value in the register, those of `LOAD p<j>` put the point there and clear its `inf`
bit, and nothing else changes (R52, R78). -/
def Obligations.LoadPutsTheValueInTheRegister : Prop :=
  (∀ (s : State) (i : Fin 8) (v : Word256) (rest : List HostEvent), s.busy = false → s.inputs = loadR i v ++ rest →
    runFor 8 s = .next { s with r := s.r.set i v i.isLt, inputs := rest }) ∧
  (∀ (s : State) (j : Fin 4) (x y : Word256) (rest : List HostEvent), s.busy = false →
    s.inputs = loadP j x y (hostRead s 0x004#10) ++ rest →
    runFor 17 s = .next { s with p := s.p.set j ⟨false, x, y⟩ j.isLt, inputs := rest })

/-- A completion always ends the command: `BUSY` becomes 0 and `DONE` 1, `CMD` keeps the word, and the host's side is not
touched (R146). -/
def Obligations.EveryCommandCompletesInOneStep : Prop :=
  ∀ (i : Instr) (s : State), ∃ t, exec i s = .next t ∧ t.busy = false ∧ t.done = true ∧ t.cmd = s.cmd ∧
    t.inputs = s.inputs ∧ t.answers = s.answers

/-- The model's step is total: every state has a next one. While `BUSY = 1` that is the completion of R146, total since a
fault is recorded and not a stop. While `BUSY = 0` with no access of the host left R146 gives `CORE` NO step, and the next state is
the MODEL'S idle turn, which changes nothing (log entry 3, a DESIGN CHOICE); whose turn it is, is the model's too (log entry 2). -/
def Obligations.StepNeverStops : Prop := ∀ s : State, ∃ t, step s = .next t

/-- Liveness: after the host's accesses are done, one more turn leaves the block idle with nothing in progress; that an accepted
command completes after finitely many steps of other agents is R202 (a). The COUNT of steps is the MODEL'S, not the spec's: it rests
on its scheduler, where an empty `inputs` gives `CORE` the turn (log entry 2), and on its idle turn, which is a step that changes
nothing (log entry 3); both are DESIGN CHOICES. -/
def Obligations.RunEndsIdle : Prop :=
  ∀ s : State, ∃ t, runFor (s.inputs.length + 1) s = .next t ∧ t.busy = false ∧ t.inputs = []

/-- The host cannot race a command: whatever reads and writes fall between its acceptance and its completion, the completion
leaves the same state as with none of them, but for `DROP` and what the host has read (R56, R61, R146). -/
def Obligations.HostCannotRaceACommand : Prop :=
  ∀ (s u : State) (es : List HostEvent), s.busy = true → (∀ e ∈ es, IsAccess e) → s.inputs = es ++ [.core] →
    step { s with inputs := [.core] } = .next u →
    ∃ t, runFor (es.length + 1) s = .next t ∧ t = { u with drop := t.drop, answers := t.answers }

/-! ## Faults (60_exceptions.md) -/

/-- A faulting completion records the fault and changes nothing else: no register, no byte of the string, no flag, not the
sequence state, not `DROP`; the fault is one the command may raise, and `FINFO` is an index of the string only for the two
faults of a character (R163, R160, R30). An illegal word faults in the same way. The premise on the sequence state is kept by
every step (`FaultRecordStaysCoherent`). -/
def Obligations.FaultingCompletionWritesNothingElse : Prop :=
  (∀ (i : Instr) (s t : State), SeqCurInRange s → s.fault = false → exec i s = .next t → t.fault = true →
    ∃ (k : FaultKind) (info : Word), mayRaise i k = true ∧ info.toNat < 64 ∧ (locates k = false → info = 0) ∧
      FaultTaken k info s t) ∧
  (∀ s : State, decode s.cmd = none → ∃ t, completeStep s = .next t ∧ FaultTaken .illegalCommand 0 s t)

/-- `FCLR` is accepted whatever `FAULT` is, and its completion clears `FAULT`, `DROP`, `FCODE`, `FINFO` and nothing else; its word
is 0x01000000, any other word with its opcode is illegal, and any other word is dropped while `FAULT = 1` (R147). -/
def Obligations.FclrAcknowledgesTheFault : Prop :=
  encode .fclr = 0x01000000#32 ∧
  (∀ s : State, exec .fclr s =
    .next { s with fault := false, drop := false, fcode := 0, finfo := 0, busy := false, done := true }) ∧
  (∀ (s : State) (rest : List HostEvent), s.busy = false → s.inputs = .write 0x000#10 0x01000000#32 :: .core :: rest →
    runFor 2 s = .next
      { s with cmd := 0x01000000#32, fault := false, drop := false, fcode := 0, finfo := 0, busy := false, done := true,
               inputs := rest }) ∧
  (∀ w : Word, w.extractLsb' 24 8 = 0x01#8 → w ≠ 0x01000000#32 → decode w = none) ∧
  (∀ (s : State) (w : Word) (rest : List HostEvent), s.busy = false → s.fault = true → w ≠ 0x01000000#32 →
    s.inputs = .write 0x000#10 w :: rest → step s = .next { s with drop := true, inputs := rest })

/-- While `FAULT = 1` only the acceptance of `FCLR` or a reset takes the block from its fault: after any other step it still is
idle, and `FCODE`, `FINFO` and `CMD` describe the same fault (R174). -/
def Obligations.StandingFaultBlocksEveryCommand : Prop :=
  ∀ s t : State, s.fault = true → s.busy = false → step s = .next t →
    (t.fault = true ∧ t.busy = false ∧ t.fcode = s.fcode ∧ t.finfo = s.finfo ∧ t.cmd = s.cmd ∧ t.t = s.t ∧
      t.endFlag = s.endFlag) ∨
    s.inputs = .write 0x000#10 0x01000000#32 :: t.inputs ∨ (∃ d, s.inputs = .reset d :: t.inputs)

/-- A command issued again on the same operands after `FCLR` gets the same fault (R174). -/
def Obligations.SameCommandFaultsAgain : Prop :=
  ∀ (s t : State) (i : Instr) (rest : List HostEvent), decode s.cmd = some i → s.fault = false → s.busy = true →
    exec i s = .next t → t.fault = true →
    s.inputs = .write 0x000#10 0x01000000#32 :: .core :: .write 0x000#10 s.cmd :: .core :: rest →
    ∃ u, runFor 4 t = .next u ∧ u = { t with drop := false, inputs := rest }

/-- After a fault is recorded only commands that the table of R160 lets raise it stand in `CMD`, `FINFO` is in range, nothing
but `FCLR` runs, and no code stands without a fault: every step keeps this, together with the range of the last point of the
sequence that it needs (R26, R28, R29, R30, R160, R174). -/
def Obligations.FaultRecordStaysCoherent : Prop :=
  ∀ s t : State, FaultRecordCoherent s → SeqCurInRange s → step s = .next t → FaultRecordCoherent t ∧ SeqCurInRange t

/-- The invariant of `FaultRecordStaysCoherent` holds right after reset, whatever the draws, and in `State.reset` (R38). -/
def Obligations.FaultRecordCoherentAtReset : Prop :=
  (∀ (s : State) (d : Draws), FaultRecordCoherent (resetEvent s d) ∧ SeqCurInRange (resetEvent s d)) ∧
  FaultRecordCoherent State.reset ∧ SeqCurInRange State.reset

/-- Only `ONCURVE` writes `T`, only `SEQINIT` and `SEQNEXT` write `END`, and a faulting completion writes neither; outside a
completion only a reset changes them (R27). -/
def Obligations.OnlyNamedCommandsWriteTheFlags : Prop :=
  (∀ (i : Instr) (s t : State), exec i s = .next t →
    (t.t ≠ s.t → ∃ a, i = .oncurve a) ∧
    (t.endFlag ≠ s.endFlag → (∃ a b, i = .seqinit a b) ∨ ∃ d, i = .seqnext d) ∧
    (s.fault = false → t.fault = true → t.t = s.t ∧ t.endFlag = s.endFlag)) ∧
  (∀ s t : State, step s = .next t → t.t ≠ s.t ∨ t.endFlag ≠ s.endFlag →
    (s.busy = true ∧ CoreMoves s t.inputs) ∨ ∃ d, s.inputs = .reset d :: t.inputs)

/-! ## Reset (70_reset_and_hazards.md) -/

/-- The reset event, in any state, also while `BUSY = 1`: the control state takes the values of R38, the data registers and the
hidden `SEQK` and `SEQCUR` take the draws, and what the host was about to do is unaffected (R38, R190). -/
def Obligations.ResetClearsTheControlState : Prop :=
  ∀ (s : State) (d : Draws) (rest : List HostEvent), s.inputs = .reset d :: rest →
    ∃ t, step s = .next t ∧ t.cmd = 0 ∧ t.busy = false ∧ t.done = false ∧ t.fault = false ∧ t.drop = false ∧ t.t = false ∧
      t.endFlag = false ∧ t.fcode = 0 ∧ t.finfo = 0 ∧ t.slen = 0 ∧ t.seqCnt = 0 ∧ t.seqIdx = 0 ∧
      t.r = d.r ∧ t.p = d.p ∧ t.str = d.str ∧ t.seqK = d.seqK ∧ t.seqCur = d.seqCur ∧
      t.inputs = rest ∧ t.answers = s.answers

/-- `State.reset` is what the reset event leaves in any state for SOME draws, with nothing to come from the host: it claims no
draw the spec does not allow. Which draws, all zero, is the model's choice (log entry 1), and so are `inputs` and `answers`
(log entry 2). -/
def Obligations.ResetStateIsWhatAResetLeaves : Prop :=
  ∀ s : State, ∃ d : Draws, State.reset = { resetEvent s d with inputs := [], answers := [] }

/-- Straight after a reset, whatever the draws: `B58DEC` gives 0 and no fault, since it reads no byte of `S`, and `SEQNEXT` gives
`END = 1` and no fault, and writes no register (R191). -/
def Obligations.ResetThenDecodeOrSequence : Prop :=
  ∀ (s : State) (d : Draws) (x : RegIx) (rest : List HostEvent),
    (isIntIx x = true → s.inputs = .reset d :: .write 0x000#10 (encode (.b58dec x)) :: .core :: rest →
      ∃ t, runFor 3 s = .next t ∧ readR t x = 0 ∧ t.fault = false ∧ t.p = d.p ∧ t.str = d.str) ∧
    (isPointIx x = true → s.inputs = .reset d :: .write 0x000#10 (encode (.seqnext x)) :: .core :: rest →
      ∃ t, runFor 3 s = .next t ∧ t.endFlag = true ∧ t.fault = false ∧ t.r = d.r ∧ t.p = d.p ∧ t.str = d.str)

/-! ## Field commands (40_field.md) -/

/-- `MODMUL` gives the exact product reduced modulo M, for operands of any value, and changes no other register, no flag and no
other state (R91). -/
def Obligations.ModmulIsTheProductModM : Prop :=
  ∀ (d a b : RegIx) (s : State),
    encode (.modmul d a b) = 0x10#8 ++ d ++ a ++ b ++ 0#12 ∧
    ∃ t, exec (.modmul d a b) s = .next t ∧
      (readR t d).toNat = (readR s a).toNat * (readR s b).toNat % M ∧ OnlyIntReg d s t

/-- `MODINV` gives the one y in [1, M−1] with y·r[a] ≡ 1 (mod M), or `NoInverse` just when r[a] is 0 or M (R92, R93). -/
def Obligations.ModinvIsTheInverseOrNoInverse : Prop :=
  ∀ (d a : RegIx) (s : State),
    encode (.modinv d a) = 0x11#8 ++ d ++ a ++ 0#4 ++ 0#12 ∧
    ((readR s a).toNat = 0 ∨ (readR s a).toNat = M →
      ∃ t, exec (.modinv d a) s = .next t ∧ FaultTaken .noInverse 0 s t) ∧
    ((readR s a).toNat ≠ 0 → (readR s a).toNat ≠ M →
      ∃ t, exec (.modinv d a) s = .next t ∧ 1 ≤ (readR t d).toNat ∧ (readR t d).toNat < M ∧
        (readR t d).toNat * (readR s a).toNat % M = 1 ∧ OnlyIntReg d s t)

/-- `MODPOW` gives r[a] to the power of the whole 256-bit value of r[b], modulo M, and 1 for exponent 0 (R94, R95). -/
def Obligations.ModpowIsThePowerModM : Prop :=
  ∀ (d a b : RegIx) (s : State),
    encode (.modpow d a b) = 0x12#8 ++ d ++ a ++ b ++ 0#12 ∧
    ∃ t, exec (.modpow d a b) s = .next t ∧
      (readR t d).toNat = (readR s a).toNat ^ (readR s b).toNat % M ∧ OnlyIntReg d s t

/-- `MODPOW` with exponent M − 2 gives what `MODINV` gives, for a base not ≡ 0 (R92, R95: by Fermat's little theorem, which the
spec takes from general knowledge). -/
def Obligations.ModpowInvertsByFermat : Prop :=
  ∀ (d a b : RegIx) (s t u : State), (readR s a).toNat % M ≠ 0 → (readR s b).toNat = M - 2 →
    exec (.modpow d a b) s = .next t → exec (.modinv d a) s = .next u → t = u

/-! ## Curve commands (41_curve.md) -/

/-- `PLDG` puts the generator (GX, GY) in the register, with `inf = 0`, and changes nothing else (R100). -/
def Obligations.PldgLoadsTheGenerator : Prop :=
  ∀ (d : RegIx) (s : State),
    encode (.pldg d) = 0x20#8 ++ d ++ 0#4 ++ 0#4 ++ 0#12 ∧
    ∃ t, exec (.pldg d) s = .next t ∧ OnlyPointReg d s t ∧
      readP t d = ⟨false, BitVec.ofNat 256 GX, BitVec.ofNat 256 GY⟩

/-- `PDBL`: a coordinate out of range is `OperandRange`; infinity, and a point with y = 0, give infinity (both coordinates 0);
otherwise the tangent's slope l, with l·2y ≡ 3x², gives the result (R102, R109, R101). -/
def Obligations.PdblIsTheTangentRule : Prop :=
  ∀ (d a : RegIx) (s : State),
    encode (.pdbl d a) = 0x21#8 ++ d ++ a ++ 0#4 ++ 0#12 ∧
    (¬ Readable (readP s a) → ∃ t, exec (.pdbl d a) s = .next t ∧ FaultTaken .operandRange 0 s t) ∧
    ((readP s a).inf = true ∨ (InRange (readP s a) ∧ (readP s a).y = 0) →
      ∃ t, exec (.pdbl d a) s = .next t ∧ readP t d = ⟨true, 0, 0⟩ ∧ OnlyPointReg d s t) ∧
    ((readP s a).inf = false → InRange (readP s a) → (readP s a).y ≠ 0 →
      ∃ (t : State) (l : Nat), exec (.pdbl d a) s = .next t ∧ (readP t d).inf = false ∧
        l * (2 * (readP s a).y.toNat) % M = 3 * ((readP s a).x.toNat * (readP s a).x.toNat) % M ∧
        LineGives l (readP s a).x.toNat (readP s a).y.toNat (readP s a).x.toNat (readP t d).x.toNat (readP t d).y.toNat ∧
        OnlyPointReg d s t)

/-- `PADD`: a coordinate out of range in either operand is `OperandRange`; infinity in either gives infinity; equal
x-coordinates are `CoincidentX`; otherwise the chord's slope l, with l·(x1 − x2) ≡ y1 − y2, gives the result (R103, R110,
R101). -/
def Obligations.PaddIsTheChordRule : Prop :=
  ∀ (d a b : RegIx) (s : State),
    encode (.padd d a b) = 0x22#8 ++ d ++ a ++ b ++ 0#12 ∧
    (¬ Readable (readP s a) ∨ ¬ Readable (readP s b) →
      ∃ t, exec (.padd d a b) s = .next t ∧ FaultTaken .operandRange 0 s t) ∧
    (Readable (readP s a) → Readable (readP s b) → (readP s a).inf = true ∨ (readP s b).inf = true →
      ∃ t, exec (.padd d a b) s = .next t ∧ readP t d = ⟨true, 0, 0⟩ ∧ OnlyPointReg d s t) ∧
    ((readP s a).inf = false → (readP s b).inf = false → InRange (readP s a) → InRange (readP s b) →
      ((readP s a).x = (readP s b).x → ∃ t, exec (.padd d a b) s = .next t ∧ FaultTaken .coincidentX 0 s t) ∧
      ((readP s a).x ≠ (readP s b).x → ∃ (t : State) (l : Nat), exec (.padd d a b) s = .next t ∧ (readP t d).inf = false ∧
        (l * (readP s a).x.toNat + (readP s b).y.toNat) % M = (l * (readP s b).x.toNat + (readP s a).y.toNat) % M ∧
        LineGives l (readP s a).x.toNat (readP s a).y.toNat (readP s b).x.toNat (readP t d).x.toNat (readP t d).y.toNat ∧
        OnlyPointReg d s t))

/-- The alternative of R110: under `CORRECTED` the addition of two finite points of the curve never faults and is the group's
sum, with the same point doubled and inverse points giving infinity. -/
def Obligations.CorrectedAdditionIsTheGroupSum : Prop :=
  ∀ [Fact (Nat.Prime M)] (cfg : Config) (x1 y1 x2 y2 : Nat) (Q1 Q2 : secp256k1.Point),
    cfg.paddCoincident = .corrected → Represents (.aff x1 y1) Q1 → Represents (.aff x2 y2) Q2 →
    ∃ R, fadd cfg (.aff x1 y1) (.aff x2 y2) = .ok R ∧ Represents R (Q1 + Q2)

/-- `SMUL` where no addition is made: a coordinate out of range is `OperandRange`; scalar 0, or infinity, gives infinity; a
scalar 2^i gives the i-fold double, so scalar 1 gives the point (R104, R111). -/
def Obligations.SmulOfOneBitScalars : Prop :=
  ∀ (d a b : RegIx) (s : State),
    encode (.smul d a b) = 0x23#8 ++ d ++ a ++ b ++ 0#12 ∧
    (¬ Readable (readP s b) → ∃ t, exec (.smul d a b) s = .next t ∧ FaultTaken .operandRange 0 s t) ∧
    (Readable (readP s b) → (readR s a).toNat = 0 ∨ (readP s b).inf = true →
      ∃ t, exec (.smul d a b) s = .next t ∧ readP t d = ⟨true, 0, 0⟩ ∧ OnlyPointReg d s t) ∧
    (∀ i : Nat, Readable (readP s b) → (readR s a).toNat = 2 ^ i →
      ∃ (t : State) (R : Point), exec (.smul d a b) s = .next t ∧ doubleTimes i (readP s b).point = .ok R ∧
        readP t d = R.toReg ∧ OnlyPointReg d s t)

/-- `SMUL` by 2^i + k with k < 2^i is the product by k, then one accumulation of the i-fold double: bits are taken from bit 0
upward, and the first addition that faults decides the fault (R111, R177). With `SmulOfOneBitScalars` this says the result of
every scalar on every point, on the curve or off it. -/
def Obligations.SmulAccumulatesTheHighestBitLast : Prop :=
  ∀ (d a b : RegIx) (s : State) (i k : Nat), Readable (readP s b) → (readR s a).toNat = 2 ^ i + k → k < 2 ^ i →
    ∃ t, exec (.smul d a b) s = .next t ∧
      match fsmul hw k (readP s b).point, doubleTimes i (readP s b).point with
      | .ok .inf, .ok sc => readP t d = sc.toReg ∧ OnlyPointReg d s t
      | .ok (.aff x y), .ok sc =>
        (∀ R, fadd hw (.aff x y) sc = .ok R → readP t d = R.toReg ∧ OnlyPointReg d s t) ∧
        (∀ f, fadd hw (.aff x y) sc = .error f → FaultTaken f.kind f.info s t)
      | .error f, _ => FaultTaken f.kind f.info s t
      | .ok _, .error _ => False

/-- `SMUL` on a finite point Q of the curve: the multiple k·Q of the group, or `CoincidentX` just when at some set bit i of k the
part accumulated so far, (k mod 2^i)·Q, and 2^i·Q have the same x-coordinate (R104, R111). -/
def Obligations.SmulIsTheMultipleOrCoincidentX : Prop :=
  ∀ [Fact (Nat.Prime M)] (d a b : RegIx) (s : State) (Q : secp256k1.Point), (readP s b).inf = false →
    Represents (readP s b).point Q →
    ((∃ i, (readR s a).toNat.testBit i = true ∧ (((readR s a).toNat % 2 ^ i) • Q = (2 ^ i) • Q ∨
        ((readR s a).toNat % 2 ^ i) • Q = -((2 ^ i) • Q))) →
      ∃ t, exec (.smul d a b) s = .next t ∧ FaultTaken .coincidentX 0 s t) ∧
    ((∀ i, (readR s a).toNat.testBit i = true → ((readR s a).toNat % 2 ^ i) • Q ≠ (2 ^ i) • Q ∧
        ((readR s a).toNat % 2 ^ i) • Q ≠ -((2 ^ i) • Q)) →
      ∃ t, exec (.smul d a b) s = .next t ∧ Represents (readP t d).point ((readR s a).toNat • Q) ∧ OnlyPointReg d s t)

/-- For the generator `SMUL` faults for exactly one scalar, its order n, and gives k·G for every other (R104; n is from general
knowledge, 93_implementation_defined.md G3). -/
def Obligations.SmulOfTheGeneratorFaultsOnlyAtItsOrder : Prop :=
  ∀ [Fact (Nat.Prime M)] (d a b : RegIx) (s : State) (g : secp256k1.Point), Represents G g →
    readP s b = ⟨false, BitVec.ofNat 256 GX, BitVec.ofNat 256 GY⟩ →
    addOrderOf g = groupOrder ∧
    ((readR s a).toNat = groupOrder → ∃ t, exec (.smul d a b) s = .next t ∧ FaultTaken .coincidentX 0 s t) ∧
    ((readR s a).toNat ≠ groupOrder → ∃ t, exec (.smul d a b) s = .next t ∧
      Represents (readP t d).point (((readR s a).toNat % groupOrder) • g) ∧ OnlyPointReg d s t)

/-- `ONCURVE` writes 1 to `T` when the point satisfies the curve equation and 0 when it does not, and nothing else; infinity is
`InfinityOperand`, a coordinate out of range `OperandRange` (R105, R112, R101). -/
def Obligations.OncurveDecidesTheCurveEquation : Prop :=
  ∀ (a : RegIx) (s : State),
    encode (.oncurve a) = 0x24#8 ++ 0#4 ++ a ++ 0#4 ++ 0#12 ∧
    ((readP s a).inf = true → ∃ t, exec (.oncurve a) s = .next t ∧ FaultTaken .infinityOperand 0 s t) ∧
    (¬ Readable (readP s a) → ∃ t, exec (.oncurve a) s = .next t ∧ FaultTaken .operandRange 0 s t) ∧
    ((readP s a).inf = false → InRange (readP s a) →
      ∃ t, exec (.oncurve a) s = .next t ∧ t = { s with t := t.t, busy := false, done := true } ∧
        (t.t = true ↔ OnCurve (readP s a).x.toNat (readP s a).y.toNat))

/-- `DERIVE` gives k·G, a finite point of the curve, for every key but two: 0 is `InfinityOperand` and n is `CoincidentX`;
`Consistency` is never raised, and `T` is not written (R106, R113; n and the group are from general knowledge). -/
def Obligations.DeriveIsTheMultipleOfG : Prop :=
  ∀ [Fact (Nat.Prime M)] (d a : RegIx) (s : State) (g : secp256k1.Point), Represents G g →
    encode (.derive d a) = 0x25#8 ++ d ++ a ++ 0#4 ++ 0#12 ∧
    ((readR s a).toNat = 0 → ∃ t, exec (.derive d a) s = .next t ∧ FaultTaken .infinityOperand 0 s t) ∧
    ((readR s a).toNat = groupOrder → ∃ t, exec (.derive d a) s = .next t ∧ FaultTaken .coincidentX 0 s t) ∧
    ((readR s a).toNat ≠ 0 → (readR s a).toNat ≠ groupOrder →
      ∃ t, exec (.derive d a) s = .next t ∧ (readP t d).inf = false ∧
        Represents (readP t d).point ((readR s a).toNat • g) ∧ OnlyPointReg d s t)

/-- `SEQINIT` starts a fresh sequence, whatever the key and the count, computes no point and writes no register (R107). -/
def Obligations.SeqinitStartsAFreshSequence : Prop :=
  ∀ (a b : RegIx) (s : State),
    encode (.seqinit a b) = 0x26#8 ++ 0#4 ++ a ++ b ++ 0#12 ∧
    ∃ t, exec (.seqinit a b) s = .next t ∧ t.seqK = readR s a ∧ t.seqCnt = readR s b ∧ t.seqIdx.toNat = 0 ∧
      t.endFlag = false ∧
      t = { s with seqK := t.seqK, seqCnt := t.seqCnt, seqIdx := t.seqIdx, endFlag := false, busy := false, done := true }

/-- `SEQNEXT` on an exhausted sequence writes 1 to `END` and nothing else (R108). -/
def Obligations.SeqnextReportsTheEnd : Prop :=
  ∀ (d : RegIx) (s : State), s.seqCnt.toNat ≤ s.seqIdx.toNat →
    encode (.seqnext d) = 0x27#8 ++ d ++ 0#4 ++ 0#4 ++ 0#12 ∧
    ∃ t, exec (.seqnext d) s = .next t ∧ t = { s with endFlag := true, busy := false, done := true }

/-- The first `SEQNEXT` of a sequence delivers the derived key k·G and counts it, with the faults of `DERIVE`; on a fault nothing
is written, not even the sequence state (R108, R113; n is from general knowledge). -/
def Obligations.SeqnextDeliversTheDerivedKeyFirst : Prop :=
  ∀ [Fact (Nat.Prime M)] (d : RegIx) (s : State) (g : secp256k1.Point), Represents G g → s.seqIdx.toNat = 0 →
    s.seqCnt.toNat ≠ 0 →
    (s.seqK.toNat = 0 → ∃ t, exec (.seqnext d) s = .next t ∧ FaultTaken .infinityOperand 0 s t) ∧
    (s.seqK.toNat = groupOrder → ∃ t, exec (.seqnext d) s = .next t ∧ FaultTaken .coincidentX 0 s t) ∧
    (s.seqK.toNat ≠ 0 → s.seqK.toNat ≠ groupOrder →
      ∃ t, exec (.seqnext d) s = .next t ∧ (readP t d).inf = false ∧
        Represents (readP t d).point (s.seqK.toNat • g) ∧ t.seqCur = readP t d ∧ t.seqIdx.toNat = 1 ∧
        t = { s with p := t.p, seqCur := t.seqCur, seqIdx := t.seqIdx, endFlag := false, busy := false, done := true } ∧
        ∀ k : Fin 4, k ≠ pointIx d → t.p[k] = s.p[k])

/-- A later `SEQNEXT` delivers the previous point plus G by the chord rule and counts it; where the previous point has the
x-coordinate of G it is `CoincidentX` and nothing is written (R108, R110). -/
def Obligations.SeqnextAddsGAfterwards : Prop :=
  ∀ (d : RegIx) (s : State), s.seqIdx.toNat ≠ 0 → s.seqIdx.toNat < s.seqCnt.toNat → s.seqCur.inf = false →
    InRange s.seqCur →
    (s.seqCur.x.toNat = GX → ∃ t, exec (.seqnext d) s = .next t ∧ FaultTaken .coincidentX 0 s t) ∧
    (s.seqCur.x.toNat ≠ GX →
      ∃ (t : State) (l : Nat), exec (.seqnext d) s = .next t ∧ (readP t d).inf = false ∧
        (l * s.seqCur.x.toNat + GY) % M = (l * GX + s.seqCur.y.toNat) % M ∧
        LineGives l s.seqCur.x.toNat s.seqCur.y.toNat GX (readP t d).x.toNat (readP t d).y.toNat ∧
        t.seqCur = readP t d ∧ t.seqIdx.toNat = s.seqIdx.toNat + 1 ∧
        t = { s with p := t.p, seqCur := t.seqCur, seqIdx := t.seqIdx, endFlag := false, busy := false, done := true } ∧
        ∀ k : Fin 4, k ≠ pointIx d → t.p[k] = s.p[k])

/-- Every step keeps: no more points produced than the sequence has, and the last one produced, the i-th counting from 0, is the
finite point (SEQK + i)·G (R33, R108). -/
def Obligations.SequencePointsAreMultiplesOfG : Prop :=
  ∀ [Fact (Nat.Prime M)] (s t : State), SequenceCoherent s → step s = .next t → SequenceCoherent t

/-- The invariant of `SequencePointsAreMultiplesOfG` holds right after reset, whatever the draws, and in `State.reset` (R38). -/
def Obligations.SequenceCoherentAtReset : Prop :=
  ∀ [Fact (Nat.Prime M)], (∀ (s : State) (d : Draws), SequenceCoherent (resetEvent s d)) ∧ SequenceCoherent State.reset

/-- Only `SEQINIT` and `SEQNEXT` touch the sequence state: every other command leaves it, and so does every access of the host
(R198). -/
def Obligations.OnlySequenceCommandsTouchTheSequence : Prop :=
  ∀ s t : State, step s = .next t →
    (t.seqK = s.seqK ∧ t.seqCnt = s.seqCnt ∧ t.seqIdx = s.seqIdx ∧ t.seqCur = s.seqCur) ∨
    (s.busy = true ∧ CoreMoves s t.inputs ∧
      ((∃ a b, decode s.cmd = some (.seqinit a b)) ∨ ∃ d, decode s.cmd = some (.seqnext d))) ∨
    (∃ d, s.inputs = .reset d :: t.inputs)

/-- Commands keep points on the curve: where every point register and the last point of a started sequence hold infinity or a
point of the curve, they do so after any command (R23). -/
def Obligations.CommandsKeepPointsOnTheCurve : Prop :=
  ∀ (i : Instr) (s t : State), (∀ j : Fin 4, HoldsCurvePoint s.p[j]) → (s.seqIdx ≠ 0 → HoldsCurvePoint s.seqCur) →
    exec i s = .next t → (∀ j : Fin 4, HoldsCurvePoint t.p[j]) ∧ (t.seqIdx ≠ 0 → HoldsCurvePoint t.seqCur)

/-! ## Base58 commands (42_base58.md) -/

/-- `B58ENC` leaves in the buffer the base-58 numeral of r[a], without leading zero digit, at most 44 characters, zeros after
it, and its length; 0 gives the empty string; nothing else changes (R121, R126, R35). -/
def Obligations.B58encWritesTheNumeral : Prop :=
  ∀ (a : RegIx) (s : State),
    encode (.b58enc a) = 0x30#8 ++ 0#4 ++ a ++ 0#4 ++ 0#12 ∧
    ∃ (t : State) (b : List Byte), exec (.b58enc a) s = .next t ∧ IsNumeral b (readR s a).toNat ∧ HoldsString t b ∧
      b.length ≤ 44 ∧ OnlyString s t

/-- `B58DEC`: `SLEN` above 64 is `OperandRange`; a string of alphabet characters whose value fits gives the value, leading '1'
characters or not, the empty string 0; otherwise the first character that is outside the alphabet, or takes the value to
2^256, decides the fault, and its index goes to `FINFO`. `S` and `SLEN` are not changed (R122, R123). -/
def Obligations.B58decReadsTheNumeral : Prop :=
  ∀ (d : RegIx) (s : State),
    encode (.b58dec d) = 0x31#8 ++ d ++ 0#4 ++ 0#4 ++ 0#12 ∧
    (64 < s.slen.toNat → ∃ t, exec (.b58dec d) s = .next t ∧ FaultTaken .operandRange 0 s t) ∧
    (s.slen.toNat ≤ 64 → ∀ ds : List Nat, AllDigits ds → digitsValue ds < 2 ^ 256 →
      (readString s = ds.map code →
        ∃ t, exec (.b58dec d) s = .next t ∧ (readR t d).toNat = digitsValue ds ∧ OnlyIntReg d s t) ∧
      (∀ (x : Byte) (rest : List Byte), readString s = ds.map code ++ x :: rest →
        ((∀ e, e < 58 → x ≠ code e) →
          ∃ t, exec (.b58dec d) s = .next t ∧ FaultTaken .invalidCharacter (BitVec.ofNat 32 ds.length) s t) ∧
        (∀ e, e < 58 → x = code e → 2 ^ 256 ≤ digitsValue ds * 58 + e →
          ∃ t, exec (.b58dec d) s = .next t ∧ FaultTaken .b58Overflow (BitVec.ofNat 32 ds.length) s t)))

/-- `B58ENC` then `B58DEC` gives every register value back, 0 included; `B58DEC` then `B58ENC` gives the string back without its
leading '1' characters (R124). -/
def Obligations.Base58RoundTrips : Prop :=
  (∀ (a d : RegIx) (s t : State), exec (.b58enc a) s = .next t →
    ∃ u, exec (.b58dec d) t = .next u ∧ readR u d = readR s a ∧ u.fault = s.fault) ∧
  (∀ (d : RegIx) (s t : State) (m : Nat) (ds : List Nat), s.fault = false → exec (.b58dec d) s = .next t → t.fault = false →
    AllDigits ds → ds.head? ≠ some 0 → readString s = List.replicate m 0x31#8 ++ ds.map code →
    ∃ u, exec (.b58enc d) t = .next u ∧ HoldsString u (ds.map code))

/-! ## Address commands (43_address.md) -/

/-- `HASHPK` leaves in r[d] the hash160 of the point, below 2^160, and changes nothing else; infinity is `InfinityOperand`, a
coordinate out of range `OperandRange`; the point need not be on the curve (R131, R135, R60). -/
def Obligations.HashpkIsTheHash160 : Prop :=
  ∀ (d a : RegIx) (s : State),
    encode (.hashpk d a) = 0x40#8 ++ d ++ a ++ 0#4 ++ 0#12 ∧
    ((readP s a).inf = true → ∃ t, exec (.hashpk d a) s = .next t ∧ FaultTaken .infinityOperand 0 s t) ∧
    (¬ Readable (readP s a) → ∃ t, exec (.hashpk d a) s = .next t ∧ FaultTaken .operandRange 0 s t) ∧
    ((readP s a).inf = false → InRange (readP s a) →
      ∃ t, exec (.hashpk d a) s = .next t ∧ (readR t d).toNat = keyHash (readP s a).x.toNat (readP s a).y.toNat ∧
        (readR t d).toNat < 2 ^ 160 ∧ OnlyIntReg d s t)

/-- `ADDRENC` leaves in the buffer the address string of the hash, the version and the prefix; a hash of 2^160 or more is
`OperandRange` (R132, R136 with `ADDR_PAD = PER_ZERO_BYTE`). -/
def Obligations.AddrencWritesTheAddress : Prop :=
  ∀ (a : RegIx) (v c : Byte) (s : State),
    encode (.addrenc a v c) = 0x41#8 ++ 0#4 ++ a ++ v ++ c ∧
    (2 ^ 160 ≤ (readR s a).toNat → ∃ t, exec (.addrenc a v c) s = .next t ∧ FaultTaken .operandRange 0 s t) ∧
    ((readR s a).toNat < 2 ^ 160 →
      ∃ (t : State) (b : List Byte), exec (.addrenc a v c) s = .next t ∧ IsAddress b v (readR s a).toNat c ∧
        HoldsString t b ∧ b.length ≤ 36 ∧ OnlyString s t)

/-- `ADDRDEC`: `SLEN` above 64 is `OperandRange`; all leading prefix bytes are stripped, unexamined; the rest faults as in
`B58DEC`, with the index in `S`; a number of 2^200 or more is `AddrRange`; a checksum that differs is `ChecksumMismatch`;
otherwise r[d] is the embedded hash, whatever the version byte (R133, R137 with `ADDR_VERIFY = TRUE`). -/
def Obligations.AddrdecReadsTheAddress : Prop :=
  ∀ (d : RegIx) (c : Byte) (s : State),
    encode (.addrdec d c) = 0x42#8 ++ d ++ 0#4 ++ 0#8 ++ c ∧
    (64 < s.slen.toNat → ∃ t, exec (.addrdec d c) s = .next t ∧ FaultTaken .operandRange 0 s t) ∧
    (s.slen.toNat ≤ 64 → ∀ (m : Nat) (body : List Byte), readString s = List.replicate m c ++ body → body.head? ≠ some c →
      ∀ ds : List Nat, AllDigits ds → digitsValue ds < 2 ^ 256 →
      (body = ds.map code →
        (2 ^ 200 ≤ digitsValue ds → ∃ t, exec (.addrdec d c) s = .next t ∧ FaultTaken .addrRange 0 s t) ∧
        (digitsValue ds < 2 ^ 200 → checkInt (beBytes 21 (digitsValue ds / 2 ^ 32)) ≠ digitsValue ds % 2 ^ 32 →
          ∃ t, exec (.addrdec d c) s = .next t ∧ FaultTaken .checksumMismatch 0 s t) ∧
        (digitsValue ds < 2 ^ 200 → checkInt (beBytes 21 (digitsValue ds / 2 ^ 32)) = digitsValue ds % 2 ^ 32 →
          ∃ t, exec (.addrdec d c) s = .next t ∧ (readR t d).toNat = digitsValue ds / 2 ^ 32 % 2 ^ 160 ∧
            OnlyIntReg d s t)) ∧
      (∀ (x : Byte) (rest : List Byte), body = ds.map code ++ x :: rest →
        ((∀ e, e < 58 → x ≠ code e) →
          ∃ t, exec (.addrdec d c) s = .next t ∧ FaultTaken .invalidCharacter (BitVec.ofNat 32 (m + ds.length)) s t) ∧
        (∀ e, e < 58 → x = code e → 2 ^ 256 ≤ digitsValue ds * 58 + e →
          ∃ t, exec (.addrdec d c) s = .next t ∧ FaultTaken .b58Overflow (BitVec.ofNat 32 (m + ds.length)) s t)))

/-- What `ADDRENC` writes, `ADDRDEC` reads back: the hash, without fault, for every version and for every prefix that is not the
code of a non-zero digit (R133, R137). -/
def Obligations.AddressRoundTrip : Prop :=
  ∀ (a d : RegIx) (v c : Byte) (s t : State), (∀ e, 1 ≤ e → e < 58 → c ≠ code e) → (readR s a).toNat < 2 ^ 160 →
    exec (.addrenc a v c) s = .next t →
    ∃ u, exec (.addrdec d c) t = .next u ∧ readR u d = readR s a ∧ u.fault = s.fault

/-- `ADDRGEN` leaves in the buffer the address string of the point's hash160 with version 0x00 and prefix '1', and writes no
integer register; infinity is `InfinityOperand`, a coordinate out of range `OperandRange` (R134). -/
def Obligations.AddrgenWritesTheAddress : Prop :=
  ∀ (a : RegIx) (s : State),
    encode (.addrgen a) = 0x43#8 ++ 0#4 ++ a ++ 0#4 ++ 0#12 ∧
    ((readP s a).inf = true → ∃ t, exec (.addrgen a) s = .next t ∧ FaultTaken .infinityOperand 0 s t) ∧
    (¬ Readable (readP s a) → ∃ t, exec (.addrgen a) s = .next t ∧ FaultTaken .operandRange 0 s t) ∧
    ((readP s a).inf = false → InRange (readP s a) →
      ∃ (t : State) (b : List Byte), exec (.addrgen a) s = .next t ∧
        IsAddress b 0x00#8 (keyHash (readP s a).x.toNat (readP s a).y.toNat) 0x31#8 ∧ HoldsString t b ∧ OnlyString s t)

/-- `ADDRGEN` is `HASHPK` then `ADDRENC` with version 0 and prefix '1': the same string, or the same fault (R134). -/
def Obligations.AddrgenIsHashpkThenAddrenc : Prop :=
  ∀ (a d : RegIx) (s t u v : State), s.fault = false → exec (.hashpk d a) s = .next t → exec (.addrgen a) s = .next v →
    exec (.addrenc d 0x00#8 0x31#8) t = .next u →
    (t.fault = false → v = { u with r := s.r }) ∧ (t.fault = true → v = t)

/-- `ADDRFOR pd, ra` as the host issues it, `DERIVE` then `ADDRGEN`: where the key has a public key, `p[d]` holds it and `S` its
address; where `DERIVE` faults, `ADDRGEN` is dropped and no data register is written: the pair fails as a whole (R141). -/
def Obligations.AddrforFailsAsAWhole : Prop :=
  ∀ [Fact (Nat.Prime M)] (d a : RegIx) (s : State) (g : secp256k1.Point) (rest : List HostEvent), Represents G g →
    isPointIx d = true → isIntIx a = true → s.busy = false → s.fault = false →
    s.inputs = .write 0x000#10 (encode (.derive d a)) :: .core :: .write 0x000#10 (encode (.addrgen d)) :: .core :: rest →
    ∃ t, runFor 4 s = .next t ∧ t.busy = false ∧ t.inputs = rest ∧
      ((readR s a).toNat = 0 ∨ (readR s a).toNat = groupOrder →
        t.fault = true ∧ t.drop = true ∧ t.cmd = encode (.derive d a) ∧ t.r = s.r ∧ t.p = s.p ∧ t.str = s.str ∧
        t.slen = s.slen) ∧
      ((readR s a).toNat ≠ 0 → (readR s a).toNat ≠ groupOrder →
        t.fault = false ∧ Represents (readP t d).point ((readR s a).toNat • g) ∧
        ∃ b, HoldsString t b ∧ IsAddress b 0x00#8 (keyHash (readP t d).x.toNat (readP t d).y.toNat) 0x31#8)

/-! ## Independence (44_keyderivation.md) -/

/-- What a command does depends on the operands its rule names and on nothing else, no earlier command, no flag, no other
register: two states that agree on them get the same result or the same fault (R143). -/
def Obligations.ResultsDependOnOperandsOnly : Prop :=
  ∀ (i : Instr) (s s' t t' : State), SameOperands i s s' → s.fault = false → s'.fault = false → exec i s = .next t →
    exec i s' = .next t' →
    t.fault = t'.fault ∧ (t.fault = true → t.fcode = t'.fcode ∧ t.finfo = t'.finfo) ∧
    (t.fault = false → SameResult i t t')
end

