-- ==== Sys2Proof/Laws/Base58.lean ====
section
/-! SUPPORT. Base58: digits and codes, the numeral an encoding writes, and what a decoding answers (42_base58.md R120 to
R126). -/

namespace Sys2Proof.Laws

open Sys2Proof Sys2Proof.Machine

/-! ### Digits and codes (R120) -/

theorem digit_code_fin : ∀ d : Fin 58, digit (code d.val) = some d.val := by decide +kernel

theorem digit_code (d : Nat) (h : d < 58) : digit (code d) = some d := digit_code_fin ⟨d, h⟩

theorem digit_byte_fin : ∀ x : Fin 256, ∀ d, digit (BitVec.ofNat 8 x.val) = some d → d < 58 ∧ code d = BitVec.ofNat 8 x.val := by
  have h : ∀ x : Fin 256, (match digit (BitVec.ofNat 8 x.val) with
    | none => true
    | some d => decide (d < 58) && (code d == BitVec.ofNat 8 x.val)) = true := by decide +kernel
  intro x d hd
  have hx := h x
  rw [hd] at hx
  simpa using hx

/-- A byte that is a digit is the code of it. -/
theorem code_of_digit (b : Byte) (d : Nat) (h : digit b = some d) : d < 58 ∧ code d = b := by
  have hb : BitVec.ofNat 8 b.toNat = b := by simp
  have := digit_byte_fin ⟨b.toNat, b.isLt⟩ d
  simp only [hb] at this
  exact this h

theorem code_injective {d e : Nat} (hd : d < 58) (he : e < 58) (h : code d = code e) : d = e := by
  have h1 := digit_code d hd
  rw [h, digit_code e he] at h1
  exact (Option.some.inj h1).symm

/-! ### Values of digit strings -/

@[simp] theorem digitsValue_nil : digitsValue [] = 0 := rfl

theorem digitsValue_concat (ds : List Nat) (d : Nat) : digitsValue (ds ++ [d]) = digitsValue ds * 58 + d := by
  simp [digitsValue, List.foldl_append]

theorem digitsValue_eq_ofDigits (ds : List Nat) : digitsValue ds = Nat.ofDigits 58 ds.reverse := by
  induction ds using List.reverseRecOn with
  | nil => rfl
  | append_singleton ds d ih =>
    rw [digitsValue_concat, ih, List.reverse_concat, Nat.ofDigits_cons]
    show _ = d + 58 * Nat.ofDigits 58 ds.reverse
    omega

/-! ### Encoding (R126) -/

theorem b58encLoop_eq (fuel n : Nat) (s : List Byte) (h : n ≤ fuel) :
    b58encLoop fuel n s = (Nat.digits 58 n).reverse.map code ++ s := by
  induction fuel generalizing n s with
  | zero =>
    have : n = 0 := by omega
    subst this
    simp [b58encLoop]
  | succ fuel ih =>
    rw [b58encLoop]
    by_cases hn : n = 0
    · subst hn
      simp
    · rw [if_neg hn, ih (n / 58) _ (by omega), Nat.digits_def' (b := 58) (n := n) (by decide) (by omega)]
      simp

/-- `b58enc(n)` is the base-58 numeral, digit by digit. -/
theorem b58enc_eq (n : Nat) : b58enc n = (Nat.digits 58 n).reverse.map code := by
  rw [b58enc, b58encLoop_eq n n [] (le_refl n), List.append_nil]

theorem b58enc_isNumeral (n : Nat) : IsNumeral (b58enc n) n := by
  refine ⟨(Nat.digits 58 n).reverse, ?_, ?_, b58enc_eq n, ?_⟩
  · intro d hd
    exact Nat.digits_lt_base (by decide) (List.mem_reverse.mp hd)
  · intro h
    rw [List.head?_reverse] at h
    have hne : Nat.digits 58 n ≠ [] := by
      intro e
      rw [e] at h
      cases h
    have hn : n ≠ 0 := by
      intro e
      subst e
      exact hne (by simp)
    have hl := Nat.getLast_digit_ne_zero 58 hn
    rw [List.getLast?_eq_some_getLast hne] at h
    exact hl (Option.some.inj h)
  · rw [digitsValue_eq_ofDigits, List.reverse_reverse, Nat.ofDigits_digits]

theorem b58enc_length (n : Nat) : (b58enc n).length = (Nat.digits 58 n).length := by
  rw [b58enc_eq, List.length_map, List.length_reverse]

theorem digits_length_le {n k : Nat} (h : n < 58 ^ k) : (Nat.digits 58 n).length ≤ k := by
  by_contra hk
  have hlt : k < (Nat.digits 58 n).length := by omega
  exact absurd ((Nat.lt_digits_length_iff (by decide) n).mp hlt) (by omega)

/-- A 256-bit value has at most 44 characters (R125). -/
theorem b58enc_length_le (n : Nat) (h : n < 2 ^ 256) : (b58enc n).length ≤ 44 := by
  rw [b58enc_length]
  exact digits_length_le (lt_of_lt_of_le h (by norm_num))

/-- A value below 256^25 has at most 35 characters. -/
theorem b58enc_length_le_addr (n : Nat) (h : n < 256 ^ 25) : (b58enc n).length ≤ 35 := by
  rw [b58enc_length]
  exact digits_length_le (lt_of_lt_of_le h (by norm_num))

/-! ### Decoding (R122) -/

/-- The characters of digits decode to their value, the accumulator in front, while the value stays below 2^256. -/
theorem b58decLoop_digits (ds : List Nat) (i acc : Nat) (hd : AllDigits ds)
    (hv : ds.foldl (fun a d => a * 58 + d) acc < 2 ^ 256) :
    b58decLoop (ds.map code) i acc = .ok (ds.foldl (fun a d => a * 58 + d) acc) := by
  induction ds generalizing i acc with
  | nil => rfl
  | cons d ds ih =>
    have hmono : ∀ (l : List Nat) (a : Nat), a ≤ l.foldl (fun a d => a * 58 + d) a := by
      intro l
      induction l with
      | nil => intro a; exact le_refl a
      | cons x l ihl => intro a; exact le_trans (by omega) (ihl (a * 58 + x))
    rw [List.map_cons, b58decLoop, digit_code d (hd d (by simp))]
    simp only [List.foldl_cons] at hv ⊢
    have : acc * 58 + d < 2 ^ 256 := lt_of_le_of_lt (hmono ds _) hv
    rw [if_neg (by omega)]
    exact ih (i + 1) _ (fun x hx => hd x (by simp [hx])) hv

theorem b58dec_digits (ds : List Nat) (base : Nat) (hd : AllDigits ds) (hv : digitsValue ds < 2 ^ 256) :
    b58dec (ds.map code) base = .ok (digitsValue ds) := b58decLoop_digits ds base 0 hd hv

/-- Decoding an encoded value gives it back. -/
theorem b58dec_b58enc (n base : Nat) (h : n < 2 ^ 256) : b58dec (b58enc n) base = .ok n := by
  obtain ⟨ds, h1, -, h3, h4⟩ := b58enc_isNumeral n
  rw [h3, b58dec_digits ds base h1 (by omega), h4]

theorem foldl_digits_le (l : List Nat) (a : Nat) : a ≤ l.foldl (fun a d => a * 58 + d) a := by
  induction l generalizing a with
  | nil => exact le_refl a
  | cons x l ih => exact le_trans (by omega) (ih (a * 58 + x))

/-- The digits in front are taken up into the accumulator; what follows them decides the rest. -/
theorem b58decLoop_prefix (ds : List Nat) (rest : List Byte) (i acc : Nat) (hd : AllDigits ds)
    (hv : ds.foldl (fun a d => a * 58 + d) acc < 2 ^ 256) :
    b58decLoop (ds.map code ++ rest) i acc = b58decLoop rest (i + ds.length) (ds.foldl (fun a d => a * 58 + d) acc) := by
  induction ds generalizing i acc with
  | nil => rfl
  | cons d ds ih =>
    rw [List.map_cons, List.cons_append, b58decLoop, digit_code d (hd d (by simp))]
    simp only [List.foldl_cons] at hv ⊢
    have : acc * 58 + d < 2 ^ 256 := lt_of_le_of_lt (foldl_digits_le ds _) hv
    rw [if_neg (by omega), ih (i + 1) _ (fun x hx => hd x (by simp [hx])) hv, List.length_cons,
      show i + 1 + ds.length = i + (ds.length + 1) by omega]

theorem digit_none_of_ne_code (x : Byte) (h : ∀ e, e < 58 → x ≠ code e) : digit x = none := by
  cases hx : digit x with
  | none => rfl
  | some d =>
    obtain ⟨h1, h2⟩ := code_of_digit x d hx
    exact absurd h2.symm (h d h1)

/-- What a decoding can answer: the value of the digits, or the fault of one character, at its index. -/
theorem b58decLoop_cases (s : List Byte) (i acc : Nat) (ha : acc < 2 ^ 256) :
    (∃ ds : List Nat, AllDigits ds ∧ s = ds.map code ∧ b58decLoop s i acc = .ok (ds.foldl (fun a d => a * 58 + d) acc) ∧
      ds.foldl (fun a d => a * 58 + d) acc < 2 ^ 256) ∨
    (∃ k : Nat, k < s.length ∧ (b58decLoop s i acc = .error ⟨.invalidCharacter, BitVec.ofNat 32 (i + k)⟩ ∨
      b58decLoop s i acc = .error ⟨.b58Overflow, BitVec.ofNat 32 (i + k)⟩)) := by
  induction s generalizing i acc with
  | nil => exact .inl ⟨[], by simp [AllDigits], rfl, rfl, ha⟩
  | cons x s ih =>
    rw [b58decLoop]
    cases hx : digit x with
    | none => exact .inr ⟨0, by simp, .inl rfl⟩
    | some d =>
      obtain ⟨hd, hc⟩ := code_of_digit x d hx
      dsimp only
      by_cases ho : 2 ^ 256 ≤ acc * 58 + d
      · exact .inr ⟨0, by simp, .inr (by rw [if_pos ho]; rfl)⟩
      · rw [if_neg ho]
        rcases ih (i + 1) (acc * 58 + d) (by omega) with ⟨ds, h1, h2, h3, h4⟩ | ⟨k, hk, h⟩
        · refine .inl ⟨d :: ds, ?_, by rw [h2, List.map_cons, hc], h3, h4⟩
          intro e he
          rcases List.mem_cons.mp he with rfl | he
          · exact hd
          · exact h1 e he
        · refine .inr ⟨k + 1, by simp; omega, ?_⟩
          rw [show i + (k + 1) = i + 1 + k by omega]
          exact h

/-- A value that decoding answers fits a register. -/
theorem b58dec_lt (s : List Byte) (base v : Nat) (h : b58dec s base = .ok v) : v < 2 ^ 256 := by
  rcases b58decLoop_cases s base 0 (by norm_num) with ⟨ds, -, -, h3, h4⟩ | ⟨k, -, h3 | h3⟩ <;>
    rw [b58dec, h3] at h
  · cases h; exact h4
  · cases h
  · cases h

/-- A fault of decoding is of the character at its index. -/
theorem b58dec_error (s : List Byte) (base : Nat) (f : Raised) (h : b58dec s base = .error f) :
    ∃ k < s.length, f.info = BitVec.ofNat 32 (base + k) ∧ (f.kind = .invalidCharacter ∨ f.kind = .b58Overflow) := by
  rcases b58decLoop_cases s base 0 (by norm_num) with ⟨ds, -, -, h3, -⟩ | ⟨k, hk, h3 | h3⟩ <;>
    rw [b58dec, h3] at h
  · cases h
  · cases h; exact ⟨k, hk, rfl, .inl rfl⟩
  · cases h; exact ⟨k, hk, rfl, .inr rfl⟩

end Sys2Proof.Laws
end

