-- ==== Sys2Proof/Laws/Bytes.lean ====
section
/-! SUPPORT. Byte strings and integers: length, value and round trip (00_scope.md R14), and the words of a 256-bit register
(20_memory.md R52). -/

namespace Sys2Proof.Laws

open Sys2Proof Sys2Proof.Machine

@[simp] theorem beInt_nil : beInt [] = 0 := rfl

theorem beInt_concat (b : List Byte) (x : Byte) : beInt (b ++ [x]) = beInt b * 256 + x.toNat := by
  simp [beInt, List.foldl_append]

theorem beInt_append (b c : List Byte) : beInt (b ++ c) = beInt b * 256 ^ c.length + beInt c := by
  induction c using List.reverseRecOn with
  | nil => simp
  | append_singleton c x ih =>
    rw [← List.append_assoc, beInt_concat, beInt_concat, ih]
    simp only [List.length_append, List.length_singleton, pow_succ]
    ring

theorem beInt_cons (x : Byte) (b : List Byte) : beInt (x :: b) = x.toNat * 256 ^ b.length + beInt b := by
  have := beInt_append [x] b
  simpa [beInt] using this

theorem beInt_lt (b : List Byte) : beInt b < 256 ^ b.length := by
  induction b using List.reverseRecOn with
  | nil => simp
  | append_singleton b x ih =>
    rw [beInt_concat]
    have := x.isLt
    simp only [List.length_append, List.length_singleton, pow_succ]
    omega

@[simp] theorem beBytes_length (len v : Nat) : (beBytes len v).length = len := by
  induction len generalizing v with
  | zero => rfl
  | succ len ih => simp [beBytes, ih]

theorem beInt_beBytes_mod (len v : Nat) : beInt (beBytes len v) = v % 256 ^ len := by
  induction len generalizing v with
  | zero => simp [beBytes, Nat.mod_one]
  | succ len ih =>
    have h : v % 256 ^ (len + 1) = v % 256 + 256 * (v / 256 % 256 ^ len) := by
      rw [show (256 : Nat) ^ (len + 1) = 256 * 256 ^ len from by ring, Nat.mod_mul]
    rw [beBytes, beInt_concat, ih, BitVec.toNat_ofNat, h]
    omega

/-- `BEint(BE_L(v)) = v` for v < 256^L (R14). -/
theorem beInt_beBytes (len v : Nat) (h : v < 256 ^ len) : beInt (beBytes len v) = v := by
  rw [beInt_beBytes_mod, Nat.mod_eq_of_lt h]

/-- `BE_L(BEint(b)) = b` for a string of L bytes (R14). -/
theorem beBytes_beInt (b : List Byte) : beBytes b.length (beInt b) = b := by
  induction b using List.reverseRecOn with
  | nil => rfl
  | append_singleton b x ih =>
    have hx := x.isLt
    rw [List.length_append, List.length_singleton, beBytes, beInt_concat]
    have h1 : (beInt b * 256 + x.toNat) / 256 = beInt b := by omega
    have h2 : BitVec.ofNat 8 (beInt b * 256 + x.toNat) = x := by
      apply BitVec.eq_of_toNat_eq
      rw [BitVec.toNat_ofNat]
      omega
    rw [h1, h2, ih]

theorem beBytes_of_beInt (len : Nat) (b : List Byte) (h : b.length = len) : beBytes len (beInt b) = b := by
  subst h
  exact beBytes_beInt b

/-- The bytes of a value, split at the last `b`. -/
theorem beBytes_split (a b v : Nat) : beBytes (a + b) v = beBytes a (v / 256 ^ b) ++ beBytes b v := by
  induction b generalizing v with
  | zero => simp [beBytes]
  | succ b ih =>
    rw [← Nat.add_assoc, beBytes, ih, beBytes, Nat.div_div_eq_div_mul, List.append_assoc, pow_succ,
      Nat.mul_comm (256 ^ b) 256]

/-- The value of a string is below 256 to its length, so a short string fits a register. -/
theorem beInt_lt_of_length (b : List Byte) (n : Nat) (h : b.length = n) : beInt b < 256 ^ n := h ▸ beInt_lt b

/-! ### The words of a 256-bit value (R52) -/

theorem getLsbD_wordOf (v : Word256) (w : Fin 8) (i : Nat) :
    (wordOf v w).getLsbD i = (decide (i < 32) && v.getLsbD (32 * w.val + i)) := by
  simp [wordOf, BitVec.getLsbD_extractLsb']

theorem getLsbD_withWord (v : Word256) (w : Fin 8) (x : Word) (i : Nat) :
    (withWord v w x).getLsbD i =
      if 32 * w.val ≤ i ∧ i < 32 * w.val + 32 then x.getLsbD (i - 32 * w.val) else v.getLsbD i := by
  have hw := w.isLt
  have hm : ∀ j, (0xFFFFFFFF#256).getLsbD j = decide (j < 32) := by
    intro j
    rw [show (0xFFFFFFFF#256) = (BitVec.allOnes 32).setWidth 256 from by decide +kernel]
    simp only [BitVec.getLsbD_setWidth, BitVec.getLsbD_allOnes]
    by_cases h : j < 32
    · simp [h, show j < 256 by omega]
    · simp [h]
  simp only [withWord, BitVec.getLsbD_or, BitVec.getLsbD_and, BitVec.getLsbD_not, BitVec.getLsbD_shiftLeft, hm,
    BitVec.getLsbD_setWidth]
  by_cases h1 : 32 * w.val ≤ i
  · by_cases h2 : i < 32 * w.val + 32
    · have a1 : i < 256 := by omega
      have a2 : ¬ i < 32 * w.val := by omega
      have a3 : i - 32 * w.val < 32 := by omega
      have a4 : i - 32 * w.val < 256 := by omega
      simp [h1, h2, a1, a2, a3, a4]
    · have a2 : ¬ i < 32 * w.val := by omega
      have a3 : ¬ i - 32 * w.val < 32 := by omega
      have a4 : 32 ≤ i - 32 * w.val := by omega
      have hx : x.getLsbD (i - 32 * w.val) = false := BitVec.getLsbD_of_ge _ _ a4
      by_cases a1 : i < 256
      · simp [h2, a1, a2, a3, hx]
      · simp [h2, a1, a2, a3, hx, BitVec.getLsbD_of_ge v i (by omega)]
  · have a2 : i < 32 * w.val := by omega
    by_cases a1 : i < 256
    · simp [h1, a1, a2]
    · omega

@[simp] theorem wordOf_withWord_same (v : Word256) (w : Fin 8) (x : Word) : wordOf (withWord v w x) w = x := by
  apply BitVec.eq_of_getLsbD_eq
  intro i hi
  rw [getLsbD_wordOf, getLsbD_withWord, if_pos ⟨by omega, by omega⟩]
  simp [hi]

theorem wordOf_withWord_ne (v : Word256) (w u : Fin 8) (x : Word) (h : u ≠ w) : wordOf (withWord v w x) u = wordOf v u := by
  have hne : u.val ≠ w.val := fun e => h (Fin.ext e)
  apply BitVec.eq_of_getLsbD_eq
  intro i hi
  rw [getLsbD_wordOf, getLsbD_withWord, getLsbD_wordOf, if_neg (by omega)]

/-- A 256-bit value is its eight words. -/
theorem word256_ext (u v : Word256) (h : ∀ w : Fin 8, wordOf u w = wordOf v w) : u = v := by
  apply BitVec.eq_of_getLsbD_eq
  intro i hi
  have hw := congrArg (fun x => x.getLsbD (i % 32)) (h ⟨i / 32, by omega⟩)
  simp only [getLsbD_wordOf] at hw
  have hm : i % 32 < 32 := Nat.mod_lt _ (by decide)
  simpa [hm, Nat.div_add_mod] using hw

end Sys2Proof.Laws
end

