-- ==== Sys2Proof/Laws/Address.lean ====
section
/-! SUPPORT. Addresses: the lengths of what the hash collaborator answers (46_hash_collaborator.md), of the 25-byte buffer and
of an address string, and what a decoding answers (43_address.md R136, R137). -/

namespace Sys2Proof.Laws

open Sys2Proof Sys2Proof.Machine

/-! ### Lengths -/

/-- SHA-256 answers 32 bytes (R151). -/
@[simp] theorem sha256_length (m : List Byte) : (sha256 m).length = 32 := by
  simp [sha256, Sha.words, bytesBE]

/-- RIPEMD-160 answers 20 bytes (R152). -/
@[simp] theorem ripemd160_length (m : List Byte) : (ripemd160 m).length = 20 := by
  simp [ripemd160, Rmd.words, bytesLE]

@[simp] theorem hw_sha256 : hw.sha256 = sha256 := rfl
@[simp] theorem hw_ripemd160 : hw.ripemd160 = ripemd160 := rfl
@[simp] theorem hw_addrVerify : hw.addrVerify = true := rfl
@[simp] theorem hw_addrPad : hw.addrPad = .perZeroByte := rfl
@[simp] theorem hw_paddCoincident : hw.paddCoincident = .strict := rfl

@[simp] theorem serialise_length (x y : Nat) : (serialise x y).length = 65 := by simp [serialise]

@[simp] theorem checksum_length (b : List Byte) : (checksum hw b).length = 4 := by simp [checksum]

theorem addrBuffer_length (h : List Byte) (v : Byte) (hl : h.length = 20) : (addrBuffer hw h v).length = 25 := by
  simp [addrBuffer, hl]

theorem fhashpk_aff (x y : Nat) : fhashpk hw (.aff x y) = .ok (ripemd160 (sha256 (serialise x y))) := rfl

/-- The hash of a public key is 20 bytes, and its only fault is infinity. -/
theorem fhashpk_cases (P : Point) :
    (P = .inf ∧ fhashpk hw P = .error ⟨.infinityOperand, 0⟩) ∨
    (∃ h : List Byte, fhashpk hw P = .ok h ∧ h.length = 20 ∧ beInt h < 2 ^ 160) := by
  cases P with
  | inf => exact .inl ⟨rfl, rfl⟩
  | aff x y =>
    refine .inr ⟨_, fhashpk_aff x y, ripemd160_length _, ?_⟩
    have := beInt_lt_of_length (ripemd160 (sha256 (serialise x y))) 20 (ripemd160_length _)
    exact lt_of_lt_of_le this (by norm_num)

/-! ### The length of an address -/

/-- Leading zero bytes make the value small. -/
theorem beInt_lt_of_zeros (b : List Byte) :
    beInt b < 256 ^ (b.length - (b.takeWhile (fun x => x == 0)).length) := by
  induction b with
  | nil => simp
  | cons x b ih =>
    by_cases hx : x = 0
    · subst hx
      rw [beInt_cons]
      simp only [List.takeWhile_cons, beq_self_eq_true, if_true, List.length_cons]
      have h1 : (0 : Byte).toNat = 0 := rfl
      have h2 : b.length + 1 - ((b.takeWhile (fun x => x == 0)).length + 1) =
          b.length - (b.takeWhile (fun x => x == 0)).length := by omega
      rw [h1, h2, Nat.zero_mul, Nat.zero_add]
      exact ih
    · have hb : (x == 0) = false := by simpa using hx
      rw [List.takeWhile_cons, hb]
      simpa using beInt_lt (x :: b)

theorem prefixCount_le (buf : List Byte) : prefixCount .perZeroByte buf ≤ buf.length :=
  (List.takeWhile_prefix _).length_le

/-- An address has at most 35 characters (R125, R138). -/
theorem faddrenc_length_le (h : List Byte) (v c : Byte) (hl : h.length = 20) : (faddrenc hw h v c).length ≤ 35 := by
  have hb := addrBuffer_length h v hl
  have hz := beInt_lt_of_zeros (addrBuffer hw h v)
  have hp := prefixCount_le (addrBuffer hw h v)
  simp only [prefixCount] at hp
  simp only [faddrenc, hw_addrPad, prefixCount, List.length_append, List.length_replicate]
  rw [hb] at hz hp
  generalize (addrBuffer hw h v).takeWhile (fun b => b == 0) = z at *
  generalize beInt (addrBuffer hw h v) = n at *
  have hdig : ∀ k : Fin 26, (256 : Nat) ^ (25 - k.val) ≤ 58 ^ (35 - k.val) := by decide +kernel
  have := hdig ⟨z.length, by omega⟩
  have h2 : (b58enc n).length ≤ 35 - z.length := by
    rw [b58enc_length]
    exact digits_length_le (lt_of_lt_of_le hz this)
  omega

/-! ### Decoding an address (R137) -/

/-- What the last steps answer. -/
theorem addrPayload_cases (val : Nat) :
    (2 ^ 200 ≤ val ∧ addrPayload hw val = .error ⟨.addrRange, 0⟩) ∨
    (val < 2 ^ 200 ∧ checksum hw ((beBytes 25 val).take 21) ≠ (beBytes 25 val).drop 21 ∧
      addrPayload hw val = .error ⟨.checksumMismatch, 0⟩) ∨
    (val < 2 ^ 200 ∧ checksum hw ((beBytes 25 val).take 21) = (beBytes 25 val).drop 21 ∧
      addrPayload hw val = .ok (((beBytes 25 val).drop 1).take 20)) := by
  unfold addrPayload
  by_cases h1 : 2 ^ 200 ≤ val
  · exact .inl ⟨h1, if_pos h1⟩
  · rw [if_neg h1]
    by_cases h2 : checksum hw ((beBytes 25 val).take 21) = (beBytes 25 val).drop 21
    · refine .inr (.inr ⟨by omega, h2, ?_⟩)
      rw [if_neg (by simp [h2])]
    · refine .inr (.inl ⟨by omega, h2, ?_⟩)
      rw [if_pos ⟨rfl, h2⟩]

/-- A decoded hash is 20 bytes. -/
theorem addrPayload_length (val : Nat) (h : List Byte) (hh : addrPayload hw val = .ok h) : h.length = 20 := by
  rcases addrPayload_cases val with ⟨-, e⟩ | ⟨-, -, e⟩ | ⟨-, -, e⟩ <;> rw [e] at hh
  · exact nomatch hh
  · exact nomatch hh
  · rw [← Except.ok.inj hh]
    simp

/-- The payload of a buffer that `addrBuffer` built is its hash. -/
theorem addrPayload_addrBuffer (h : List Byte) (v : Byte) (hl : h.length = 20) :
    addrPayload hw (beInt (addrBuffer hw h v)) = .ok h := by
  have hb := addrBuffer_length h v hl
  have hbb : beBytes 25 (beInt (addrBuffer hw h v)) = addrBuffer hw h v := beBytes_of_beInt 25 _ hb
  have hlt : beInt (addrBuffer hw h v) < 2 ^ 200 :=
    lt_of_lt_of_le (beInt_lt_of_length _ 25 hb) (by norm_num)
  have ht : (addrBuffer hw h v).take 21 = v :: h := by
    rw [addrBuffer, List.take_append_of_le_length (by simp [hl]), List.take_of_length_le (by simp [hl])]
  have hd : (addrBuffer hw h v).drop 21 = checksum hw (v :: h) := by
    have h21 : (v :: h).length = 21 := by simp [hl]
    rw [addrBuffer, ← h21, List.drop_left]
  have hp : ((addrBuffer hw h v).drop 1).take 20 = h := by
    show (List.drop 1 (v :: (h ++ checksum hw (v :: h)))).take 20 = h
    rw [List.drop_succ_cons, List.drop_zero, ← hl, List.take_left]
  rcases addrPayload_cases (beInt (addrBuffer hw h v)) with ⟨e, -⟩ | ⟨-, e, -⟩ | ⟨-, -, e⟩
  · omega
  · rw [hbb, ht, hd] at e
    exact absurd rfl e
  · rw [e, hbb, hp]

/-- All prefix bytes in front are stripped. -/
theorem takeWhile_prefixBytes (m : Nat) (c : Byte) (body : List Byte) (hb : body.head? ≠ some c) :
    (List.replicate m c ++ body).takeWhile (fun b => b == c) = List.replicate m c := by
  induction m with
  | zero =>
    cases body with
    | nil => rfl
    | cons x body =>
      have : (x == c) = false := by simpa using hb
      simp [this]
  | succ m ih => simp [List.replicate_succ, ih]

/-- An address decoding is the decoding of what follows the prefix bytes. -/
theorem faddrdec_prefix (m : Nat) (c : Byte) (body : List Byte) (hb : body.head? ≠ some c) :
    faddrdec hw (List.replicate m c ++ body) c = (b58dec body m >>= fun v => addrPayload hw v) := by
  unfold faddrdec
  dsimp only
  rw [takeWhile_prefixBytes m c body hb, List.length_replicate]
  have h := List.drop_left (l₁ := List.replicate m c) (l₂ := body)
  rw [List.length_replicate] at h
  rw [h]

/-- A fault of an address decoding: a character of the string, at its index, or one of the two of the number. -/
theorem faddrdec_error (s : List Byte) (c : Byte) (f : Raised) (h : faddrdec hw s c = .error f) :
    (∃ k < s.length, f.info = BitVec.ofNat 32 k ∧ (f.kind = .invalidCharacter ∨ f.kind = .b58Overflow)) ∨
    (f.info = 0 ∧ (f.kind = .addrRange ∨ f.kind = .checksumMismatch)) := by
  unfold faddrdec at h
  dsimp only at h
  generalize hi : (s.takeWhile (fun b => b == c)).length = i at h
  have hle : i ≤ s.length := by rw [← hi]; exact (List.takeWhile_prefix _).length_le
  cases hd : b58dec (s.drop i) i with
  | error g =>
    rw [hd] at h
    cases h
    obtain ⟨k, hk, h1, h2⟩ := b58dec_error _ _ _ hd
    rw [List.length_drop] at hk
    exact .inl ⟨i + k, by omega, h1, h2⟩
  | ok v =>
    rw [hd] at h
    change addrPayload hw v = .error f at h
    right
    rcases addrPayload_cases v with ⟨-, e⟩ | ⟨-, -, e⟩ | ⟨-, -, e⟩ <;> rw [e] at h <;> cases h
    · exact ⟨rfl, .inl rfl⟩
    · exact ⟨rfl, .inr rfl⟩

theorem faddrdec_length (s : List Byte) (c : Byte) (h : List Byte) (hh : faddrdec hw s c = .ok h) : h.length = 20 := by
  unfold faddrdec at hh
  dsimp only at hh
  generalize (s.takeWhile (fun b => b == c)).length = i at hh
  cases hd : b58dec (s.drop i) i with
  | error g => rw [hd] at hh; cases hh
  | ok v =>
    rw [hd] at hh
    exact addrPayload_length v h hh

end Sys2Proof.Laws
end

