-- ==== Sys2Proof/Laws/State.lean ====
section
/-! SUPPORT. One lemma per field of State per named update, true by rfl, so that no proof unfolds a record update; and what
the register accessors read after a write. -/

namespace Sys2Proof.Laws

open Sys2Proof Sys2Proof.Machine

/-! ### `writeR` -/

@[simp] theorem writeR_r (s : State) (i : RegIx) (v : Nat) : (writeR s i v).r = s.r.set (intIx i) (BitVec.ofNat 256 v) (intIx i).isLt := rfl
@[simp] theorem writeR_p (s : State) (i : RegIx) (v : Nat) : (writeR s i v).p = s.p := rfl
@[simp] theorem writeR_str (s : State) (i : RegIx) (v : Nat) : (writeR s i v).str = s.str := rfl
@[simp] theorem writeR_slen (s : State) (i : RegIx) (v : Nat) : (writeR s i v).slen = s.slen := rfl
@[simp] theorem writeR_cmd (s : State) (i : RegIx) (v : Nat) : (writeR s i v).cmd = s.cmd := rfl
@[simp] theorem writeR_busy (s : State) (i : RegIx) (v : Nat) : (writeR s i v).busy = s.busy := rfl
@[simp] theorem writeR_done (s : State) (i : RegIx) (v : Nat) : (writeR s i v).done = s.done := rfl
@[simp] theorem writeR_fault (s : State) (i : RegIx) (v : Nat) : (writeR s i v).fault = s.fault := rfl
@[simp] theorem writeR_drop (s : State) (i : RegIx) (v : Nat) : (writeR s i v).drop = s.drop := rfl
@[simp] theorem writeR_t (s : State) (i : RegIx) (v : Nat) : (writeR s i v).t = s.t := rfl
@[simp] theorem writeR_endFlag (s : State) (i : RegIx) (v : Nat) : (writeR s i v).endFlag = s.endFlag := rfl
@[simp] theorem writeR_fcode (s : State) (i : RegIx) (v : Nat) : (writeR s i v).fcode = s.fcode := rfl
@[simp] theorem writeR_finfo (s : State) (i : RegIx) (v : Nat) : (writeR s i v).finfo = s.finfo := rfl
@[simp] theorem writeR_seqK (s : State) (i : RegIx) (v : Nat) : (writeR s i v).seqK = s.seqK := rfl
@[simp] theorem writeR_seqCnt (s : State) (i : RegIx) (v : Nat) : (writeR s i v).seqCnt = s.seqCnt := rfl
@[simp] theorem writeR_seqIdx (s : State) (i : RegIx) (v : Nat) : (writeR s i v).seqIdx = s.seqIdx := rfl
@[simp] theorem writeR_seqCur (s : State) (i : RegIx) (v : Nat) : (writeR s i v).seqCur = s.seqCur := rfl
@[simp] theorem writeR_inputs (s : State) (i : RegIx) (v : Nat) : (writeR s i v).inputs = s.inputs := rfl
@[simp] theorem writeR_answers (s : State) (i : RegIx) (v : Nat) : (writeR s i v).answers = s.answers := rfl

/-! ### `writeP` -/

@[simp] theorem writeP_r (s : State) (j : RegIx) (P : Point) : (writeP s j P).r = s.r := rfl
@[simp] theorem writeP_p (s : State) (j : RegIx) (P : Point) : (writeP s j P).p = s.p.set (pointIx j) P.toReg (pointIx j).isLt := rfl
@[simp] theorem writeP_str (s : State) (j : RegIx) (P : Point) : (writeP s j P).str = s.str := rfl
@[simp] theorem writeP_slen (s : State) (j : RegIx) (P : Point) : (writeP s j P).slen = s.slen := rfl
@[simp] theorem writeP_cmd (s : State) (j : RegIx) (P : Point) : (writeP s j P).cmd = s.cmd := rfl
@[simp] theorem writeP_busy (s : State) (j : RegIx) (P : Point) : (writeP s j P).busy = s.busy := rfl
@[simp] theorem writeP_done (s : State) (j : RegIx) (P : Point) : (writeP s j P).done = s.done := rfl
@[simp] theorem writeP_fault (s : State) (j : RegIx) (P : Point) : (writeP s j P).fault = s.fault := rfl
@[simp] theorem writeP_drop (s : State) (j : RegIx) (P : Point) : (writeP s j P).drop = s.drop := rfl
@[simp] theorem writeP_t (s : State) (j : RegIx) (P : Point) : (writeP s j P).t = s.t := rfl
@[simp] theorem writeP_endFlag (s : State) (j : RegIx) (P : Point) : (writeP s j P).endFlag = s.endFlag := rfl
@[simp] theorem writeP_fcode (s : State) (j : RegIx) (P : Point) : (writeP s j P).fcode = s.fcode := rfl
@[simp] theorem writeP_finfo (s : State) (j : RegIx) (P : Point) : (writeP s j P).finfo = s.finfo := rfl
@[simp] theorem writeP_seqK (s : State) (j : RegIx) (P : Point) : (writeP s j P).seqK = s.seqK := rfl
@[simp] theorem writeP_seqCnt (s : State) (j : RegIx) (P : Point) : (writeP s j P).seqCnt = s.seqCnt := rfl
@[simp] theorem writeP_seqIdx (s : State) (j : RegIx) (P : Point) : (writeP s j P).seqIdx = s.seqIdx := rfl
@[simp] theorem writeP_seqCur (s : State) (j : RegIx) (P : Point) : (writeP s j P).seqCur = s.seqCur := rfl
@[simp] theorem writeP_inputs (s : State) (j : RegIx) (P : Point) : (writeP s j P).inputs = s.inputs := rfl
@[simp] theorem writeP_answers (s : State) (j : RegIx) (P : Point) : (writeP s j P).answers = s.answers := rfl

/-! ### `writeString` -/

@[simp] theorem writeString_r (s : State) (b : List Byte) : (writeString s b).r = s.r := rfl
@[simp] theorem writeString_p (s : State) (b : List Byte) : (writeString s b).p = s.p := rfl
@[simp] theorem writeString_str (s : State) (b : List Byte) : (writeString s b).str = padTo64 b := rfl
@[simp] theorem writeString_slen (s : State) (b : List Byte) : (writeString s b).slen = BitVec.ofNat 7 b.length := rfl
@[simp] theorem writeString_cmd (s : State) (b : List Byte) : (writeString s b).cmd = s.cmd := rfl
@[simp] theorem writeString_busy (s : State) (b : List Byte) : (writeString s b).busy = s.busy := rfl
@[simp] theorem writeString_done (s : State) (b : List Byte) : (writeString s b).done = s.done := rfl
@[simp] theorem writeString_fault (s : State) (b : List Byte) : (writeString s b).fault = s.fault := rfl
@[simp] theorem writeString_drop (s : State) (b : List Byte) : (writeString s b).drop = s.drop := rfl
@[simp] theorem writeString_t (s : State) (b : List Byte) : (writeString s b).t = s.t := rfl
@[simp] theorem writeString_endFlag (s : State) (b : List Byte) : (writeString s b).endFlag = s.endFlag := rfl
@[simp] theorem writeString_fcode (s : State) (b : List Byte) : (writeString s b).fcode = s.fcode := rfl
@[simp] theorem writeString_finfo (s : State) (b : List Byte) : (writeString s b).finfo = s.finfo := rfl
@[simp] theorem writeString_seqK (s : State) (b : List Byte) : (writeString s b).seqK = s.seqK := rfl
@[simp] theorem writeString_seqCnt (s : State) (b : List Byte) : (writeString s b).seqCnt = s.seqCnt := rfl
@[simp] theorem writeString_seqIdx (s : State) (b : List Byte) : (writeString s b).seqIdx = s.seqIdx := rfl
@[simp] theorem writeString_seqCur (s : State) (b : List Byte) : (writeString s b).seqCur = s.seqCur := rfl
@[simp] theorem writeString_inputs (s : State) (b : List Byte) : (writeString s b).inputs = s.inputs := rfl
@[simp] theorem writeString_answers (s : State) (b : List Byte) : (writeString s b).answers = s.answers := rfl

/-! ### `writeT` -/

@[simp] theorem writeT_r (s : State) (b : Bool) : (writeT s b).r = s.r := rfl
@[simp] theorem writeT_p (s : State) (b : Bool) : (writeT s b).p = s.p := rfl
@[simp] theorem writeT_str (s : State) (b : Bool) : (writeT s b).str = s.str := rfl
@[simp] theorem writeT_slen (s : State) (b : Bool) : (writeT s b).slen = s.slen := rfl
@[simp] theorem writeT_cmd (s : State) (b : Bool) : (writeT s b).cmd = s.cmd := rfl
@[simp] theorem writeT_busy (s : State) (b : Bool) : (writeT s b).busy = s.busy := rfl
@[simp] theorem writeT_done (s : State) (b : Bool) : (writeT s b).done = s.done := rfl
@[simp] theorem writeT_fault (s : State) (b : Bool) : (writeT s b).fault = s.fault := rfl
@[simp] theorem writeT_drop (s : State) (b : Bool) : (writeT s b).drop = s.drop := rfl
@[simp] theorem writeT_t (s : State) (b : Bool) : (writeT s b).t = b := rfl
@[simp] theorem writeT_endFlag (s : State) (b : Bool) : (writeT s b).endFlag = s.endFlag := rfl
@[simp] theorem writeT_fcode (s : State) (b : Bool) : (writeT s b).fcode = s.fcode := rfl
@[simp] theorem writeT_finfo (s : State) (b : Bool) : (writeT s b).finfo = s.finfo := rfl
@[simp] theorem writeT_seqK (s : State) (b : Bool) : (writeT s b).seqK = s.seqK := rfl
@[simp] theorem writeT_seqCnt (s : State) (b : Bool) : (writeT s b).seqCnt = s.seqCnt := rfl
@[simp] theorem writeT_seqIdx (s : State) (b : Bool) : (writeT s b).seqIdx = s.seqIdx := rfl
@[simp] theorem writeT_seqCur (s : State) (b : Bool) : (writeT s b).seqCur = s.seqCur := rfl
@[simp] theorem writeT_inputs (s : State) (b : Bool) : (writeT s b).inputs = s.inputs := rfl
@[simp] theorem writeT_answers (s : State) (b : Bool) : (writeT s b).answers = s.answers := rfl

/-! ### `writeEnd` -/

@[simp] theorem writeEnd_r (s : State) (b : Bool) : (writeEnd s b).r = s.r := rfl
@[simp] theorem writeEnd_p (s : State) (b : Bool) : (writeEnd s b).p = s.p := rfl
@[simp] theorem writeEnd_str (s : State) (b : Bool) : (writeEnd s b).str = s.str := rfl
@[simp] theorem writeEnd_slen (s : State) (b : Bool) : (writeEnd s b).slen = s.slen := rfl
@[simp] theorem writeEnd_cmd (s : State) (b : Bool) : (writeEnd s b).cmd = s.cmd := rfl
@[simp] theorem writeEnd_busy (s : State) (b : Bool) : (writeEnd s b).busy = s.busy := rfl
@[simp] theorem writeEnd_done (s : State) (b : Bool) : (writeEnd s b).done = s.done := rfl
@[simp] theorem writeEnd_fault (s : State) (b : Bool) : (writeEnd s b).fault = s.fault := rfl
@[simp] theorem writeEnd_drop (s : State) (b : Bool) : (writeEnd s b).drop = s.drop := rfl
@[simp] theorem writeEnd_t (s : State) (b : Bool) : (writeEnd s b).t = s.t := rfl
@[simp] theorem writeEnd_endFlag (s : State) (b : Bool) : (writeEnd s b).endFlag = b := rfl
@[simp] theorem writeEnd_fcode (s : State) (b : Bool) : (writeEnd s b).fcode = s.fcode := rfl
@[simp] theorem writeEnd_finfo (s : State) (b : Bool) : (writeEnd s b).finfo = s.finfo := rfl
@[simp] theorem writeEnd_seqK (s : State) (b : Bool) : (writeEnd s b).seqK = s.seqK := rfl
@[simp] theorem writeEnd_seqCnt (s : State) (b : Bool) : (writeEnd s b).seqCnt = s.seqCnt := rfl
@[simp] theorem writeEnd_seqIdx (s : State) (b : Bool) : (writeEnd s b).seqIdx = s.seqIdx := rfl
@[simp] theorem writeEnd_seqCur (s : State) (b : Bool) : (writeEnd s b).seqCur = s.seqCur := rfl
@[simp] theorem writeEnd_inputs (s : State) (b : Bool) : (writeEnd s b).inputs = s.inputs := rfl
@[simp] theorem writeEnd_answers (s : State) (b : Bool) : (writeEnd s b).answers = s.answers := rfl

/-! ### `takeFault` -/

@[simp] theorem takeFault_r (s : State) (f : Raised) : (takeFault s f).r = s.r := rfl
@[simp] theorem takeFault_p (s : State) (f : Raised) : (takeFault s f).p = s.p := rfl
@[simp] theorem takeFault_str (s : State) (f : Raised) : (takeFault s f).str = s.str := rfl
@[simp] theorem takeFault_slen (s : State) (f : Raised) : (takeFault s f).slen = s.slen := rfl
@[simp] theorem takeFault_cmd (s : State) (f : Raised) : (takeFault s f).cmd = s.cmd := rfl
@[simp] theorem takeFault_busy (s : State) (f : Raised) : (takeFault s f).busy = false := rfl
@[simp] theorem takeFault_done (s : State) (f : Raised) : (takeFault s f).done = true := rfl
@[simp] theorem takeFault_fault (s : State) (f : Raised) : (takeFault s f).fault = true := rfl
@[simp] theorem takeFault_drop (s : State) (f : Raised) : (takeFault s f).drop = s.drop := rfl
@[simp] theorem takeFault_t (s : State) (f : Raised) : (takeFault s f).t = s.t := rfl
@[simp] theorem takeFault_endFlag (s : State) (f : Raised) : (takeFault s f).endFlag = s.endFlag := rfl
@[simp] theorem takeFault_fcode (s : State) (f : Raised) : (takeFault s f).fcode = f.kind.code := rfl
@[simp] theorem takeFault_finfo (s : State) (f : Raised) : (takeFault s f).finfo = f.info := rfl
@[simp] theorem takeFault_seqK (s : State) (f : Raised) : (takeFault s f).seqK = s.seqK := rfl
@[simp] theorem takeFault_seqCnt (s : State) (f : Raised) : (takeFault s f).seqCnt = s.seqCnt := rfl
@[simp] theorem takeFault_seqIdx (s : State) (f : Raised) : (takeFault s f).seqIdx = s.seqIdx := rfl
@[simp] theorem takeFault_seqCur (s : State) (f : Raised) : (takeFault s f).seqCur = s.seqCur := rfl
@[simp] theorem takeFault_inputs (s : State) (f : Raised) : (takeFault s f).inputs = s.inputs := rfl
@[simp] theorem takeFault_answers (s : State) (f : Raised) : (takeFault s f).answers = s.answers := rfl

/-! ### `faultReturn` -/

@[simp] theorem faultReturn_r (s : State) : (faultReturn s).r = s.r := rfl
@[simp] theorem faultReturn_p (s : State) : (faultReturn s).p = s.p := rfl
@[simp] theorem faultReturn_str (s : State) : (faultReturn s).str = s.str := rfl
@[simp] theorem faultReturn_slen (s : State) : (faultReturn s).slen = s.slen := rfl
@[simp] theorem faultReturn_cmd (s : State) : (faultReturn s).cmd = s.cmd := rfl
@[simp] theorem faultReturn_busy (s : State) : (faultReturn s).busy = s.busy := rfl
@[simp] theorem faultReturn_done (s : State) : (faultReturn s).done = s.done := rfl
@[simp] theorem faultReturn_fault (s : State) : (faultReturn s).fault = false := rfl
@[simp] theorem faultReturn_drop (s : State) : (faultReturn s).drop = false := rfl
@[simp] theorem faultReturn_t (s : State) : (faultReturn s).t = s.t := rfl
@[simp] theorem faultReturn_endFlag (s : State) : (faultReturn s).endFlag = s.endFlag := rfl
@[simp] theorem faultReturn_fcode (s : State) : (faultReturn s).fcode = 0 := rfl
@[simp] theorem faultReturn_finfo (s : State) : (faultReturn s).finfo = 0 := rfl
@[simp] theorem faultReturn_seqK (s : State) : (faultReturn s).seqK = s.seqK := rfl
@[simp] theorem faultReturn_seqCnt (s : State) : (faultReturn s).seqCnt = s.seqCnt := rfl
@[simp] theorem faultReturn_seqIdx (s : State) : (faultReturn s).seqIdx = s.seqIdx := rfl
@[simp] theorem faultReturn_seqCur (s : State) : (faultReturn s).seqCur = s.seqCur := rfl
@[simp] theorem faultReturn_inputs (s : State) : (faultReturn s).inputs = s.inputs := rfl
@[simp] theorem faultReturn_answers (s : State) : (faultReturn s).answers = s.answers := rfl

/-! ### `finish` -/

@[simp] theorem finish_r (s : State) : (finish s).r = s.r := rfl
@[simp] theorem finish_p (s : State) : (finish s).p = s.p := rfl
@[simp] theorem finish_str (s : State) : (finish s).str = s.str := rfl
@[simp] theorem finish_slen (s : State) : (finish s).slen = s.slen := rfl
@[simp] theorem finish_cmd (s : State) : (finish s).cmd = s.cmd := rfl
@[simp] theorem finish_busy (s : State) : (finish s).busy = false := rfl
@[simp] theorem finish_done (s : State) : (finish s).done = true := rfl
@[simp] theorem finish_fault (s : State) : (finish s).fault = s.fault := rfl
@[simp] theorem finish_drop (s : State) : (finish s).drop = s.drop := rfl
@[simp] theorem finish_t (s : State) : (finish s).t = s.t := rfl
@[simp] theorem finish_endFlag (s : State) : (finish s).endFlag = s.endFlag := rfl
@[simp] theorem finish_fcode (s : State) : (finish s).fcode = s.fcode := rfl
@[simp] theorem finish_finfo (s : State) : (finish s).finfo = s.finfo := rfl
@[simp] theorem finish_seqK (s : State) : (finish s).seqK = s.seqK := rfl
@[simp] theorem finish_seqCnt (s : State) : (finish s).seqCnt = s.seqCnt := rfl
@[simp] theorem finish_seqIdx (s : State) : (finish s).seqIdx = s.seqIdx := rfl
@[simp] theorem finish_seqCur (s : State) : (finish s).seqCur = s.seqCur := rfl
@[simp] theorem finish_inputs (s : State) : (finish s).inputs = s.inputs := rfl
@[simp] theorem finish_answers (s : State) : (finish s).answers = s.answers := rfl

/-! ### `setPointReg` -/

@[simp] theorem setPointReg_r (s : State) (j : Fin 4) (q : PointReg) : (setPointReg s j q).r = s.r := rfl
@[simp] theorem setPointReg_p (s : State) (j : Fin 4) (q : PointReg) : (setPointReg s j q).p = s.p.set j q j.isLt := rfl
@[simp] theorem setPointReg_str (s : State) (j : Fin 4) (q : PointReg) : (setPointReg s j q).str = s.str := rfl
@[simp] theorem setPointReg_slen (s : State) (j : Fin 4) (q : PointReg) : (setPointReg s j q).slen = s.slen := rfl
@[simp] theorem setPointReg_cmd (s : State) (j : Fin 4) (q : PointReg) : (setPointReg s j q).cmd = s.cmd := rfl
@[simp] theorem setPointReg_busy (s : State) (j : Fin 4) (q : PointReg) : (setPointReg s j q).busy = s.busy := rfl
@[simp] theorem setPointReg_done (s : State) (j : Fin 4) (q : PointReg) : (setPointReg s j q).done = s.done := rfl
@[simp] theorem setPointReg_fault (s : State) (j : Fin 4) (q : PointReg) : (setPointReg s j q).fault = s.fault := rfl
@[simp] theorem setPointReg_drop (s : State) (j : Fin 4) (q : PointReg) : (setPointReg s j q).drop = s.drop := rfl
@[simp] theorem setPointReg_t (s : State) (j : Fin 4) (q : PointReg) : (setPointReg s j q).t = s.t := rfl
@[simp] theorem setPointReg_endFlag (s : State) (j : Fin 4) (q : PointReg) : (setPointReg s j q).endFlag = s.endFlag := rfl
@[simp] theorem setPointReg_fcode (s : State) (j : Fin 4) (q : PointReg) : (setPointReg s j q).fcode = s.fcode := rfl
@[simp] theorem setPointReg_finfo (s : State) (j : Fin 4) (q : PointReg) : (setPointReg s j q).finfo = s.finfo := rfl
@[simp] theorem setPointReg_seqK (s : State) (j : Fin 4) (q : PointReg) : (setPointReg s j q).seqK = s.seqK := rfl
@[simp] theorem setPointReg_seqCnt (s : State) (j : Fin 4) (q : PointReg) : (setPointReg s j q).seqCnt = s.seqCnt := rfl
@[simp] theorem setPointReg_seqIdx (s : State) (j : Fin 4) (q : PointReg) : (setPointReg s j q).seqIdx = s.seqIdx := rfl
@[simp] theorem setPointReg_seqCur (s : State) (j : Fin 4) (q : PointReg) : (setPointReg s j q).seqCur = s.seqCur := rfl
@[simp] theorem setPointReg_inputs (s : State) (j : Fin 4) (q : PointReg) : (setPointReg s j q).inputs = s.inputs := rfl
@[simp] theorem setPointReg_answers (s : State) (j : Fin 4) (q : PointReg) : (setPointReg s j q).answers = s.answers := rfl

/-! ### `writePinf` -/

@[simp] theorem writePinf_r (s : State) (w : Word) : (writePinf s w).r = s.r := rfl
@[simp] theorem writePinf_str (s : State) (w : Word) : (writePinf s w).str = s.str := rfl
@[simp] theorem writePinf_slen (s : State) (w : Word) : (writePinf s w).slen = s.slen := rfl
@[simp] theorem writePinf_cmd (s : State) (w : Word) : (writePinf s w).cmd = s.cmd := rfl
@[simp] theorem writePinf_busy (s : State) (w : Word) : (writePinf s w).busy = s.busy := rfl
@[simp] theorem writePinf_done (s : State) (w : Word) : (writePinf s w).done = s.done := rfl
@[simp] theorem writePinf_fault (s : State) (w : Word) : (writePinf s w).fault = s.fault := rfl
@[simp] theorem writePinf_drop (s : State) (w : Word) : (writePinf s w).drop = s.drop := rfl
@[simp] theorem writePinf_t (s : State) (w : Word) : (writePinf s w).t = s.t := rfl
@[simp] theorem writePinf_endFlag (s : State) (w : Word) : (writePinf s w).endFlag = s.endFlag := rfl
@[simp] theorem writePinf_fcode (s : State) (w : Word) : (writePinf s w).fcode = s.fcode := rfl
@[simp] theorem writePinf_finfo (s : State) (w : Word) : (writePinf s w).finfo = s.finfo := rfl
@[simp] theorem writePinf_seqK (s : State) (w : Word) : (writePinf s w).seqK = s.seqK := rfl
@[simp] theorem writePinf_seqCnt (s : State) (w : Word) : (writePinf s w).seqCnt = s.seqCnt := rfl
@[simp] theorem writePinf_seqIdx (s : State) (w : Word) : (writePinf s w).seqIdx = s.seqIdx := rfl
@[simp] theorem writePinf_seqCur (s : State) (w : Word) : (writePinf s w).seqCur = s.seqCur := rfl
@[simp] theorem writePinf_inputs (s : State) (w : Word) : (writePinf s w).inputs = s.inputs := rfl
@[simp] theorem writePinf_answers (s : State) (w : Word) : (writePinf s w).answers = s.answers := rfl

/-! ### `writeStringWord` -/

@[simp] theorem writeStringWord_r (s : State) (k : Fin 16) (w : Word) : (writeStringWord s k w).r = s.r := rfl
@[simp] theorem writeStringWord_p (s : State) (k : Fin 16) (w : Word) : (writeStringWord s k w).p = s.p := rfl
@[simp] theorem writeStringWord_slen (s : State) (k : Fin 16) (w : Word) : (writeStringWord s k w).slen = s.slen := rfl
@[simp] theorem writeStringWord_cmd (s : State) (k : Fin 16) (w : Word) : (writeStringWord s k w).cmd = s.cmd := rfl
@[simp] theorem writeStringWord_busy (s : State) (k : Fin 16) (w : Word) : (writeStringWord s k w).busy = s.busy := rfl
@[simp] theorem writeStringWord_done (s : State) (k : Fin 16) (w : Word) : (writeStringWord s k w).done = s.done := rfl
@[simp] theorem writeStringWord_fault (s : State) (k : Fin 16) (w : Word) : (writeStringWord s k w).fault = s.fault := rfl
@[simp] theorem writeStringWord_drop (s : State) (k : Fin 16) (w : Word) : (writeStringWord s k w).drop = s.drop := rfl
@[simp] theorem writeStringWord_t (s : State) (k : Fin 16) (w : Word) : (writeStringWord s k w).t = s.t := rfl
@[simp] theorem writeStringWord_endFlag (s : State) (k : Fin 16) (w : Word) : (writeStringWord s k w).endFlag = s.endFlag := rfl
@[simp] theorem writeStringWord_fcode (s : State) (k : Fin 16) (w : Word) : (writeStringWord s k w).fcode = s.fcode := rfl
@[simp] theorem writeStringWord_finfo (s : State) (k : Fin 16) (w : Word) : (writeStringWord s k w).finfo = s.finfo := rfl
@[simp] theorem writeStringWord_seqK (s : State) (k : Fin 16) (w : Word) : (writeStringWord s k w).seqK = s.seqK := rfl
@[simp] theorem writeStringWord_seqCnt (s : State) (k : Fin 16) (w : Word) : (writeStringWord s k w).seqCnt = s.seqCnt := rfl
@[simp] theorem writeStringWord_seqIdx (s : State) (k : Fin 16) (w : Word) : (writeStringWord s k w).seqIdx = s.seqIdx := rfl
@[simp] theorem writeStringWord_seqCur (s : State) (k : Fin 16) (w : Word) : (writeStringWord s k w).seqCur = s.seqCur := rfl
@[simp] theorem writeStringWord_inputs (s : State) (k : Fin 16) (w : Word) : (writeStringWord s k w).inputs = s.inputs := rfl
@[simp] theorem writeStringWord_answers (s : State) (k : Fin 16) (w : Word) : (writeStringWord s k w).answers = s.answers := rfl

/-! ### `readEvent` -/

@[simp] theorem readEvent_r (s : State) (a : PortAddr) : (readEvent s a).r = s.r := rfl
@[simp] theorem readEvent_p (s : State) (a : PortAddr) : (readEvent s a).p = s.p := rfl
@[simp] theorem readEvent_str (s : State) (a : PortAddr) : (readEvent s a).str = s.str := rfl
@[simp] theorem readEvent_slen (s : State) (a : PortAddr) : (readEvent s a).slen = s.slen := rfl
@[simp] theorem readEvent_cmd (s : State) (a : PortAddr) : (readEvent s a).cmd = s.cmd := rfl
@[simp] theorem readEvent_busy (s : State) (a : PortAddr) : (readEvent s a).busy = s.busy := rfl
@[simp] theorem readEvent_done (s : State) (a : PortAddr) : (readEvent s a).done = s.done := rfl
@[simp] theorem readEvent_fault (s : State) (a : PortAddr) : (readEvent s a).fault = s.fault := rfl
@[simp] theorem readEvent_drop (s : State) (a : PortAddr) : (readEvent s a).drop = s.drop := rfl
@[simp] theorem readEvent_t (s : State) (a : PortAddr) : (readEvent s a).t = s.t := rfl
@[simp] theorem readEvent_endFlag (s : State) (a : PortAddr) : (readEvent s a).endFlag = s.endFlag := rfl
@[simp] theorem readEvent_fcode (s : State) (a : PortAddr) : (readEvent s a).fcode = s.fcode := rfl
@[simp] theorem readEvent_finfo (s : State) (a : PortAddr) : (readEvent s a).finfo = s.finfo := rfl
@[simp] theorem readEvent_seqK (s : State) (a : PortAddr) : (readEvent s a).seqK = s.seqK := rfl
@[simp] theorem readEvent_seqCnt (s : State) (a : PortAddr) : (readEvent s a).seqCnt = s.seqCnt := rfl
@[simp] theorem readEvent_seqIdx (s : State) (a : PortAddr) : (readEvent s a).seqIdx = s.seqIdx := rfl
@[simp] theorem readEvent_seqCur (s : State) (a : PortAddr) : (readEvent s a).seqCur = s.seqCur := rfl
@[simp] theorem readEvent_inputs (s : State) (a : PortAddr) : (readEvent s a).inputs = s.inputs := rfl
@[simp] theorem readEvent_answers (s : State) (a : PortAddr) : (readEvent s a).answers = s.answers ++ [hostRead s a] := rfl
/-! ### Reads after writes -/

@[simp] theorem readR_finish (s : State) (i : RegIx) : readR (finish s) i = readR s i := rfl
@[simp] theorem readP_finish (s : State) (j : RegIx) : readP (finish s) j = readP s j := rfl
@[simp] theorem readString_finish (s : State) : readString (finish s) = readString s := rfl
@[simp] theorem rdstring_finish (s : State) : rdstring (finish s) = rdstring s := rfl
@[simp] theorem readR_takeFault (s : State) (f : Raised) (i : RegIx) : readR (takeFault s f) i = readR s i := rfl
@[simp] theorem readP_takeFault (s : State) (f : Raised) (j : RegIx) : readP (takeFault s f) j = readP s j := rfl
@[simp] theorem readR_writeP (s : State) (j i : RegIx) (P : Point) : readR (writeP s j P) i = readR s i := rfl
@[simp] theorem readP_writeR (s : State) (i j : RegIx) (v : Nat) : readP (writeR s i v) j = readP s j := rfl
@[simp] theorem readR_writeString (s : State) (b : List Byte) (i : RegIx) : readR (writeString s b) i = readR s i := rfl
@[simp] theorem readP_writeString (s : State) (b : List Byte) (j : RegIx) : readP (writeString s b) j = readP s j := rfl

@[simp] theorem readR_writeR_same (s : State) (i : RegIx) (v : Nat) : readR (writeR s i v) i = BitVec.ofNat 256 v := by
  simp [readR]

theorem writeR_get_ne (s : State) (i : RegIx) (v : Nat) (k : Fin 8) (h : k ≠ intIx i) :
    (writeR s i v).r[k] = s.r[k] := by
  have h' : (intIx i).val ≠ k.val := fun e => h (Fin.ext e.symm)
  simp only [writeR_r, Fin.getElem_fin]
  exact Vector.getElem_set_ne (intIx i).isLt k.isLt h'

@[simp] theorem readP_writeP_same (s : State) (j : RegIx) (P : Point) : readP (writeP s j P) j = P.toReg := by
  simp [readP]

theorem writeP_get_ne (s : State) (j : RegIx) (P : Point) (k : Fin 4) (h : k ≠ pointIx j) :
    (writeP s j P).p[k] = s.p[k] := by
  have h' : (pointIx j).val ≠ k.val := fun e => h (Fin.ext e.symm)
  simp only [writeP_p, Fin.getElem_fin]
  exact Vector.getElem_set_ne (pointIx j).isLt k.isLt h'

/-- An index that is in range names its own register (R72). -/
theorem intIx_val (i : RegIx) (h : isIntIx i = true) : (intIx i).val = i.toNat := by
  simp only [isIntIx, decide_eq_true_eq, BitVec.lt_def] at h
  exact Nat.mod_eq_of_lt h

theorem pointIx_val (j : RegIx) (h : isPointIx j = true) : (pointIx j).val = j.toNat := by
  simp only [isPointIx, decide_eq_true_eq, BitVec.lt_def] at h
  exact Nat.mod_eq_of_lt h

/-- A written string of at most 64 bytes reads back (R35). -/
theorem readString_writeString (s : State) (b : List Byte) (h : b.length ≤ 64) : readString (writeString s b) = b := by
  have hl : (BitVec.ofNat 7 b.length).toNat = b.length := by
    rw [BitVec.toNat_ofNat]; exact Nat.mod_eq_of_lt (by omega)
  unfold readString
  rw [writeString_slen, writeString_str, hl]
  simp [padTo64, List.take_take, h]

theorem rdstring_writeString (s : State) (b : List Byte) (h : b.length ≤ 64) : rdstring (writeString s b) = .ok b := by
  have hl : (writeString s b).slen.toNat = b.length := by
    rw [writeString_slen, BitVec.toNat_ofNat]; exact Nat.mod_eq_of_lt (by omega)
  unfold rdstring
  rw [if_neg (by omega), readString_writeString s b h]

theorem padTo64_get (b : List Byte) (i : Fin 64) : (padTo64 b)[i] = b.getD i.val 0 := by
  have hi : i.val < (b ++ List.replicate 64 (0#8)).length := by
    rw [List.length_append, List.length_replicate]; omega
  have h1 : (padTo64 b)[i] = (b ++ List.replicate 64 (0#8))[i.val] := List.getElem_take
  rw [h1]
  by_cases h : i.val < b.length
  · rw [List.getElem_append_left h, List.getD_eq_getElem _ _ h]
  · rw [List.getElem_append_right (by omega), List.getElem_replicate, List.getD_eq_default _ _ (by omega)]
    rfl

/-- Byte i of the buffer after a string is written: the string's, and 0 at and beyond its length (R35). -/
theorem writeString_get (s : State) (b : List Byte) (i : Fin 64) : (writeString s b).str[i] = b.getD i.val 0 :=
  padTo64_get b i

/-! ### Point values (R23) -/

@[simp] theorem toReg_inf : Point.inf.toReg = ⟨true, 0, 0⟩ := rfl

@[simp] theorem point_inf (x y : Word256) : (⟨true, x, y⟩ : PointReg).point = .inf := rfl

@[simp] theorem point_fin (x y : Word256) : (⟨false, x, y⟩ : PointReg).point = .aff x.toNat y.toNat := rfl

/-- A point value whose coordinates fit is read back as it was written. -/
theorem point_toReg_aff (x y : Nat) (hx : x < 2 ^ 256) (hy : y < 2 ^ 256) : (Point.aff x y).toReg.point = .aff x y := by
  show Point.aff (BitVec.ofNat 256 x).toNat (BitVec.ofNat 256 y).toNat = _
  rw [BitVec.toNat_ofNat, BitVec.toNat_ofNat, Nat.mod_eq_of_lt hx, Nat.mod_eq_of_lt hy]

/-- Everything `rdpoint` can do (R101). -/
theorem checked_cases (q : PointReg) :
    (q.inf = true ∧ q.checked = .ok .inf) ∨
    (q.inf = false ∧ (M ≤ q.x.toNat ∨ M ≤ q.y.toNat) ∧ q.checked = .error ⟨.operandRange, 0⟩) ∨
    (q.inf = false ∧ q.x.toNat < M ∧ q.y.toNat < M ∧ q.checked = .ok (.aff q.x.toNat q.y.toNat)) := by
  unfold PointReg.checked
  cases q.inf
  · by_cases h : M ≤ q.x.toNat ∨ M ≤ q.y.toNat
    · exact .inr (.inl ⟨rfl, h, by simp [h]⟩)
    · exact .inr (.inr ⟨rfl, by omega, by omega, by simp [h]⟩)
  · exact .inl ⟨rfl, rfl⟩

end Sys2Proof.Laws
end

