-- ==== Sys2Proof/Laws/Field.lean ====
section
/-! SUPPORT. What the field functions are (40_field.md): ranges, their reading in ZMod M, the extended Euclidean
algorithm, the power. One lemma per function; later proofs cite these and do not unfold. -/

namespace Sys2Proof.Laws

open Sys2Proof Sys2Proof.Machine

theorem M_pos : 0 < M := by decide
theorem M_gt_one : 1 < M := by decide
theorem M_lt : M < 2 ^ 256 := by decide +kernel

theorem M_fact : Fact (Nat.Prime M) := ⟨M_prime⟩

/-! ### The primitives (R90) -/

theorem addm_lt (u w : Nat) : addm u w < M := Nat.mod_lt _ M_pos
theorem mulm_lt (u w : Nat) : mulm u w < M := Nat.mod_lt _ M_pos

theorem subm_cast_int (u w : Nat) : ((subm u w : Nat) : Int) = ((u : Int) - w) % (M : Int) :=
  Int.toNat_of_nonneg (Int.emod_nonneg _ (by exact_mod_cast M_pos.ne'))

theorem subm_lt (u w : Nat) : subm u w < M := by
  have h : ((u : Int) - w) % (M : Int) < M := Int.emod_lt_of_pos _ (by exact_mod_cast M_pos)
  rw [← subm_cast_int] at h
  exact_mod_cast h

theorem cast_mod_M (u : Nat) : ((u % M : Nat) : ZMod M) = (u : ZMod M) := ZMod.natCast_mod u M

@[simp] theorem addm_cast (u w : Nat) : ((addm u w : Nat) : ZMod M) = (u : ZMod M) + w := by
  rw [addm, cast_mod_M, Nat.cast_add]

@[simp] theorem mulm_cast (u w : Nat) : ((mulm u w : Nat) : ZMod M) = (u : ZMod M) * w := by
  rw [mulm, cast_mod_M, Nat.cast_mul]

@[simp] theorem subm_cast (u w : Nat) : ((subm u w : Nat) : ZMod M) = (u : ZMod M) - w := by
  have h : (((subm u w : Nat) : Int) : ZMod M) = (((u : Int) - w : Int) : ZMod M) := by
    rw [subm_cast_int, ZMod.intCast_mod]
  simpa using h

/-- Two numbers below M are equal when their residues are. -/
theorem eq_of_cast_eq {u w : Nat} (hu : u < M) (hw : w < M) (h : (u : ZMod M) = (w : ZMod M)) : u = w := by
  have := (ZMod.natCast_eq_natCast_iff' u w M).1 h
  rwa [Nat.mod_eq_of_lt hu, Nat.mod_eq_of_lt hw] at this

theorem cast_eq_iff (u w : Nat) : (u : ZMod M) = (w : ZMod M) ↔ u % M = w % M := ZMod.natCast_eq_natCast_iff' u w M

theorem cast_eq_zero_iff (u : Nat) : (u : ZMod M) = 0 ↔ u % M = 0 := by
  have := cast_eq_iff u 0
  simpa using this

theorem subm_eq_zero_iff (u w : Nat) : subm u w = 0 ↔ u % M = w % M := by
  have h := cast_eq_zero_iff (subm u w)
  rw [subm_cast, sub_eq_zero, cast_eq_iff, Nat.mod_eq_of_lt (subm_lt u w)] at h
  exact h.symm

/-! ### The extended Euclidean algorithm (R92) -/

/-- The loop answers the gcd, and keeps `t0 · x ≡ r0 (mod M)`. -/
theorem euclid_spec (x : ZMod M) (fuel : Nat) : ∀ (r0 r1 : Nat) (t0 t1 : Int), r1 < fuel →
    (t0 : ZMod M) * x = (r0 : ZMod M) → (t1 : ZMod M) * x = (r1 : ZMod M) →
    (euclid fuel r0 r1 t0 t1).1 = Nat.gcd r0 r1 ∧
    ((euclid fuel r0 r1 t0 t1).2 : ZMod M) * x = (Nat.gcd r0 r1 : ZMod M) := by
  induction fuel with
  | zero => intro r0 r1 t0 t1 h; omega
  | succ n ih =>
    intro r0 r1 t0 t1 h h0 h1
    unfold euclid
    split
    · rename_i hz
      subst hz
      exact ⟨(Nat.gcd_zero_right r0).symm, by rw [Nat.gcd_zero_right]; exact h0⟩
    · rename_i hz
      have hle : r0 / r1 * r1 ≤ r0 := Nat.div_mul_le_self r0 r1
      have hmod : r0 - r0 / r1 * r1 = r0 % r1 := by
        have := Nat.div_add_mod r0 r1
        rw [mul_comm] at this
        omega
      have hg : Nat.gcd r1 (r0 - r0 / r1 * r1) = Nat.gcd r0 r1 := by
        rw [hmod, Nat.gcd_comm r1, ← Nat.gcd_rec, Nat.gcd_comm]
      rw [← hg]
      refine ih r1 _ t1 _ ?_ h1 ?_
      · rw [hmod]
        have := Nat.mod_lt r0 (Nat.pos_of_ne_zero hz)
        omega
      · rw [Nat.cast_sub hle, Int.cast_sub, Int.cast_mul, Int.cast_natCast, sub_mul, h0, mul_assoc, h1, Nat.cast_mul]

/-- `finv(u)` for u ≢ 0: the one inverse in [1, M−1] (R92). -/
theorem finv_ok (u : Nat) (h : u % M ≠ 0) :
    ∃ v, finv u = .ok v ∧ 1 ≤ v ∧ v < M ∧ (v * u) % M = 1 := by
  have hM0 : (0 : Int) < (M : Int) := by exact_mod_cast M_pos
  obtain ⟨hg, ht⟩ := euclid_spec ((u % M : Nat) : ZMod M) (u % M + 1) M (u % M) 0 1 (by omega)
    (by simp) (by simp)
  have hcop : Nat.gcd M (u % M) = 1 :=
    Nat.coprime_of_lt_prime h (Nat.mod_lt u M_pos) M_prime
  rw [hcop] at hg ht
  refine ⟨((euclid (u % M + 1) M (u % M) 0 1).2 % (M : Int)).toNat, ?_, ?_⟩
  · show (if (euclid (u % M + 1) M (u % M) 0 1).1 ≠ 1 then _ else _) = _
    rw [if_neg (by rw [hg]; simp)]
  generalize (euclid (u % M + 1) M (u % M) 0 1).2 = t at ht
  have hc : (((t % (M : Int)).toNat : Nat) : Int) = t % (M : Int) := Int.toNat_of_nonneg (Int.emod_nonneg _ hM0.ne')
  have hz : (((t % (M : Int)).toNat : Nat) : ZMod M) = (t : ZMod M) := by
    have h1 : ((((t % (M : Int)).toNat : Nat) : Int) : ZMod M) = (t : ZMod M) := by rw [hc, ZMod.intCast_mod]
    rwa [Int.cast_natCast] at h1
  have hlt : (t % (M : Int)).toNat < M := by
    have := Int.emod_lt_of_pos t hM0
    omega
  have hmul : ((t % (M : Int)).toNat * u) % M = 1 := by
    have h1 : ((((t % (M : Int)).toNat * u : Nat)) : ZMod M) = ((1 : Nat) : ZMod M) := by
      rw [Nat.cast_mul, hz, ← cast_mod_M u, ht]
    rw [cast_eq_iff] at h1
    rwa [Nat.mod_eq_of_lt M_gt_one] at h1
  refine ⟨Nat.one_le_iff_ne_zero.2 fun h0 => ?_, hlt, hmul⟩
  rw [h0, Nat.zero_mul, Nat.zero_mod] at hmul
  exact absurd hmul (by decide)

/-- `finv(u)` for u ≡ 0: `NoInverse` (R92, R165). -/
theorem finv_error (u : Nat) (h : u % M = 0) : finv u = .error ⟨.noInverse, 0⟩ := by
  unfold finv
  simp only [h, euclid, if_true]
  rw [if_pos (by decide)]

/-- Everything `finv` can do. -/
theorem finv_cases (u : Nat) :
    (u % M = 0 ∧ finv u = .error ⟨.noInverse, 0⟩) ∨
    (u % M ≠ 0 ∧ ∃ v, finv u = .ok v ∧ 1 ≤ v ∧ v < M ∧ (v * u) % M = 1) := by
  by_cases h : u % M = 0
  · exact .inl ⟨h, finv_error u h⟩
  · exact .inr ⟨h, finv_ok u h⟩

/-! ### The power (R94) -/

theorem fpowLoop_eq (fuel : Nat) : ∀ e res s, e ≤ fuel → res < M →
    fpowLoop fuel e res s = (res * s ^ e) % M := by
  induction fuel with
  | zero =>
    intro e res s he hr
    obtain rfl : e = 0 := by omega
    simp [fpowLoop, Nat.mod_eq_of_lt hr]
  | succ n ih =>
    intro e res s he hr
    unfold fpowLoop
    split
    · rename_i h0
      simp [h0, Nat.mod_eq_of_lt hr]
    · rename_i h0
      have hs : (((mulm s s : Nat) ^ (e / 2) : Nat) : ZMod M) = ((s ^ (2 * (e / 2)) : Nat) : ZMod M) := by
        push_cast
        rw [mulm_cast, pow_mul, pow_two]
      split
      · rename_i h1
        rw [ih _ _ _ (by omega) (mulm_lt _ _), ← cast_eq_iff]
        conv_rhs => rw [← Nat.div_add_mod e 2, h1]
        rw [Nat.cast_mul, hs, mulm_cast]
        push_cast
        ring
      · rename_i h1
        rw [ih _ _ _ (by omega) hr, ← cast_eq_iff]
        conv_rhs => rw [← Nat.div_add_mod e 2, show e % 2 = 0 by omega]
        rw [Nat.cast_mul, hs]
        push_cast
        ring

/-- `fpow(u, e) = u^e mod M`, and 1 for e = 0 (R94). -/
theorem fpow_eq (u e : Nat) : fpow u e = u ^ e % M := by
  rw [fpow, fpowLoop_eq _ _ _ _ (le_refl e) M_gt_one, one_mul, ← Nat.pow_mod]

end Sys2Proof.Laws
end

