-- ==== Sys2Proof/Laws/Curve.lean ====
section
/-! SUPPORT. What doubling, addition and scalar multiplication do (41_curve.md), said once: the slope equations in
residues, the total cases of each function, and the loop of `fsmul` unfolded from its highest bit. -/

namespace Sys2Proof.Laws

open Sys2Proof Sys2Proof.Machine

@[simp] theorem except_bind_ok {ε α β : Type} (a : α) (f : α → Except ε β) : ((Except.ok a : Except ε α) >>= f) = f a := rfl
@[simp] theorem except_bind_error {ε α β : Type} (e : ε) (f : α → Except ε β) :
    ((Except.error e : Except ε α) >>= f) = .error e := rfl
@[simp] theorem except_pure {ε α : Type} (a : α) : (pure a : Except ε α) = .ok a := rfl

/-- What is bound answers only through an answer of the first part. -/
theorem bind_eq_ok {ε α β : Type} {x : Except ε α} {f : α → Except ε β} {r : β} :
    (x >>= f) = .ok r ↔ ∃ a, x = .ok a ∧ f a = .ok r := by
  cases x <;> simp

theorem bind_eq_error {ε α β : Type} {x : Except ε α} {f : α → Except ε β} {e : ε} :
    (x >>= f) = .error e ↔ x = .error e ∨ ∃ a, x = .ok a ∧ f a = .error e := by
  cases x <;> simp

/-! ### The line through two points -/

/-- The new coordinates of `fdouble` and `fadd`, as the equations of the line. -/
theorem lineGives_of (l x1 y1 x2 w : Nat) (hw : (w : ZMod M) = x1 + x2) :
    LineGives l x1 y1 x2 (subm (mulm l l) w) (subm (mulm l (subm x1 (subm (mulm l l) w))) y1) := by
  refine ⟨subm_lt _ _, subm_lt _ _, ?_, ?_⟩ <;> rw [← cast_eq_iff] <;> push_cast <;> simp [hw]
  all_goals ring

/-- `fdouble` of a finite point with y ≢ 0: the tangent (R109). It raises nothing, M being an odd prime. -/
theorem fdouble_tangent (x y : Nat) (h0 : y ≠ 0) (hy : y < M) :
    ∃ l x' y', fdouble (.aff x y) = .ok (.aff x' y') ∧ l < M ∧ (l * (2 * y)) % M = (3 * (x * x)) % M ∧
      LineGives l x y x x' y' := by
  have hne : mulm 2 y % M ≠ 0 := by
    rw [Ne, ← cast_eq_zero_iff, mulm_cast]
    have : ¬ M ∣ 2 * y := fun hd => by
      rcases (Nat.Prime.dvd_mul M_prime).1 hd with h | h
      · exact absurd (Nat.le_of_dvd (by decide) h) (by decide)
      · exact h0 (Nat.eq_zero_of_dvd_of_lt h hy)
    rwa [← Nat.cast_mul, ZMod.natCast_eq_zero_iff]
  obtain ⟨v, hv, -, -, hmul⟩ := finv_ok _ hne
  refine ⟨mulm (mulm 3 (mulm x x)) v, _, _, ?_, mulm_lt _ _, ?_, lineGives_of _ x y x (mulm 2 x) ?_⟩
  · simp only [fdouble, if_neg h0, hv, except_bind_ok, except_pure]
  · rw [← cast_eq_iff]
    have hone : (v : ZMod M) * (2 * y) = 1 := by
      have h1 : ((v * mulm 2 y : Nat) : ZMod M) = ((1 : Nat) : ZMod M) := by
        rw [cast_eq_iff, hmul, Nat.mod_eq_of_lt M_gt_one]
      simpa using h1
    push_cast
    simp only [mulm_cast]
    push_cast
    linear_combination (3 * (x : ZMod M) * x) * hone
  · simp only [mulm_cast]
    push_cast
    ring

/-- Everything `fdouble` can do on coordinates in range. -/
theorem fdouble_total (P : Point) (hP : ∀ x y, P = .aff x y → x < M ∧ y < M) :
    ∃ R, fdouble P = .ok R ∧ ∀ x y, R = .aff x y → x < M ∧ y < M := by
  match P with
  | .inf => exact ⟨.inf, rfl, by simp⟩
  | .aff x y =>
    by_cases h : y = 0
    · exact ⟨.inf, by simp [fdouble, h], by simp⟩
    · obtain ⟨l, x', y', h1, -, -, h2⟩ := fdouble_tangent x y h (hP x y rfl).2
      exact ⟨_, h1, by rintro _ _ ⟨⟩; exact ⟨h2.1, h2.2.1⟩⟩

/-- `fadd` of finite points with different x: the chord (R110). It raises nothing, M being prime. -/
theorem fadd_chord (cfg : Config) (x1 y1 x2 y2 : Nat) (h : x1 % M ≠ x2 % M) :
    ∃ l x' y', fadd cfg (.aff x1 y1) (.aff x2 y2) = .ok (.aff x' y') ∧ l < M ∧
      (l * x1 + y2) % M = (l * x2 + y1) % M ∧ LineGives l x1 y1 x2 x' y' := by
  have hne : subm x1 x2 % M ≠ 0 := by
    rw [Nat.mod_eq_of_lt (subm_lt _ _)]
    exact fun h0 => h ((subm_eq_zero_iff _ _).1 h0)
  obtain ⟨v, hv, -, -, hmul⟩ := finv_ok _ hne
  refine ⟨mulm (subm y1 y2) v, _, _, ?_, mulm_lt _ _, ?_, lineGives_of _ x1 y1 x2 (addm x1 x2) (addm_cast _ _)⟩
  · have hx : x1 ≠ x2 := fun e => h (by rw [e])
    simp only [fadd, if_neg hx, hv, except_bind_ok, except_pure]
  · rw [← cast_eq_iff]
    have hone : (v : ZMod M) * (x1 - x2) = 1 := by
      have h1 : ((v * subm x1 x2 : Nat) : ZMod M) = ((1 : Nat) : ZMod M) := by
        rw [cast_eq_iff, hmul, Nat.mod_eq_of_lt M_gt_one]
      simpa using h1
    push_cast
    simp only [mulm_cast, subm_cast]
    linear_combination ((y1 : ZMod M) - y2) * hone

/-- `fadd` under `STRICT` of finite points with equal x: always the fault (R110). -/
theorem fadd_strict_coincident (cfg : Config) (hc : cfg.paddCoincident = .strict) (x y1 y2 : Nat) :
    fadd cfg (.aff x y1) (.aff x y2) = .error ⟨.coincidentX, 0⟩ := by
  simp [fadd, faddCoincident, hc]

@[simp] theorem fadd_inf_left (cfg : Config) (P : Point) : fadd cfg .inf P = .ok .inf := rfl
@[simp] theorem fadd_inf_right (cfg : Config) (P : Point) : fadd cfg P .inf = .ok .inf := by cases P <;> rfl
@[simp] theorem fdouble_inf : fdouble .inf = .ok .inf := rfl
@[simp] theorem fdouble_zero_y (x : Nat) : fdouble (.aff x 0) = .ok .inf := rfl

/-! ### The loop of `fsmul` -/

/-- Coordinates in range, for a point value. -/
def Ranged (P : Point) : Prop := ∀ x y, P = .aff x y → x < M ∧ y < M

theorem doubleTimes_total (P : Point) (hP : Ranged P) : ∀ i, ∃ R, doubleTimes i P = .ok R ∧ Ranged R := by
  intro i
  induction i with
  | zero => exact ⟨P, rfl, hP⟩
  | succ n ih =>
    obtain ⟨R, h1, h2⟩ := ih
    obtain ⟨R', h3, h4⟩ := fdouble_total R h2
    exact ⟨R', by simp [doubleTimes, h1, h3], h4⟩

theorem doubleTimes_succ' (i : Nat) (P : Point) :
    doubleTimes (i + 1) P = (fdouble P >>= fun Q => doubleTimes i Q) := by
  induction i with
  | zero => cases h : fdouble P <;> simp [doubleTimes, h]
  | succ n ih =>
    show (doubleTimes (n + 1) P >>= fdouble) = _
    rw [ih]
    cases h : fdouble P <;> simp [doubleTimes]

/-- Any fuel of at least e gives the same loop. -/
theorem fsmulLoop_fuel (cfg : Config) (f : Nat) : ∀ g e acc scale, e ≤ f → e ≤ g →
    fsmulLoop cfg f e acc scale = fsmulLoop cfg g e acc scale := by
  induction f with
  | zero =>
    intro g e acc scale hf hg
    obtain rfl : e = 0 := by omega
    cases g <;> simp [fsmulLoop]
  | succ n ih =>
    intro g e acc scale hf hg
    cases g with
    | zero =>
      obtain rfl : e = 0 := by omega
      simp [fsmulLoop]
    | succ m =>
      simp only [fsmulLoop]
      split
      · rfl
      · simp only [ih m (e / 2) _ _ (by omega) (by omega)]

/-- The loop with fuel exactly e. -/
def smulFrom (cfg : Config) (e : Nat) (acc scale : Point) : Except Raised Point := fsmulLoop cfg e e acc scale

@[simp] theorem smulFrom_zero (cfg : Config) (acc scale : Point) : smulFrom cfg 0 acc scale = .ok acc := rfl

/-- One turn of the loop of R111. -/
theorem smulFrom_pos (cfg : Config) (e : Nat) (acc scale : Point) (h : e ≠ 0) :
    smulFrom cfg e acc scale = (do
      let acc' ← accumulateBit cfg e acc scale
      let scale' ← fdouble scale
      smulFrom cfg (e / 2) acc' scale') := by
  obtain ⟨n, rfl⟩ := Nat.exists_eq_succ_of_ne_zero h
  simp only [smulFrom, fsmulLoop, Nat.succ_ne_zero, if_false, Nat.succ_eq_add_one]
  simp only [fsmulLoop_fuel cfg n ((n + 1) / 2) ((n + 1) / 2) _ _ (by omega) (le_refl _)]

theorem fsmul_eq_smulFrom (cfg : Config) (k : Nat) (P : Point) : fsmul cfg k P = smulFrom cfg k .inf P := rfl

@[simp] theorem fsmul_zero (cfg : Config) (P : Point) : fsmul cfg 0 P = .ok .inf := rfl

/-- The highest bit is the last accumulated: the loop on 2^i + k is the loop on k, then one accumulation of the i-fold
double. -/
theorem smulFrom_highBit (cfg : Config) : ∀ (i k : Nat) (acc scale : Point), Ranged scale → k < 2 ^ i →
    smulFrom cfg (2 ^ i + k) acc scale = (do
      let acc' ← smulFrom cfg k acc scale
      let sc ← doubleTimes i scale
      accumulate cfg acc' sc) := by
  intro i
  induction i with
  | zero =>
    intro k acc scale hs hk
    obtain rfl : k = 0 := by simpa using hk
    obtain ⟨R, hR, -⟩ := fdouble_total scale hs
    rw [smulFrom_pos _ _ _ _ (by simp)]
    cases h : accumulate cfg acc scale <;> simp [doubleTimes, accumulateBit, h, hR]
  | succ n ih =>
    intro k acc scale hs hk
    obtain ⟨R, hR, hR'⟩ := fdouble_total scale hs
    have hp : 2 ^ (n + 1) = 2 * 2 ^ n := by rw [pow_succ, mul_comm]
    have hpos : 0 < 2 ^ n := Nat.two_pow_pos n
    have hbit : accumulateBit cfg (2 ^ (n + 1) + k) acc scale = accumulateBit cfg k acc scale := by
      unfold accumulateBit
      rw [show (2 ^ (n + 1) + k) % 2 = k % 2 by omega]
    rw [smulFrom_pos _ _ _ _ (by omega), hbit, show (2 ^ (n + 1) + k) / 2 = 2 ^ n + k / 2 by omega]
    by_cases h0 : k = 0
    · subst h0
      have := ih 0 acc R hR' hpos
      simp only [add_zero, smulFrom_zero, except_bind_ok] at this
      simp [hR, this, doubleTimes_succ', accumulateBit]
    · rw [smulFrom_pos cfg k acc scale h0]
      cases h : accumulateBit cfg k acc scale with
      | error e => simp
      | ok acc' =>
        simp only [except_bind_ok, hR]
        rw [ih (k / 2) acc' R hR' (by omega), doubleTimes_succ', hR]
        rfl

end Sys2Proof.Laws
end

