-- ==== Sys2Proof/Laws/Decode.lean ====
section
/-! SUPPORT. The fields of an encoded word, and the two directions between words and commands (30_encoding.md R71 to R75). -/

namespace Sys2Proof.Laws

open Sys2Proof

/-! ### The fields of the two formats (R71) -/

theorem toNat_append_eq {n m : Nat} (x : BitVec n) (y : BitVec m) : (x ++ y).toNat = x.toNat * 2 ^ m + y.toNat := by
  rw [BitVec.toNat_append, ← Nat.shiftLeft_add_eq_or_of_lt y.isLt, Nat.shiftLeft_eq]

theorem formatR_toNat (o : BitVec 8) (d a b : RegIx) :
    (formatR o d a b).toNat = (((o.toNat * 16 + d.toNat) * 16 + a.toNat) * 16 + b.toNat) * 4096 := by
  show (o ++ d ++ a ++ b ++ 0#12).toNat = _
  simp only [toNat_append_eq]
  simp

theorem formatI_toNat (o : BitVec 8) (d a : RegIx) (v c : Byte) :
    (formatI o d a v c).toNat = (((o.toNat * 16 + d.toNat) * 16 + a.toNat) * 256 + v.toNat) * 256 + c.toNat := by
  show (o ++ d ++ a ++ v ++ c).toNat = _
  simp only [toNat_append_eq]
  rfl

theorem field_toNat (w : Word) (lo len : Nat) : (w.extractLsb' lo len).toNat = w.toNat / 2 ^ lo % 2 ^ len := by
  rw [BitVec.extractLsb'_toNat, Nat.shiftRight_eq_div_pow]

section
variable (o : BitVec 8) (d a b : RegIx) (v c : Byte)

@[simp] theorem opcField_formatR : opcField (formatR o d a b) = o := by
  apply BitVec.eq_of_toNat_eq; rw [opcField, field_toNat, formatR_toNat]; omega
@[simp] theorem dField_formatR : dField (formatR o d a b) = d := by
  apply BitVec.eq_of_toNat_eq; rw [dField, field_toNat, formatR_toNat]; omega
@[simp] theorem aField_formatR : aField (formatR o d a b) = a := by
  apply BitVec.eq_of_toNat_eq; rw [aField, field_toNat, formatR_toNat]; omega
@[simp] theorem bField_formatR : bField (formatR o d a b) = b := by
  apply BitVec.eq_of_toNat_eq; rw [bField, field_toNat, formatR_toNat]; omega
@[simp] theorem lowField_formatR : lowField (formatR o d a b) = 0 := by
  apply BitVec.eq_of_toNat_eq; rw [lowField, field_toNat, formatR_toNat]; simp

@[simp] theorem opcField_formatI : opcField (formatI o d a v c) = o := by
  apply BitVec.eq_of_toNat_eq; rw [opcField, field_toNat, formatI_toNat]; omega
@[simp] theorem dField_formatI : dField (formatI o d a v c) = d := by
  apply BitVec.eq_of_toNat_eq; rw [dField, field_toNat, formatI_toNat]; omega
@[simp] theorem aField_formatI : aField (formatI o d a v c) = a := by
  apply BitVec.eq_of_toNat_eq; rw [aField, field_toNat, formatI_toNat]; omega
@[simp] theorem vField_formatI : vField (formatI o d a v c) = v := by
  apply BitVec.eq_of_toNat_eq; rw [vField, field_toNat, formatI_toNat]; omega
@[simp] theorem cField_formatI : cField (formatI o d a v c) = c := by
  apply BitVec.eq_of_toNat_eq; rw [cField, field_toNat, formatI_toNat]; omega

end

/-- A word is its format R fields, when its low bits are 0. -/
theorem formatR_fields (w : Word) (h : lowField w = 0) :
    formatR (opcField w) (dField w) (aField w) (bField w) = w := by
  have h0 : (lowField w).toNat = 0 := by rw [h]; rfl
  apply BitVec.eq_of_toNat_eq
  rw [formatR_toNat]
  simp only [opcField, dField, aField, bField, lowField, field_toNat] at *
  have := w.isLt
  omega

/-- A word is its format I fields. -/
theorem formatI_fields (w : Word) : formatI (opcField w) (dField w) (aField w) (vField w) (cField w) = w := by
  apply BitVec.eq_of_toNat_eq
  rw [formatI_toNat]
  simp only [opcField, dField, aField, vField, cField, field_toNat]
  have := w.isLt
  omega

theorem word_of_fieldsR (w : Word) (o : BitVec 8) (d a b : RegIx) (ho : opcField w = o) (hd : dField w = d)
    (ha : aField w = a) (hb : bField w = b) (hz : lowField w = 0) : formatR o d a b = w := by
  subst ho hd ha hb
  exact formatR_fields w hz

theorem word_of_fieldsI (w : Word) (o : BitVec 8) (d a : RegIx) (v c : Byte) (ho : opcField w = o) (hd : dField w = d)
    (ha : aField w = a) (hv : vField w = v) (hc : cField w = c) : formatI o d a v c = w := by
  subst ho hd ha hv hc
  exact formatI_fields w

/-- A branch of the decoder that answers a command, and what it says. -/
theorem ite_some {p : Prop} [Decidable p] {x y : Option Instr} {i : Instr} (h : (if p then x else y) = some i) :
    (p ∧ x = some i) ∨ (¬p ∧ y = some i) := by
  by_cases hp : p
  · exact .inl ⟨hp, by rwa [if_pos hp] at h⟩
  · exact .inr ⟨hp, by rwa [if_neg hp] at h⟩

/-- A guarded command that is answered. -/
theorem guard_some {p : Prop} [Decidable p] {j i : Instr} (h : (if p then some j else none) = some i) : p ∧ j = i := by
  rcases ite_some h with ⟨hp, hj⟩ | ⟨-, hn⟩
  · exact ⟨hp, Option.some.inj hj⟩
  · cases hn

/-- What a decoded word says of its fields: the command is well-formed, and its encoding is the word. -/
theorem decode_sound (w : Word) (i : Instr) (h : decode w = some i) : i.wf = true ∧ encode i = w := by
  unfold decode at h
  dsimp only at h
  iterate 18
    rcases ite_some h with ⟨ho, h⟩ | ⟨-, h⟩
    · obtain ⟨hc, rfl⟩ := guard_some h
      refine ⟨by simp [Instr.wf, hc], ?_⟩
      simp only [encode]
      first
        | with_reducible refine word_of_fieldsR w _ _ _ _ ho ?_ ?_ ?_ ?_ <;> simp [hc]
        | with_reducible refine word_of_fieldsI w _ _ _ _ _ ho ?_ ?_ ?_ ?_ <;> simp [hc]
  cases h

end Sys2Proof.Laws
end

