-- ==== Sys2Proof/Laws/Group.lean ====
section
/-! SUPPORT. The model's doubling and addition are the group law of the curve (Mathlib's affine points): each function on
represented points gives the represented sum. -/

namespace Sys2Proof.Laws

open Sys2Proof Sys2Proof.Machine
open WeierstrassCurve.Affine (Point.add_of_X_ne)

variable [Fact (Nat.Prime M)]

/-! ### Points and their representation -/

theorem num_ne_zero (k : Nat) (h : k % M ≠ 0) : (k : ZMod M) ≠ 0 := fun e => h ((cast_eq_zero_iff k).1 e)

theorem two_ne_zero_M : (2 : ZMod M) ≠ 0 := by exact_mod_cast num_ne_zero 2 (by decide)

theorem secp_Delta : secp256k1.Δ ≠ 0 := by
  have h : secp256k1.Δ = -((21168 : Nat) : ZMod M) := by
    simp only [secp256k1, WeierstrassCurve.Δ, WeierstrassCurve.b₂, WeierstrassCurve.b₄, WeierstrassCurve.b₆,
      WeierstrassCurve.b₈]
    push_cast
    ring
  rw [h]
  exact neg_ne_zero.2 (num_ne_zero _ (by decide))

theorem secp_equation (x y : ZMod M) : secp256k1.Equation x y ↔ y * y = x * x * x + 7 := by
  rw [WeierstrassCurve.Affine.equation_iff]
  simp only [secp256k1]
  constructor <;> intro h <;> linear_combination h

theorem secp_nonsingular (x y : ZMod M) : secp256k1.Nonsingular x y ↔ y * y = x * x * x + 7 := by
  rw [← WeierstrassCurve.Affine.equation_iff_nonsingular_of_Δ_ne_zero secp_Delta, secp_equation]

theorem onCurve_cast (x y : Nat) : OnCurve x y ↔ (y : ZMod M) * y = x * x * x + 7 := by
  unfold OnCurve
  rw [← cast_eq_iff]
  push_cast
  rfl

omit [Fact (Nat.Prime M)] in
@[simp] theorem represents_inf (Q : secp256k1.Point) : Represents .inf Q ↔ Q = 0 := by
  cases Q with
  | zero => exact ⟨fun _ => rfl, fun _ => trivial⟩
  | some x y h => exact ⟨fun h => h.elim, fun h => (WeierstrassCurve.Affine.Point.some_ne_zero _ h).elim⟩

theorem represents_aff (x y : Nat) (Q : secp256k1.Point) :
    Represents (.aff x y) Q ↔ x < M ∧ y < M ∧ ∃ h : secp256k1.Nonsingular (x : ZMod M) (y : ZMod M), Q = .some _ _ h := by
  cases Q with
  | zero => exact ⟨fun h => h.elim, fun ⟨_, _, _, h⟩ => by cases h⟩
  | some X Y hQ =>
    constructor
    · rintro ⟨h1, h2, h3, h4⟩
      subst h3 h4
      exact ⟨h1, h2, hQ, rfl⟩
    · rintro ⟨h1, h2, h3, h4⟩
      cases h4
      exact ⟨h1, h2, rfl, rfl⟩

/-- A point on the curve with coordinates in range stands for exactly one point of the group. -/
theorem exists_represents (x y : Nat) (hx : x < M) (hy : y < M) (h : OnCurve x y) :
    ∃ Q : secp256k1.Point, Represents (.aff x y) Q :=
  ⟨.some _ _ ((secp_nonsingular _ _).2 ((onCurve_cast x y).1 h)), (represents_aff _ _ _).2 ⟨hx, hy, _, rfl⟩⟩

theorem onCurve_of_represents (x y : Nat) (Q : secp256k1.Point) (h : Represents (.aff x y) Q) :
    x < M ∧ y < M ∧ OnCurve x y := by
  obtain ⟨h1, h2, h3, -⟩ := (represents_aff _ _ _).1 h
  exact ⟨h1, h2, (onCurve_cast x y).2 ((secp_nonsingular _ _).1 h3)⟩

theorem represents_unique (P : Point) (Q Q' : secp256k1.Point) (h : Represents P Q) (h' : Represents P Q') : Q = Q' := by
  cases P with
  | inf => rw [(represents_inf Q).1 h, (represents_inf Q').1 h']
  | aff x y =>
    obtain ⟨-, -, _, rfl⟩ := (represents_aff _ _ _).1 h
    obtain ⟨-, -, _, rfl⟩ := (represents_aff _ _ _).1 h'
    rfl

theorem ranged_of_represents (P : Point) (Q : secp256k1.Point) (h : Represents P Q) : Ranged P := by
  rintro x y rfl
  obtain ⟨h1, h2, -⟩ := (represents_aff _ _ _).1 h
  exact ⟨h1, h2⟩

/-! ### Doubling and adding -/

theorem represents_line (l x1 y1 x2 x' y' : Nat) (h : LineGives l x1 y1 x2 x' y') :
    (x' : ZMod M) = (l : ZMod M) ^ 2 - x1 - x2 ∧
    (y' : ZMod M) = l * (x1 - (x' : ZMod M)) - y1 := by
  obtain ⟨-, -, h3, h4⟩ := h
  rw [← cast_eq_iff] at h3 h4
  push_cast at h3 h4
  exact ⟨by linear_combination h3, by linear_combination h4⟩

/-- `fdouble` is the doubling of the group. -/
theorem fdouble_represents (P : Point) (Q : secp256k1.Point) (h : Represents P Q) :
    ∃ R, fdouble P = .ok R ∧ Represents R (Q + Q) := by
  cases P with
  | inf =>
    rw [represents_inf] at h
    exact ⟨.inf, rfl, (represents_inf _).2 (by rw [h, add_zero])⟩
  | aff x y =>
    obtain ⟨hx, hy, hn, rfl⟩ := (represents_aff _ _ _).1 h
    by_cases h0 : y = 0
    · subst h0
      refine ⟨.inf, rfl, (represents_inf _).2 ?_⟩
      apply WeierstrassCurve.Affine.Point.add_self_of_Y_eq
      simp [WeierstrassCurve.Affine.negY, secp256k1]
    · obtain ⟨l, x', y', h1, -, h2, h3⟩ := fdouble_tangent x y h0 hy
      have hy0 : (y : ZMod M) ≠ 0 := num_ne_zero y (by rwa [Nat.mod_eq_of_lt hy])
      have h2y : (2 : ZMod M) * y ≠ 0 := mul_ne_zero two_ne_zero_M hy0
      have hneg : (y : ZMod M) ≠ secp256k1.negY x y := by
        intro e
        have : (2 : ZMod M) * y = 0 := by
          simp only [WeierstrassCurve.Affine.negY, secp256k1] at e
          linear_combination e
        exact h2y this
      have hl : (l : ZMod M) = secp256k1.slope x x y y := by
        rw [WeierstrassCurve.Affine.slope_of_Y_ne rfl hneg]
        rw [← cast_eq_iff] at h2
        push_cast at h2
        simp only [WeierstrassCurve.Affine.negY, secp256k1]
        rw [eq_div_iff (by
          intro e
          apply h2y
          linear_combination e)]
        linear_combination h2
      obtain ⟨hx', hy'⟩ := represents_line l x y x x' y' h3
      refine ⟨.aff x' y', h1, ?_⟩
      rw [WeierstrassCurve.Affine.Point.add_self_of_Y_ne hneg]
      refine ⟨h3.1, h3.2.1, ?_, ?_⟩
      · rw [← hl, hx']
        simp only [WeierstrassCurve.Affine.addX, secp256k1]
        ring
      · rw [← hl, hy', hx']
        simp only [WeierstrassCurve.Affine.addY, WeierstrassCurve.Affine.negAddY, WeierstrassCurve.Affine.addX,
          WeierstrassCurve.Affine.negY, secp256k1]
        ring

/-- `fadd` of finite points with different x is the addition of the group, and finite. -/
theorem fadd_represents (cfg : Config) (x1 y1 x2 y2 : Nat) (Q1 Q2 : secp256k1.Point) (h1 : Represents (.aff x1 y1) Q1)
    (h2 : Represents (.aff x2 y2) Q2) (hx : x1 ≠ x2) :
    ∃ x y, fadd cfg (.aff x1 y1) (.aff x2 y2) = .ok (.aff x y) ∧ Represents (.aff x y) (Q1 + Q2) := by
  obtain ⟨hx1, -, hn1, rfl⟩ := (represents_aff _ _ _).1 h1
  obtain ⟨hx2, -, hn2, rfl⟩ := (represents_aff _ _ _).1 h2
  obtain ⟨l, x', y', ha, -, hs, h3⟩ := fadd_chord cfg x1 y1 x2 y2
    (by rwa [Nat.mod_eq_of_lt hx1, Nat.mod_eq_of_lt hx2])
  have hne : (x1 : ZMod M) ≠ x2 := fun e => hx (eq_of_cast_eq hx1 hx2 e)
  have hl : (l : ZMod M) = secp256k1.slope x1 x2 y1 y2 := by
    rw [WeierstrassCurve.Affine.slope_of_X_ne hne, eq_div_iff (sub_ne_zero.2 hne)]
    rw [← cast_eq_iff] at hs
    push_cast at hs
    linear_combination hs
  obtain ⟨hx', hy'⟩ := represents_line l x1 y1 x2 x' y' h3
  refine ⟨x', y', ha, ?_⟩
  rw [WeierstrassCurve.Affine.Point.add_of_X_ne hne]
  refine ⟨h3.1, h3.2.1, ?_, ?_⟩
  · rw [← hl, hx']
    simp only [WeierstrassCurve.Affine.addX, secp256k1]
    ring
  · rw [← hl, hy', hx']
    simp only [WeierstrassCurve.Affine.addY, WeierstrassCurve.Affine.negAddY, WeierstrassCurve.Affine.addX,
      WeierstrassCurve.Affine.negY, secp256k1]
    ring

/-- Finite points with the same x are equal or opposite. -/
theorem represents_same_x (x y1 y2 : Nat) (Q1 Q2 : secp256k1.Point) (h1 : Represents (.aff x y1) Q1)
    (h2 : Represents (.aff x y2) Q2) : Q1 = Q2 ∨ Q1 = -Q2 := by
  obtain ⟨-, -, hn1, rfl⟩ := (represents_aff _ _ _).1 h1
  obtain ⟨-, -, hn2, rfl⟩ := (represents_aff _ _ _).1 h2
  exact WeierstrassCurve.Affine.Point.X_eq_iff.1 rfl

/-- Represented points that are equal or opposite have the same x. -/
theorem same_x_of_represents (x1 y1 x2 y2 : Nat) (Q1 Q2 : secp256k1.Point) (h1 : Represents (.aff x1 y1) Q1)
    (h2 : Represents (.aff x2 y2) Q2) (h : Q1 = Q2 ∨ Q1 = -Q2) : x1 = x2 := by
  obtain ⟨hx1, -, hn1, rfl⟩ := (represents_aff _ _ _).1 h1
  obtain ⟨hx2, -, hn2, rfl⟩ := (represents_aff _ _ _).1 h2
  exact eq_of_cast_eq hx1 hx2 (WeierstrassCurve.Affine.Point.X_eq_iff.2 h)

/-- No point of the curve has y = 0: −7 is not a cube modulo M (R102; 93_implementation_defined.md G10). -/
theorem no_zero_y (x : ZMod M) : (0 : ZMod M) * 0 ≠ x * x * x + 7 := by
  intro h
  have hx : x ^ 3 = -7 := by linear_combination -h
  have hx0 : x ≠ 0 := by
    rintro rfl
    have : ((7 : Nat) : ZMod M) = 0 := by push_cast; linear_combination hx
    exact num_ne_zero 7 (by decide) this
  have h1 : (x ^ 3) ^ ((M - 1) / 3) = 1 := by
    rw [← pow_mul, show 3 * ((M - 1) / 3) = M - 1 by decide +kernel]
    exact ZMod.pow_card_sub_one_eq_one hx0
  have h7 : (-7 : ZMod M) = ((M - 7 : Nat) : ZMod M) := by
    rw [Nat.cast_sub (by decide), ZMod.natCast_self]
    push_cast
    ring
  rw [hx, h7, ← Nat.cast_pow] at h1
  have h2 : ((M - 7) ^ ((M - 1) / 3)) % M = 1 % M := by
    rw [← cast_eq_iff, h1, Nat.cast_one]
  rw [← powMod_eq M 256 (M - 7) ((M - 1) / 3) (by decide +kernel)] at h2
  exact absurd h2 (by decide +kernel)

/-- The double of a finite point of the curve is finite. -/
theorem fdouble_finite (x y : Nat) (Q : secp256k1.Point) (h : Represents (.aff x y) Q) :
    ∃ x' y', fdouble (.aff x y) = .ok (.aff x' y') ∧ Represents (.aff x' y') (Q + Q) := by
  obtain ⟨R, hR, hR'⟩ := fdouble_represents _ _ h
  have hy : y ≠ 0 := by
    rintro rfl
    obtain ⟨-, -, hc⟩ := onCurve_of_represents _ _ _ h
    rw [onCurve_cast] at hc
    push_cast at hc
    exact no_zero_y _ hc
  obtain ⟨l, x', y', h1, -⟩ := fdouble_tangent x y hy (onCurve_of_represents _ _ _ h).2.1
  rw [hR] at h1
  cases h1
  exact ⟨x', y', hR, hR'⟩

/-! ### Scalar multiplication -/

/-- One accumulation under `STRICT`, on represented points and a finite addend: the sum, or the fault. -/
theorem accumulate_represents (cfg : Config) (hc : cfg.paddCoincident = .strict) (acc : Point) (x y : Nat)
    (A S : secp256k1.Point) (hA : Represents acc A) (hS : Represents (.aff x y) S) :
    (∃ R, accumulate cfg acc (.aff x y) = .ok R ∧ Represents R (A + S)) ∨
    ((A = S ∨ A = -S) ∧ accumulate cfg acc (.aff x y) = .error ⟨.coincidentX, 0⟩) := by
  cases acc with
  | inf =>
    rw [represents_inf] at hA
    exact .inl ⟨.aff x y, rfl, by rwa [hA, zero_add]⟩
  | aff x1 y1 =>
    by_cases h : x1 = x
    · subst h
      exact .inr ⟨represents_same_x _ _ _ _ _ hA hS, fadd_strict_coincident cfg hc _ _ _⟩
    · obtain ⟨x', y', h1, h2⟩ := fadd_represents cfg _ _ _ _ _ _ hA hS h
      exact .inl ⟨_, h1, h2⟩

/-- The loop of `fsmul` under `STRICT` from a finite point of the curve: the multiple, or `CoincidentX`; never another
fault. -/
theorem smulFrom_represents (cfg : Config) (hc : cfg.paddCoincident = .strict) (e : Nat) :
    ∀ (acc : Point) (x y : Nat) (A S : secp256k1.Point), Represents acc A → Represents (.aff x y) S →
    (∃ R, smulFrom cfg e acc (.aff x y) = .ok R ∧ Represents R (A + e • S)) ∨
    smulFrom cfg e acc (.aff x y) = .error ⟨.coincidentX, 0⟩ := by
  induction e using Nat.strong_induction_on with
  | _ e ih =>
    intro acc x y A S hA hS
    by_cases h0 : e = 0
    · subst h0
      exact .inl ⟨acc, rfl, by rwa [zero_nsmul, add_zero]⟩
    · obtain ⟨x', y', hd, hd'⟩ := fdouble_finite x y S hS
      rw [smulFrom_pos _ _ _ _ h0]
      have hsplit : e • S = (e % 2) • S + (e / 2) • (S + S) := by
        conv_lhs => rw [← Nat.mod_add_div e 2]
        rw [add_nsmul, mul_nsmul, two_nsmul]
      unfold accumulateBit
      by_cases h1 : e % 2 = 1
      · rw [if_pos h1]
        rcases accumulate_represents cfg hc acc x y A S hA hS with ⟨R, hR, hR'⟩ | ⟨-, hR⟩
        · rw [hR, hsplit, h1, one_nsmul, ← add_assoc]
          simp only [except_bind_ok, hd]
          exact ih (e / 2) (by omega) R x' y' _ _ hR' hd'
        · exact .inr (by rw [hR]; rfl)
      · rw [if_neg h1, hsplit, show e % 2 = 0 by omega, zero_nsmul, zero_add]
        simp only [except_bind_ok, hd]
        exact ih (e / 2) (by omega) acc x' y' _ _ hA hd'

/-- The i-fold double of a finite point of the curve is finite, and is the multiple by 2^i. -/
theorem doubleTimes_represents (i x y : Nat) (S : secp256k1.Point) (h : Represents (.aff x y) S) :
    ∃ x' y', doubleTimes i (.aff x y) = .ok (.aff x' y') ∧ Represents (.aff x' y') ((2 ^ i) • S) := by
  induction i with
  | zero => exact ⟨x, y, rfl, by rwa [pow_zero, one_nsmul]⟩
  | succ n ih =>
    obtain ⟨x', y', h1, h2⟩ := ih
    obtain ⟨x'', y'', h3, h4⟩ := fdouble_finite _ _ _ h2
    refine ⟨x'', y'', by simp [doubleTimes, h1, h3], ?_⟩
    rwa [pow_succ, mul_nsmul, two_nsmul]

end Sys2Proof.Laws
end

