-- ==== Sys2Proof/Laws/Order.lean ====
section
/-! SUPPORT. The order of the generator is n (41_curve.md R104): a ladder in projective coordinates, which needs no inverse
and which the kernel runs, gives (n − 1)·G = −G; n is prime. Then which scalars make `fsmul` fault for G. -/

namespace Sys2Proof.Laws

open Sys2Proof Sys2Proof.Machine

/-! ### A ladder without inverses -/

/-- Projective coordinates (X : Y : Z) of the affine point (X/Z, Y/Z). -/
structure Proj where
  X : Nat
  Y : Nat
  Z : Nat

/-- The double of a projective point, where the tangent is not vertical. -/
def projDouble (P : Proj) : Option Proj :=
  let w := mulm 3 (mulm P.X P.X)
  let s := mulm P.Y P.Z
  let b := mulm (mulm P.X P.Y) s
  let h := subm (mulm w w) (mulm 8 b)
  if s = 0 then none
  else some ⟨mulm 2 (mulm h s), subm (mulm w (subm (mulm 4 b) h)) (mulm 8 (mulm (mulm P.Y P.Y) (mulm s s))),
    mulm 8 (mulm s (mulm s s))⟩

/-- A projective point plus G, where the x-coordinates differ. -/
def projAddG (P : Proj) : Option Proj :=
  let u := subm P.Y (mulm GY P.Z)
  let v := subm P.X (mulm GX P.Z)
  let vv := mulm v v
  let a := subm (mulm (mulm u u) P.Z) (mulm vv (addm P.X (mulm GX P.Z)))
  if v = 0 then none
  else if P.Z = 0 then none
  else some ⟨mulm v a, subm (mulm u (subm (mulm GX (mulm vv P.Z)) a)) (mulm GY (mulm (mulm v vv) P.Z)),
    mulm (mulm v vv) P.Z⟩

/-- k·G, most significant bit first, k > 0. -/
def ladder : (fuel k : Nat) → Option Proj
  | 0, _ => none
  | fuel + 1, k =>
    if k = 1 then some ⟨GX, GY, 1⟩
    else
      match ladder fuel (k / 2) with
      | none => none
      | some P =>
        match projDouble P with
        | none => none
        | some D => if k % 2 = 1 then projAddG D else some D

theorem ladder_last : ∃ P, ladder 256 (groupOrder - 1) = some P ∧ P.X % M = mulm GX P.Z ∧
    P.Y % M = mulm (M - GY) P.Z ∧ P.Z % M ≠ 0 := by
  have h : (match ladder 256 (groupOrder - 1) with
    | some P => P.X % M == mulm GX P.Z && P.Y % M == mulm (M - GY) P.Z && P.Z % M != 0
    | none => false) = true := by decide +kernel
  revert h
  cases ladder 256 (groupOrder - 1) with
  | none => intro h; cases h
  | some P =>
    intro h
    simp only [Bool.and_eq_true, beq_iff_eq, bne_iff_ne, ne_eq] at h
    exact ⟨P, rfl, h.1.1, h.1.2, h.2⟩

theorem G_onCurve : OnCurve GX GY := by unfold OnCurve; decide +kernel

theorem G_ranged : GX < M ∧ GY < M := by decide +kernel

variable [Fact (Nat.Prime M)]

theorem exists_G : ∃ g : secp256k1.Point, Represents G g := exists_represents GX GY G_ranged.1 G_ranged.2 G_onCurve

/-- (X : Y : Z) stands for the point Q. -/
def ProjRep (P : Proj) (Q : secp256k1.Point) : Prop :=
  (P.Z : ZMod M) ≠ 0 ∧ ∃ h : secp256k1.Nonsingular ((P.X : ZMod M) / P.Z) ((P.Y : ZMod M) / P.Z), Q = .some _ _ h

theorem cast_ne_zero_of_lt {a : Nat} (h : a ≠ 0) (hlt : a < M) : (a : ZMod M) ≠ 0 :=
  num_ne_zero a (by rwa [Nat.mod_eq_of_lt hlt])

omit [Fact (Nat.Prime M)] in
theorem some_ext {x x' y y' : ZMod M} (h : secp256k1.Nonsingular x y) (h' : secp256k1.Nonsingular x' y') (hx : x = x')
    (hy : y = y') : (WeierstrassCurve.Affine.Point.some x y h) = .some x' y' h' := by
  subst hx hy
  rfl

omit [Fact (Nat.Prime M)] in
theorem some_congr {x x' y y' : ZMod M} (h : secp256k1.Nonsingular x y) (hx : x' = x) (hy : y' = y) :
    ∃ h' : secp256k1.Nonsingular x' y', (WeierstrassCurve.Affine.Point.some x y h) = .some x' y' h' := by
  subst hx hy
  exact ⟨h, rfl⟩

theorem projDouble_rep (P R : Proj) (Q : secp256k1.Point) (h : ProjRep P Q) (hR : projDouble P = some R) :
    ProjRep R (Q + Q) := by
  obtain ⟨hZ, hn, rfl⟩ := h
  simp only [projDouble] at hR
  split at hR
  · cases hR
  rename_i hs
  have hs' : (P.Y : ZMod M) * P.Z ≠ 0 := by
    have := cast_ne_zero_of_lt hs (mulm_lt _ _)
    rwa [mulm_cast] at this
  have hY : (P.Y : ZMod M) ≠ 0 := left_ne_zero_of_mul hs'
  have h2 := two_ne_zero_M
  have h8 : (8 : ZMod M) ≠ 0 := by
    have : (8 : ZMod M) = 2 * 2 * 2 := by norm_num
    rw [this]
    exact mul_ne_zero (mul_ne_zero h2 h2) h2
  cases hR
  have hneg : (P.Y : ZMod M) / P.Z ≠ secp256k1.negY ((P.X : ZMod M) / P.Z) ((P.Y : ZMod M) / P.Z) := by
    intro e
    simp only [WeierstrassCurve.Affine.negY, secp256k1] at e
    have : (2 : ZMod M) * (P.Y / P.Z) = 0 := by linear_combination e
    rcases mul_eq_zero.1 this with h | h
    · exact h2 h
    · exact (div_ne_zero hY hZ) h
  have hslope : secp256k1.slope ((P.X : ZMod M) / P.Z) ((P.X : ZMod M) / P.Z) ((P.Y : ZMod M) / P.Z)
      ((P.Y : ZMod M) / P.Z) = 3 * (P.X : ZMod M) ^ 2 / (2 * P.Y * P.Z) := by
    rw [WeierstrassCurve.Affine.slope_of_Y_ne rfl hneg]
    simp only [WeierstrassCurve.Affine.negY, secp256k1]
    have hd : (P.Y : ZMod M) / P.Z - (-(P.Y / P.Z) - 0 * (P.X / P.Z) - 0) = 2 * P.Y / P.Z := by ring
    rw [hd]
    field_simp
    ring
  rw [WeierstrassCurve.Affine.Point.add_self_of_Y_ne hneg]
  refine ⟨?_, ?_⟩
  · show ((mulm 8 _ : Nat) : ZMod M) ≠ 0
    simp only [mulm_cast]
    push_cast
    exact mul_ne_zero h8 (mul_ne_zero hs' (mul_ne_zero hs' hs'))
  · apply some_congr
    · rw [hslope]
      simp only [WeierstrassCurve.Affine.addX, secp256k1, mulm_cast, subm_cast]
      push_cast
      field_simp
      ring
    · rw [hslope]
      simp only [WeierstrassCurve.Affine.addY, WeierstrassCurve.Affine.negAddY, WeierstrassCurve.Affine.addX,
        WeierstrassCurve.Affine.negY, secp256k1, mulm_cast, subm_cast]
      push_cast
      field_simp
      ring

theorem projAddG_rep (P R : Proj) (Q g : secp256k1.Point) (h : ProjRep P Q) (hg : Represents G g)
    (hR : projAddG P = some R) : ProjRep R (Q + g) := by
  obtain ⟨hZ, hn, rfl⟩ := h
  obtain ⟨-, -, hng, rfl⟩ := (represents_aff _ _ _).1 hg
  simp only [projAddG] at hR
  split at hR
  · cases hR
  split at hR
  · cases hR
  rename_i hv _
  have hv' : (P.X : ZMod M) - GX * P.Z ≠ 0 := by
    have := cast_ne_zero_of_lt hv (subm_lt _ _)
    rwa [subm_cast, mulm_cast] at this
  cases hR
  have hne : (P.X : ZMod M) / P.Z ≠ GX := by
    intro e
    rw [div_eq_iff hZ] at e
    exact hv' (by rw [e, sub_self])
  have hslope : secp256k1.slope ((P.X : ZMod M) / P.Z) (GX : ZMod M) ((P.Y : ZMod M) / P.Z) (GY : ZMod M) =
      ((P.Y : ZMod M) - GY * P.Z) / ((P.X : ZMod M) - GX * P.Z) := by
    rw [WeierstrassCurve.Affine.slope_of_X_ne hne]
    have h1 : (P.X : ZMod M) / P.Z - GX = ((P.X : ZMod M) - GX * P.Z) / P.Z := by field_simp
    have h2 : (P.Y : ZMod M) / P.Z - GY = ((P.Y : ZMod M) - GY * P.Z) / P.Z := by field_simp
    rw [h1, h2, div_div_div_cancel_right₀ hZ]
  rw [WeierstrassCurve.Affine.Point.add_of_X_ne hne]
  refine ⟨?_, ?_⟩
  · show ((mulm (mulm _ _) _ : Nat) : ZMod M) ≠ 0
    simp only [mulm_cast, subm_cast]
    exact mul_ne_zero (mul_ne_zero hv' (mul_ne_zero hv' hv')) hZ
  · apply some_congr
    · rw [hslope]
      simp only [WeierstrassCurve.Affine.addX, secp256k1, mulm_cast, subm_cast, addm_cast]
      generalize hd : (P.X : ZMod M) - GX * P.Z = d at *
      field_simp
      rw [← hd]
      ring
    · rw [hslope]
      simp only [WeierstrassCurve.Affine.addY, WeierstrassCurve.Affine.negAddY, WeierstrassCurve.Affine.addX,
        WeierstrassCurve.Affine.negY, secp256k1, mulm_cast, subm_cast, addm_cast]
      generalize hd : (P.X : ZMod M) - GX * P.Z = d at *
      field_simp
      rw [← hd]
      ring

theorem ladder_rep (g : secp256k1.Point) (hg : Represents G g) (fuel : Nat) :
    ∀ k P, ladder fuel k = some P → ProjRep P (k • g) := by
  induction fuel with
  | zero => intro k P h; cases h
  | succ n ih =>
    intro k P h
    simp only [ladder] at h
    split at h
    · rename_i h1
      cases h
      obtain ⟨-, -, hng, rfl⟩ := (represents_aff _ _ _).1 hg
      rw [h1, one_nsmul]
      refine ⟨by push_cast; exact one_ne_zero, some_congr hng ?_ ?_⟩ <;> push_cast <;> exact div_one _
    · split at h
      · cases h
      · rename_i P' hP'
        have hrep := ih _ _ hP'
        split at h
        · cases h
        · rename_i D hD
          have hd := projDouble_rep _ _ _ hrep hD
          have hk : k • g = (k % 2) • g + ((k / 2) • g + (k / 2) • g) := by
            conv_lhs => rw [← Nat.mod_add_div k 2]
            rw [add_nsmul, two_mul, add_nsmul]
          split at h
          · rename_i h1
            rw [hk, h1, one_nsmul, add_comm]
            exact projAddG_rep _ _ _ _ hd hg h
          · rename_i h1
            cases h
            rw [hk, show k % 2 = 0 by omega, zero_nsmul, zero_add]
            exact hd

/-! ### The order of the generator -/

theorem order_nsmul (g : secp256k1.Point) (hg : Represents G g) : groupOrder • g = 0 := by
  obtain ⟨P, hP, hX, hY, hZ⟩ := ladder_last
  obtain ⟨hZ', hn, hlast⟩ := ladder_rep g hg _ _ _ hP
  have hX' : (P.X : ZMod M) = GX * P.Z := by
    rw [← cast_mod_M P.X, hX, mulm_cast]
  have hY' : (P.Y : ZMod M) = -GY * P.Z := by
    rw [← cast_mod_M P.Y, hY, mulm_cast, Nat.cast_sub G_ranged.2.le, ZMod.natCast_self, zero_sub]
  have hneg : (groupOrder - 1) • g = -g := by
    rw [hlast]
    obtain ⟨-, -, hng, rfl⟩ := (represents_aff _ _ _).1 hg
    refine (some_ext hn ((WeierstrassCurve.Affine.nonsingular_neg _ _).2 hng) ?_ ?_).trans
      (WeierstrassCurve.Affine.Point.neg_some hng).symm
    · rw [hX', mul_div_assoc, div_self hZ', mul_one]
    · rw [hY', mul_div_assoc, div_self hZ', mul_one]
      simp only [WeierstrassCurve.Affine.negY, secp256k1, zero_mul, sub_zero]
  have : groupOrder = (groupOrder - 1) + 1 := by decide +kernel
  rw [this, succ_nsmul, hneg, neg_add_cancel]

theorem G_ne_zero (g : secp256k1.Point) (hg : Represents G g) : g ≠ 0 := by
  obtain ⟨-, -, hng, rfl⟩ := (represents_aff _ _ _).1 hg
  exact WeierstrassCurve.Affine.Point.some_ne_zero hng

theorem order_of_G (g : secp256k1.Point) (hg : Represents G g) : addOrderOf g = groupOrder := by
  have : Fact (Nat.Prime groupOrder) := ⟨order_prime⟩
  exact addOrderOf_eq_prime (order_nsmul g hg) (G_ne_zero g hg)

theorem nsmul_G_eq_zero_iff (g : secp256k1.Point) (hg : Represents G g) (k : Nat) : k • g = 0 ↔ groupOrder ∣ k := by
  rw [← order_of_G g hg, addOrderOf_dvd_iff_nsmul_eq_zero]

/-- The two ways a·G and b·G can share an x-coordinate, for a < b. -/
theorem nsmul_G_same_x (g : secp256k1.Point) (hg : Represents G g) (a b : Nat) (hab : a < b)
    (h : a • g = b • g ∨ a • g = -(b • g)) : groupOrder ∣ b - a ∨ groupOrder ∣ a + b := by
  rcases h with h | h
  · left
    rw [← nsmul_G_eq_zero_iff g hg]
    have : b • g = (b - a) • g + a • g := by rw [← add_nsmul, Nat.sub_add_cancel hab.le]
    rw [this] at h
    exact right_eq_add.1 h
  · right
    rw [← nsmul_G_eq_zero_iff g hg, add_nsmul, h, neg_add_cancel]

/-- `fsmul` under `STRICT` for G faults for no scalar below 2^256 but n (R104). -/
theorem smulFrom_G (cfg : Config) (hc : cfg.paddCoincident = .strict) (g : secp256k1.Point) (hg : Represents G g)
    (e : Nat) : ∀ (i a : Nat) (acc : Point) (x y : Nat), a < 2 ^ i → a + 2 ^ i * e < 2 ^ 256 → a + 2 ^ i * e ≠ groupOrder →
    Represents acc (a • g) → Represents (.aff x y) ((2 ^ i) • g) →
    ∃ R, smulFrom cfg e acc (.aff x y) = .ok R ∧ Represents R ((a + 2 ^ i * e) • g) := by
  induction e using Nat.strong_induction_on with
  | _ e ih =>
    intro i a acc x y ha hlt hne hA hS
    by_cases h0 : e = 0
    · subst h0
      exact ⟨acc, rfl, by simpa using hA⟩
    · obtain ⟨x', y', hd, hd'⟩ := fdouble_finite x y _ hS
      have hd'' : Represents (.aff x' y') ((2 ^ (i + 1)) • g) := by
        rwa [pow_succ, mul_nsmul, two_nsmul]
      have hp : 2 ^ (i + 1) = 2 * 2 ^ i := by rw [pow_succ, mul_comm]
      have hpos : 0 < 2 ^ i := Nat.two_pow_pos i
      rw [smulFrom_pos _ _ _ _ h0]
      unfold accumulateBit
      by_cases h1 : e % 2 = 1
      · have he : e = 2 * (e / 2) + 1 := by omega
        have hsum : a + 2 ^ i * e = (a + 2 ^ i) + 2 ^ (i + 1) * (e / 2) := by
          conv_lhs => rw [he]
          rw [hp]
          ring
        rw [if_pos h1]
        rcases accumulate_represents cfg hc acc x y _ _ hA hS with ⟨R, hR, hR'⟩ | ⟨hbad, -⟩
        · rw [← add_nsmul] at hR'
          rw [hR]
          simp only [except_bind_ok, hd]
          rw [hsum] at hlt hne ⊢
          exact ih (e / 2) (by omega) (i + 1) (a + 2 ^ i) R x' y' (by omega) hlt hne hR' hd''
        · exfalso
          have hi : i ≤ 255 := by
            by_contra hi
            have : 2 ^ 256 ≤ 2 ^ i := Nat.pow_le_pow_right (by decide) (by omega)
            have : 2 ^ i * 1 ≤ 2 ^ i * e := Nat.mul_le_mul_left _ (by omega)
            omega
          have hn1 : 2 ^ 255 < groupOrder := by decide +kernel
          have hn2 : 2 ^ 256 < 2 * groupOrder := by decide +kernel
          have hi' : 2 ^ i ≤ 2 ^ 255 := Nat.pow_le_pow_right (by decide) hi
          rcases nsmul_G_same_x g hg a (2 ^ i) ha hbad with hdvd | hdvd
          · have := Nat.le_of_dvd (by omega) hdvd
            omega
          · obtain ⟨q, hq⟩ := hdvd
            have hq1 : q = 1 := by
              rcases q with _ | _ | q
              · omega
              · rfl
              · have : groupOrder * 2 ≤ groupOrder * (q + 1 + 1) := Nat.mul_le_mul_left _ (by omega)
                have : 2 ^ i * 1 ≤ 2 ^ i * e := Nat.mul_le_mul_left _ (by omega)
                omega
            rw [hq1, mul_one] at hq
            have hsum0 : 2 ^ (i + 1) * (e / 2) = 0 ∨ 2 ^ (i + 1) ≤ 2 ^ (i + 1) * (e / 2) := by
              rcases Nat.eq_zero_or_pos (e / 2) with h | h
              · exact .inl (by rw [h, mul_zero])
              · exact .inr (Nat.le_mul_of_pos_right _ h)
            rcases hsum0 with h | h
            · exact hne (by rw [hsum, h, add_zero, hq])
            · omega
      · have he : e = 2 * (e / 2) := by omega
        have hsum : a + 2 ^ i * e = a + 2 ^ (i + 1) * (e / 2) := by
          conv_lhs => rw [he]
          rw [hp]
          ring
        rw [if_neg h1]
        simp only [except_bind_ok, hd]
        rw [hsum] at hlt hne ⊢
        exact ih (e / 2) (by omega) (i + 1) a acc x' y' (by omega) hlt hne hA hd''

/-- For every key below 2^256 but n, `fsmul` of G under `STRICT` is the multiple of G (R104). -/
theorem fsmul_G (cfg : Config) (hc : cfg.paddCoincident = .strict) (g : secp256k1.Point) (hg : Represents G g)
    (k : Nat) (hk : k < 2 ^ 256) (hn : k ≠ groupOrder) :
    ∃ R, fsmul cfg k G = .ok R ∧ Represents R (k • g) := by
  have h := smulFrom_G cfg hc g hg k 0 0 .inf GX GY (by simp) (by simpa using hk) (by simpa using hn)
    ((represents_inf _).2 (zero_nsmul g)) (by rw [pow_zero, one_nsmul]; exact hg)
  simpa [fsmul_eq_smulFrom, G] using h

/-- Where a·G and 2^i·G are opposite, the accumulation of bit i is the fault `CoincidentX`. -/
theorem fsmul_G_opposite (cfg : Config) (hc : cfg.paddCoincident = .strict) (i a : Nat) (hlt : a < 2 ^ i) (ha0 : 0 < a)
    (ha : a < groupOrder) (hsum : a + 2 ^ i = groupOrder) (h256 : a < 2 ^ 256) :
    fsmul cfg (2 ^ i + a) G = .error ⟨.coincidentX, 0⟩ := by
  obtain ⟨g, hg⟩ := exists_G
  obtain ⟨R, hR, hR'⟩ := fsmul_G cfg hc g hg a h256 ha.ne
  obtain ⟨x', y', hd, hd'⟩ := doubleTimes_represents i GX GY g hg
  rw [fsmul_eq_smulFrom] at hR
  rw [fsmul_eq_smulFrom, smulFrom_highBit cfg i _ _ _ (ranged_of_represents _ _ hg) hlt, hR]
  simp only [except_bind_ok, G, hd]
  have hopp : a • g = -((2 ^ i) • g) := by
    rw [eq_neg_iff_add_eq_zero, ← add_nsmul, nsmul_G_eq_zero_iff g hg, hsum]
  cases R with
  | inf =>
    rw [represents_inf, nsmul_G_eq_zero_iff g hg] at hR'
    exact absurd (Nat.le_of_dvd ha0 hR') (Nat.not_le.2 ha)
  | aff x y =>
    obtain rfl := same_x_of_represents _ _ _ _ _ _ hR' hd' (.inr hopp)
    exact fadd_strict_coincident cfg hc _ _ _

/-- For k = n it is the fault `CoincidentX`, at bit 255 (R104). -/
theorem fsmul_G_order (cfg : Config) (hc : cfg.paddCoincident = .strict) :
    fsmul cfg groupOrder G = .error ⟨.coincidentX, 0⟩ := by
  have h := fsmul_G_opposite cfg hc 255 (groupOrder - 2 ^ 255) (by decide +kernel) (by decide +kernel) (by decide +kernel)
    (by decide +kernel) (by decide +kernel)
  rwa [show 2 ^ 255 + (groupOrder - 2 ^ 255) = groupOrder by decide +kernel] at h

end Sys2Proof.Laws
end

