-- ==== Sys2Proof/Laws/Faults.lean ====
section
/-! SUPPORT. Everything each curve function can do: its answer, or its one fault (41_curve.md R109 to R113; 60_exceptions.md
R164 to R167). -/

namespace Sys2Proof.Laws

open Sys2Proof Sys2Proof.Machine

theorem ranged_inf : Ranged .inf := by intro x y h; cases h

theorem ranged_aff {x y : Nat} (hx : x < M) (hy : y < M) : Ranged (.aff x y) := by
  intro x' y' h
  cases h
  exact ⟨hx, hy⟩

theorem ranged_G : Ranged G := ranged_aff G_ranged.1 G_ranged.2

/-- `fadd` under `STRICT`, on points in range: a point in range, or `CoincidentX` where the x-coordinates agree (R110). -/
theorem fadd_cases (P Q : Point) (hP : Ranged P) (hQ : Ranged Q) :
    (∃ R, fadd hw P Q = .ok R ∧ Ranged R) ∨
    (fadd hw P Q = .error ⟨.coincidentX, 0⟩ ∧ ∃ x y1 y2, P = .aff x y1 ∧ Q = .aff x y2) := by
  cases P with
  | inf => exact .inl ⟨.inf, rfl, ranged_inf⟩
  | aff x1 y1 =>
    cases Q with
    | inf => exact .inl ⟨.inf, rfl, ranged_inf⟩
    | aff x2 y2 =>
      by_cases h : x1 = x2
      · subst h
        exact .inr ⟨fadd_strict_coincident hw rfl _ _ _, x1, y1, y2, rfl, rfl⟩
      · obtain ⟨hx1, -⟩ := hP _ _ rfl
        obtain ⟨hx2, -⟩ := hQ _ _ rfl
        obtain ⟨l, x', y', h1, -, -, h2⟩ := fadd_chord hw x1 y1 x2 y2
          (by rwa [Nat.mod_eq_of_lt hx1, Nat.mod_eq_of_lt hx2])
        exact .inl ⟨_, h1, ranged_aff h2.1 h2.2.1⟩

theorem accumulate_cases (acc sc : Point) (hA : Ranged acc) (hS : Ranged sc) :
    (∃ R, accumulate hw acc sc = .ok R ∧ Ranged R) ∨ accumulate hw acc sc = .error ⟨.coincidentX, 0⟩ := by
  cases acc with
  | inf => exact .inl ⟨sc, rfl, hS⟩
  | aff x y =>
    rcases fadd_cases (.aff x y) sc hA hS with h | h
    · exact .inl h
    · exact .inr h.1

/-- The loop of `fsmul`, on points in range: a point in range, or `CoincidentX` (R111). -/
theorem smulFrom_cases (e : Nat) : ∀ acc sc : Point, Ranged acc → Ranged sc →
    (∃ R, smulFrom hw e acc sc = .ok R ∧ Ranged R) ∨ smulFrom hw e acc sc = .error ⟨.coincidentX, 0⟩ := by
  induction e using Nat.strong_induction_on with
  | _ e ih =>
    intro acc sc hA hS
    by_cases h0 : e = 0
    · subst h0
      exact .inl ⟨acc, rfl, hA⟩
    · rw [smulFrom_pos _ _ _ _ h0]
      obtain ⟨sc', hd, hS'⟩ := fdouble_total sc hS
      unfold accumulateBit
      split
      · rcases accumulate_cases acc sc hA hS with ⟨R, hR, hR'⟩ | hR
        · rw [hR]
          simp only [except_bind_ok, hd]
          exact ih (e / 2) (by omega) R sc' hR' hS'
        · exact .inr (by rw [hR]; rfl)
      · simp only [except_bind_ok, hd]
        exact ih (e / 2) (by omega) acc sc' hA hS'

theorem fsmul_cases (k : Nat) (P : Point) (hP : Ranged P) :
    (∃ R, fsmul hw k P = .ok R ∧ Ranged R) ∨ fsmul hw k P = .error ⟨.coincidentX, 0⟩ :=
  smulFrom_cases k .inf P ranged_inf hP

/-- `foncurve` is the curve equation (R112). -/
theorem foncurve_aff (x y : Nat) : ∃ b : Bool, foncurve (.aff x y) = .ok b ∧ (b = true ↔ OnCurve x y) := by
  have := M_fact
  refine ⟨_, rfl, ?_⟩
  rw [beq_iff_eq, subm_eq_zero_iff, ← cast_eq_iff, subm_cast, mulm_cast, mulm_cast, mulm_cast, onCurve_cast]
  push_cast
  constructor <;> intro h <;> linear_combination h

section
variable [Fact (Nat.Prime M)]

theorem nsmul_G_ne_zero (g : secp256k1.Point) (hg : Represents G g) (k : Nat) (hk : k < 2 ^ 256) (h0 : k ≠ 0)
    (hn : k ≠ groupOrder) : k • g ≠ 0 := by
  rw [Ne, nsmul_G_eq_zero_iff g hg]
  rintro ⟨c, rfl⟩
  have h2 : 2 ^ 256 < 2 * groupOrder := by decide +kernel
  have hc : c ≠ 0 := by rintro rfl; simp at h0
  have hc1 : c ≠ 1 := by rintro rfl; simp at hn
  have : 2 * groupOrder ≤ groupOrder * c := by
    rw [Nat.mul_comm]
    exact Nat.mul_le_mul (le_refl _) (by omega)
  omega

/-- Everything `fderive` can do: the multiple of G, or one of two faults, each for one key (R113, R164, R166, R167). -/
theorem fderive_cases (g : secp256k1.Point) (hg : Represents G g) (k : Nat) (hk : k < 2 ^ 256) :
    (k = 0 ∧ fderive hw k = .error ⟨.infinityOperand, 0⟩) ∨
    (k = groupOrder ∧ fderive hw k = .error ⟨.coincidentX, 0⟩) ∨
    (k ≠ 0 ∧ k ≠ groupOrder ∧ ∃ x y, fderive hw k = .ok (.aff x y) ∧ Represents (.aff x y) (k • g)) := by
  by_cases h0 : k = 0
  · subst h0
    exact .inl ⟨rfl, rfl⟩
  · by_cases hn : k = groupOrder
    · subst hn
      refine .inr (.inl ⟨rfl, ?_⟩)
      unfold fderive
      rw [fsmul_G_order hw rfl]
      rfl
    · obtain ⟨R, hR, hR'⟩ := fsmul_G hw rfl g hg k hk hn
      have hne := nsmul_G_ne_zero g hg k hk h0 hn
      cases R with
      | inf => exact absurd ((represents_inf _).1 hR') hne
      | aff x y =>
        refine .inr (.inr ⟨h0, hn, x, y, ?_, hR'⟩)
        obtain ⟨b, hb, hb'⟩ := foncurve_aff x y
        have : b = true := hb'.2 (onCurve_of_represents _ _ _ hR').2.2
        subst this
        unfold fderive
        rw [hR]
        simp only [except_bind_ok, hb]
        rfl

end

/-- Everything `fderive` can do, without the group (R113). -/
theorem fderive_ranged (k : Nat) (hk : k < 2 ^ 256) :
    (∃ x y, fderive hw k = .ok (.aff x y) ∧ x < M ∧ y < M) ∨
    (∃ kind, fderive hw k = .error ⟨kind, 0⟩ ∧ (kind = .infinityOperand ∨ kind = .coincidentX)) := by
  have := M_fact
  obtain ⟨g, hg⟩ := exists_G
  rcases fderive_cases g hg k hk with ⟨-, h⟩ | ⟨-, h⟩ | ⟨-, -, x, y, h, h'⟩
  · exact .inr ⟨_, h, .inl rfl⟩
  · exact .inr ⟨_, h, .inr rfl⟩
  · obtain ⟨h1, h2, -⟩ := onCurve_of_represents _ _ _ h'
    exact .inl ⟨x, y, h, h1, h2⟩

end Sys2Proof.Laws
end

