-- ==== Sys2Proof/Laws/Exec.lean ====
section
/-! SUPPORT. Everything a completion can do, said once: the writes of its command, or one fault of the command's own
(45_system.md R146, 60_exceptions.md R160, R163). -/

namespace Sys2Proof.Laws

open Sys2Proof Sys2Proof.Machine

@[simp] theorem complete_ok (s s' : State) : complete s (.ok s') = .next (finish s') := rfl
@[simp] theorem complete_error (s : State) (f : Raised) : complete s (.error f) = .next (takeFault s f) := rfl

/-- The writes a command that ends without fault has made: the "destination" of its rule. -/
def Writes : Instr → State → State → Prop
  | .fclr, s, s' => s' = faultReturn s
  | .modmul d _ _, s, s' => ∃ v < 2 ^ 256, s' = writeR s d v
  | .modinv d _, s, s' => ∃ v < 2 ^ 256, s' = writeR s d v
  | .modpow d _ _, s, s' => ∃ v < 2 ^ 256, s' = writeR s d v
  | .pldg d, s, s' => ∃ P, Ranged P ∧ s' = writeP s d P
  | .pdbl d _, s, s' => ∃ P, Ranged P ∧ s' = writeP s d P
  | .padd d _ _, s, s' => ∃ P, Ranged P ∧ s' = writeP s d P
  | .smul d _ _, s, s' => ∃ P, Ranged P ∧ s' = writeP s d P
  | .oncurve _, s, s' => ∃ b, s' = writeT s b
  | .derive d _, s, s' => ∃ P, Ranged P ∧ s' = writeP s d P
  | .seqinit a b, s, s' => s' = writeEnd { s with seqK := readR s a, seqCnt := readR s b, seqIdx := 0 } false
  | .seqnext d, s, s' =>
    (s.seqCnt.toNat ≤ s.seqIdx.toNat ∧ s' = writeEnd s true) ∨
    (s.seqIdx.toNat < s.seqCnt.toNat ∧ ∃ P, seqPoint s = .ok P ∧
      s' = writeEnd { writeP s d P with seqCur := P.toReg, seqIdx := s.seqIdx + 1 } false)
  | .b58enc _, s, s' => ∃ b, b.length ≤ 64 ∧ s' = writeString s b
  | .b58dec d, s, s' => ∃ v < 2 ^ 256, s' = writeR s d v
  | .hashpk d _, s, s' => ∃ v < 2 ^ 256, s' = writeR s d v
  | .addrenc _ _ _, s, s' => ∃ b, b.length ≤ 64 ∧ s' = writeString s b
  | .addrdec d _, s, s' => ∃ v < 2 ^ 256, s' = writeR s d v
  | .addrgen _, s, s' => ∃ b, b.length ≤ 64 ∧ s' = writeString s b

/-- A fault that the command may raise, with an index where one is due and 0 elsewhere (R30, R160). -/
def FaultOf (i : Instr) (f : Raised) : Prop :=
  mayRaise i f.kind = true ∧ f.info.toNat < 64 ∧ (locates f.kind = false → f.info = 0)

/-- A result of a meaning: the command's writes, or one of its faults. -/
def ResultOf (i : Instr) (s : State) (res : Except Raised State) : Prop :=
  (∃ s', res = .ok s' ∧ Writes i s s') ∨ (∃ f, res = .error f ∧ FaultOf i f)

theorem resultOf_ok {i : Instr} {s s' : State} (h : Writes i s s') : ResultOf i s (.ok s') := .inl ⟨s', rfl, h⟩

theorem resultOf_zero {i : Instr} {s : State} {k : FaultKind} (h : mayRaise i k = true) : ResultOf i s (.error ⟨k, 0⟩) :=
  .inr ⟨_, rfl, h, by simp, fun _ => rfl⟩

theorem resultOf_char {i : Instr} {s : State} {f : Raised} {k : Nat} (hk : k < 64) (hi : f.info = BitVec.ofNat 32 k)
    (hl : f.kind = .invalidCharacter ∨ f.kind = .b58Overflow) (h1 : mayRaise i .invalidCharacter = true)
    (h2 : mayRaise i .b58Overflow = true) : ResultOf i s (.error f) := by
  refine .inr ⟨f, rfl, ?_, ?_, ?_⟩
  · rcases hl with h | h <;> rw [h] <;> assumption
  · rw [hi, BitVec.toNat_ofNat]
    omega
  · rcases hl with h | h <;> rw [h] <;> intro e <;> cases e

/-- Everything `rdpoint` can do, for what reads a point operand. -/
theorem rdpoint_cases (s : State) (j : RegIx) :
    (∃ P, rdpoint s j = .ok P ∧ Ranged P) ∨ rdpoint s j = .error ⟨.operandRange, 0⟩ := by
  rcases checked_cases (readP s j) with ⟨-, h⟩ | ⟨-, -, h⟩ | ⟨-, hx, hy, h⟩
  · exact .inl ⟨_, h, ranged_inf⟩
  · exact .inr h
  · exact .inl ⟨_, h, ranged_aff hx hy⟩

theorem rdstring_cases (s : State) :
    (64 < s.slen.toNat ∧ rdstring s = .error ⟨.operandRange, 0⟩) ∨
    (s.slen.toNat ≤ 64 ∧ rdstring s = .ok (readString s) ∧ (readString s).length ≤ 64) := by
  unfold rdstring
  by_cases h : 64 < s.slen.toNat
  · exact .inl ⟨h, if_pos h⟩
  · refine .inr ⟨by omega, if_neg h, ?_⟩
    simp only [readString, List.length_take, Vector.length_toList]
    omega

/-! ### Reading one operand, by what it holds -/

theorem rdpoint_inf (s : State) (j : RegIx) (h : (readP s j).inf = true) : rdpoint s j = .ok .inf := by
  unfold rdpoint PointReg.checked
  rw [h]
  rfl

theorem rdpoint_finite (s : State) (j : RegIx) (h : (readP s j).inf = false) (hr : InRange (readP s j)) :
    rdpoint s j = .ok (.aff (readP s j).x.toNat (readP s j).y.toNat) := by
  rcases checked_cases (readP s j) with ⟨h1, -⟩ | ⟨-, h1, -⟩ | ⟨-, -, -, h1⟩
  · rw [h] at h1
    cases h1
  · have := hr.1
    have := hr.2
    omega
  · exact h1

theorem rdpoint_outOfRange (s : State) (j : RegIx) (h : ¬ Readable (readP s j)) :
    rdpoint s j = .error ⟨.operandRange, 0⟩ := by
  rcases checked_cases (readP s j) with ⟨h1, -⟩ | ⟨-, -, h1⟩ | ⟨-, h1, h2, -⟩
  · exact absurd (.inl h1) h
  · exact h1
  · exact absurd (.inr ⟨h1, h2⟩) h

theorem rdpoint_readable (s : State) (j : RegIx) (h : Readable (readP s j)) : rdpoint s j = .ok (readP s j).point := by
  cases hi : (readP s j).inf
  · rcases h with h | h
    · rw [hi] at h
      cases h
    · rw [rdpoint_finite s j hi h]
      unfold PointReg.point
      rw [hi]
      rfl
  · rw [rdpoint_inf s j hi]
    unfold PointReg.point
    rw [hi]
    rfl

theorem ranged_point (q : PointReg) (h : Readable q) : Ranged q.point := by
  unfold PointReg.point
  cases hi : q.inf
  · rcases h with h | h
    · rw [hi] at h
      cases h
    · exact ranged_aff h.1 h.2
  · exact ranged_inf

theorem rdstring_long (s : State) (h : 64 < s.slen.toNat) : rdstring s = .error ⟨.operandRange, 0⟩ := if_pos h

theorem rdstring_short (s : State) (h : s.slen.toNat ≤ 64) : rdstring s = .ok (readString s) := if_neg (by omega)

/-! ### What one write leaves -/

theorem onlyIntReg_writeR (s : State) (d : RegIx) (v : Nat) : OnlyIntReg d s (finish (writeR s d v)) :=
  ⟨rfl, fun k hk => writeR_get_ne s d v k hk⟩

theorem onlyPointReg_writeP (s : State) (d : RegIx) (P : Point) : OnlyPointReg d s (finish (writeP s d P)) :=
  ⟨rfl, fun k hk => writeP_get_ne s d P k hk⟩

theorem toNat_readR_writeR (s : State) (d : RegIx) (v : Nat) (hv : v < 2 ^ 256) : (readR (writeR s d v) d).toNat = v := by
  rw [readR_writeR_same, BitVec.toNat_ofNat, Nat.mod_eq_of_lt hv]

/-- A finite point in range is stored as its coordinates. -/
theorem toReg_aff_fields (x y : Nat) (hx : x < M) (hy : y < M) :
    (Point.aff x y).toReg.inf = false ∧ (Point.aff x y).toReg.x.toNat = x ∧ (Point.aff x y).toReg.y.toNat = y := by
  refine ⟨rfl, ?_, ?_⟩
  · show (BitVec.ofNat 256 x).toNat = x
    rw [BitVec.toNat_ofNat, Nat.mod_eq_of_lt (lt_trans hx M_lt)]
  · show (BitVec.ofNat 256 y).toNat = y
    rw [BitVec.toNat_ofNat, Nat.mod_eq_of_lt (lt_trans hy M_lt)]

/-- A represented point is stored as itself. -/
theorem represents_toReg [Fact (Nat.Prime M)] (P : Point) (Q : secp256k1.Point) (h : Represents P Q) :
    Represents P.toReg.point Q := by
  cases P with
  | inf => exact h
  | aff x y =>
    obtain ⟨hx, hy, -⟩ := onCurve_of_represents _ _ _ h
    rwa [point_toReg_aff x y (lt_trans hx M_lt) (lt_trans hy M_lt)]

theorem holdsString_writeString (s : State) (b : List Byte) (h : b.length ≤ 64) : HoldsString (writeString s b) b := by
  refine ⟨h, ?_, fun i => writeString_get s b i⟩
  show (BitVec.ofNat 7 b.length).toNat = _
  rw [BitVec.toNat_ofNat, Nat.mod_eq_of_lt (by omega)]

theorem seqPoint_cases (s : State) (h : SeqCurInRange s) :
    (∃ P, seqPoint s = .ok P ∧ Ranged P) ∨
    (∃ k, seqPoint s = .error ⟨k, 0⟩ ∧ (k = .infinityOperand ∨ k = .coincidentX)) := by
  unfold seqPoint
  by_cases h0 : s.seqIdx = 0
  · rw [if_pos h0]
    rcases fderive_ranged s.seqK.toNat s.seqK.isLt with ⟨x, y, h, hx, hy⟩ | ⟨k, h, hk⟩
    · exact .inl ⟨_, h, ranged_aff hx hy⟩
    · exact .inr ⟨k, h, hk⟩
  · rw [if_neg h0]
    have hr : Ranged s.seqCur.point := by
      unfold PointReg.point
      cases hi : s.seqCur.inf
      · exact ranged_aff (h h0 hi).1 (h h0 hi).2
      · exact ranged_inf
    rcases fadd_cases _ _ hr ranged_G with h | ⟨h, -⟩
    · exact .inl h
    · exact .inr ⟨_, h, .inr rfl⟩

/-- The result each meaning hands to its completion. -/
def result (i : Instr) (s : State) : Except Raised State :=
  match i with
  | .fclr => .ok (faultReturn s)
  | .modmul d a b => .ok (writeR s d (mulm (readR s a).toNat (readR s b).toNat))
  | .modinv d a => finv (readR s a).toNat >>= fun y => pure (writeR s d y)
  | .modpow d a b => .ok (writeR s d (fpow (readR s a).toNat (readR s b).toNat))
  | .pldg d => .ok (writeP s d G)
  | .pdbl d a => rdpoint s a >>= fun P => fdouble P >>= fun Q => pure (writeP s d Q)
  | .padd d a b => rdpoint s a >>= fun P => rdpoint s b >>= fun Q => fadd hw P Q >>= fun R => pure (writeP s d R)
  | .smul d a b => rdpoint s b >>= fun P => fsmul hw (readR s a).toNat P >>= fun Q => pure (writeP s d Q)
  | .oncurve a => rdpoint s a >>= fun P => foncurve P >>= fun b => pure (writeT s b)
  | .derive d a => fderive hw (readR s a).toNat >>= fun Q => pure (writeP s d Q)
  | .seqinit a b => .ok (writeEnd { s with seqK := readR s a, seqCnt := readR s b, seqIdx := 0 } false)
  | .seqnext d =>
    if s.seqCnt.toNat ≤ s.seqIdx.toNat then .ok (writeEnd s true)
    else seqPoint s >>= fun Q => pure (writeEnd { writeP s d Q with seqCur := Q.toReg, seqIdx := s.seqIdx + 1 } false)
  | .b58enc a => .ok (writeString s (b58enc (readR s a).toNat))
  | .b58dec d => rdstring s >>= fun str => b58dec str 0 >>= fun v => pure (writeR s d v)
  | .hashpk d a => rdpoint s a >>= fun P => fhashpk hw P >>= fun h => pure (writeR s d (beInt h))
  | .addrenc a v c =>
    if 2 ^ 160 ≤ (readR s a).toNat then .error ⟨.operandRange, 0⟩
    else .ok (writeString s (faddrenc hw (beBytes 20 (readR s a).toNat) v c))
  | .addrdec d c => rdstring s >>= fun str => faddrdec hw str c >>= fun h => pure (writeR s d (beInt h))
  | .addrgen a => rdpoint s a >>= fun P => fhashpk hw P >>= fun h => pure (writeString s (faddrenc hw h 0x00#8 0x31#8))

/-- Every meaning is the completion of its result (R146). -/
theorem exec_eq (i : Instr) (s : State) : exec i s = complete s (result i s) := by cases i <;> rfl

/-! ### One lemma per command -/

variable (s : State)

theorem fclr_result : ResultOf .fclr s (result .fclr s) := resultOf_ok rfl

theorem modmul_result (d a b : RegIx) : ResultOf (.modmul d a b) s (result (.modmul d a b) s) :=
  resultOf_ok ⟨_, lt_trans (mulm_lt _ _) M_lt, rfl⟩

theorem modinv_result (d a : RegIx) : ResultOf (.modinv d a) s (result (.modinv d a) s) := by
  dsimp only [result]
  rcases finv_cases (readR s a).toNat with ⟨-, h⟩ | ⟨-, v, h, -, hv, -⟩ <;> rw [h]
  · exact resultOf_zero rfl
  · exact resultOf_ok ⟨v, lt_trans hv M_lt, rfl⟩

theorem modpow_result (d a b : RegIx) : ResultOf (.modpow d a b) s (result (.modpow d a b) s) :=
  resultOf_ok ⟨_, by rw [fpow_eq]; exact lt_trans (Nat.mod_lt _ M_pos) M_lt, rfl⟩

theorem pldg_result (d : RegIx) : ResultOf (.pldg d) s (result (.pldg d) s) :=
  resultOf_ok ⟨_, ranged_G, rfl⟩

theorem pdbl_result (d a : RegIx) : ResultOf (.pdbl d a) s (result (.pdbl d a) s) := by
  dsimp only [result]
  rcases rdpoint_cases s a with ⟨P, h, hP⟩ | h <;> rw [h]
  · obtain ⟨R, hR, hR'⟩ := fdouble_total P hP
    simp only [except_bind_ok, hR]
    exact resultOf_ok ⟨R, hR', rfl⟩
  · exact resultOf_zero rfl

theorem padd_result (d a b : RegIx) : ResultOf (.padd d a b) s (result (.padd d a b) s) := by
  dsimp only [result]
  rcases rdpoint_cases s a with ⟨P, h, hP⟩ | h <;> rw [h]
  · rcases rdpoint_cases s b with ⟨Q, h, hQ⟩ | h <;> rw [except_bind_ok, h]
    · rcases fadd_cases P Q hP hQ with ⟨R, hR, hR'⟩ | ⟨hR, -⟩ <;> rw [except_bind_ok, hR]
      · exact resultOf_ok ⟨R, hR', rfl⟩
      · exact resultOf_zero rfl
    · exact resultOf_zero rfl
  · exact resultOf_zero rfl

theorem smul_result (d a b : RegIx) : ResultOf (.smul d a b) s (result (.smul d a b) s) := by
  dsimp only [result]
  rcases rdpoint_cases s b with ⟨P, h, hP⟩ | h <;> rw [h]
  · rcases fsmul_cases (readR s a).toNat P hP with ⟨R, hR, hR'⟩ | hR <;> rw [except_bind_ok, hR]
    · exact resultOf_ok ⟨R, hR', rfl⟩
    · exact resultOf_zero rfl
  · exact resultOf_zero rfl

theorem oncurve_result (a : RegIx) : ResultOf (.oncurve a) s (result (.oncurve a) s) := by
  dsimp only [result]
  rcases rdpoint_cases s a with ⟨P, h, hP⟩ | h <;> rw [h]
  · cases P with
    | inf => exact resultOf_zero rfl
    | aff x y => exact resultOf_ok ⟨_, rfl⟩
  · exact resultOf_zero rfl

theorem derive_result (d a : RegIx) : ResultOf (.derive d a) s (result (.derive d a) s) := by
  dsimp only [result]
  rcases fderive_ranged (readR s a).toNat (readR s a).isLt with ⟨x, y, h, hx, hy⟩ | ⟨k, h, hk⟩ <;> rw [h]
  · exact resultOf_ok ⟨_, ranged_aff hx hy, rfl⟩
  · rcases hk with rfl | rfl <;> exact resultOf_zero rfl

theorem seqinit_result (a b : RegIx) : ResultOf (.seqinit a b) s (result (.seqinit a b) s) :=
  resultOf_ok rfl

theorem seqnext_result (d : RegIx) (hs : SeqCurInRange s) :
    ResultOf (.seqnext d) s (result (.seqnext d) s) := by
  dsimp only [result]
  by_cases h : s.seqCnt.toNat ≤ s.seqIdx.toNat
  · rw [if_pos h]
    exact resultOf_ok (.inl ⟨h, rfl⟩)
  · rw [if_neg h]
    rcases seqPoint_cases s hs with ⟨P, hP, -⟩ | ⟨k, hk, hk'⟩
    · rw [hP]
      exact resultOf_ok (.inr ⟨by omega, P, hP, rfl⟩)
    · rw [hk]
      rcases hk' with rfl | rfl <;> exact resultOf_zero rfl

theorem b58enc_result (a : RegIx) : ResultOf (.b58enc a) s (result (.b58enc a) s) :=
  resultOf_ok ⟨_, le_trans (b58enc_length_le _ (readR s a).isLt) (by decide), rfl⟩

theorem b58dec_result (d : RegIx) : ResultOf (.b58dec d) s (result (.b58dec d) s) := by
  dsimp only [result]
  rcases rdstring_cases s with ⟨-, h⟩ | ⟨-, h, hl⟩ <;> rw [h]
  · exact resultOf_zero rfl
  · rw [except_bind_ok]
    cases hd : b58dec (readString s) 0 with
    | error f =>
      obtain ⟨k, hk, hi, hf⟩ := b58dec_error _ _ _ hd
      rw [Nat.zero_add] at hi
      exact resultOf_char (by omega) hi hf rfl rfl
    | ok v => exact resultOf_ok ⟨v, b58dec_lt _ _ _ hd, rfl⟩

theorem hashpk_result (d a : RegIx) : ResultOf (.hashpk d a) s (result (.hashpk d a) s) := by
  dsimp only [result]
  rcases rdpoint_cases s a with ⟨P, h, hP⟩ | h <;> rw [h]
  · rcases fhashpk_cases P with ⟨-, h⟩ | ⟨b, h, -, hb⟩ <;> rw [except_bind_ok, h]
    · exact resultOf_zero rfl
    · exact resultOf_ok ⟨_, lt_trans hb (by norm_num), rfl⟩
  · exact resultOf_zero rfl

theorem addrenc_result (a : RegIx) (v c : Byte) :
    ResultOf (.addrenc a v c) s (result (.addrenc a v c) s) := by
  dsimp only [result]
  split
  · exact resultOf_zero rfl
  · exact resultOf_ok ⟨_, le_trans (faddrenc_length_le _ v c (beBytes_length _ _)) (by decide), rfl⟩

theorem addrdec_result (d : RegIx) (c : Byte) :
    ResultOf (.addrdec d c) s (result (.addrdec d c) s) := by
  dsimp only [result]
  rcases rdstring_cases s with ⟨-, h⟩ | ⟨-, h, hl⟩ <;> rw [h]
  · exact resultOf_zero rfl
  · rw [except_bind_ok]
    cases hd : faddrdec hw (readString s) c with
    | error f =>
      rcases faddrdec_error _ _ _ hd with ⟨k, hk, hi, hf⟩ | ⟨hi, hf⟩
      · exact resultOf_char (by omega) hi hf rfl rfl
      · obtain ⟨k, i⟩ := f
        dsimp only at hi hf
        subst hi
        rcases hf with rfl | rfl <;> exact resultOf_zero rfl
    | ok h =>
      have hlen := faddrdec_length _ _ _ hd
      exact resultOf_ok ⟨_, lt_of_lt_of_le (beInt_lt_of_length h 20 hlen) (by norm_num), rfl⟩

theorem addrgen_result (a : RegIx) : ResultOf (.addrgen a) s (result (.addrgen a) s) := by
  dsimp only [result]
  rcases rdpoint_cases s a with ⟨P, h, hP⟩ | h <;> rw [h]
  · rcases fhashpk_cases P with ⟨-, h⟩ | ⟨b, h, hb, -⟩ <;> rw [except_bind_ok, h]
    · exact resultOf_zero rfl
    · exact resultOf_ok ⟨_, le_trans (faddrenc_length_le b _ _ hb) (by decide), rfl⟩
  · exact resultOf_zero rfl

/-! ### All commands -/

/-- A result is the command's writes, or one of its faults. -/
theorem result_cases (i : Instr) (hs : SeqCurInRange s) : ResultOf i s (result i s) := by
  cases i with
  | fclr => exact fclr_result s
  | modmul d a b => exact modmul_result s d a b
  | modinv d a => exact modinv_result s d a
  | modpow d a b => exact modpow_result s d a b
  | pldg d => exact pldg_result s d
  | pdbl d a => exact pdbl_result s d a
  | padd d a b => exact padd_result s d a b
  | smul d a b => exact smul_result s d a b
  | oncurve a => exact oncurve_result s a
  | derive d a => exact derive_result s d a
  | seqinit a b => exact seqinit_result s a b
  | seqnext d => exact seqnext_result s d hs
  | b58enc a => exact b58enc_result s a
  | b58dec d => exact b58dec_result s d
  | hashpk d a => exact hashpk_result s d a
  | addrenc a v c => exact addrenc_result s a v c
  | addrdec d c => exact addrdec_result s d c
  | addrgen a => exact addrgen_result s a

theorem writes_of_resultOf {i : Instr} {s s' : State} (h : ResultOf i s (result i s)) (he : result i s = .ok s') :
    Writes i s s' := by
  rcases h with ⟨u, hu, hw⟩ | ⟨f, hf, -⟩
  · rw [he] at hu
    cases hu
    exact hw
  · rw [he] at hf
    cases hf

/-- What a command that ends without fault has written, in every state. -/
theorem result_writes (i : Instr) (s' : State) (he : result i s = .ok s') : Writes i s s' := by
  by_cases hi : ∃ d, i = .seqnext d
  · obtain ⟨d, rfl⟩ := hi
    dsimp only [result] at he
    by_cases h : s.seqCnt.toNat ≤ s.seqIdx.toNat
    · rw [if_pos h] at he
      exact .inl ⟨h, (Except.ok.inj he).symm⟩
    · rw [if_neg h, bind_eq_ok] at he
      obtain ⟨Q, hQ, he⟩ := he
      exact .inr ⟨by omega, Q, hQ, (Except.ok.inj he).symm⟩
  · refine writes_of_resultOf ?_ he
    cases i
    case seqnext d => exact absurd ⟨d, rfl⟩ hi
    case fclr => exact fclr_result s
    case modmul d a b => exact modmul_result s d a b
    case modinv d a => exact modinv_result s d a
    case modpow d a b => exact modpow_result s d a b
    case pldg d => exact pldg_result s d
    case pdbl d a => exact pdbl_result s d a
    case padd d a b => exact padd_result s d a b
    case smul d a b => exact smul_result s d a b
    case oncurve a => exact oncurve_result s a
    case derive d a => exact derive_result s d a
    case seqinit a b => exact seqinit_result s a b
    case b58enc a => exact b58enc_result s a
    case b58dec d => exact b58dec_result s d
    case hashpk d a => exact hashpk_result s d a
    case addrenc a v c => exact addrenc_result s a v c
    case addrdec d c => exact addrdec_result s d c
    case addrgen a => exact addrgen_result s a

/-- Everything a completion can do in any state: the command's writes and the end of the command, or a fault taken. -/
theorem exec_cases (i : Instr) :
    (∃ s', result i s = .ok s' ∧ exec i s = .next (finish s') ∧ Writes i s s') ∨
    (∃ f, result i s = .error f ∧ exec i s = .next (takeFault s f)) := by
  cases h : result i s with
  | ok s' => exact .inl ⟨s', rfl, by rw [exec_eq, h]; rfl, result_writes s i s' h⟩
  | error f => exact .inr ⟨f, rfl, by rw [exec_eq, h]; rfl⟩

/-- Where the last point of a started sequence is in range, a fault is one of the command's own. -/
theorem result_fault (i : Instr) (hs : SeqCurInRange s) (f : Raised) (he : result i s = .error f) : FaultOf i f := by
  rcases result_cases s i hs with ⟨s', h, -⟩ | ⟨g, h, hg⟩ <;> rw [he] at h <;> cases h
  exact hg

/-- The part of the state no command writes. -/
theorem writes_frame (i : Instr) (s' : State) (h : Writes i s s') :
    s'.cmd = s.cmd ∧ s'.busy = s.busy ∧ s'.done = s.done ∧ s'.inputs = s.inputs ∧ s'.answers = s.answers := by
  cases i
  case fclr => cases h; exact ⟨rfl, rfl, rfl, rfl, rfl⟩
  case seqinit => cases h; exact ⟨rfl, rfl, rfl, rfl, rfl⟩
  case oncurve => obtain ⟨b, rfl⟩ := h; exact ⟨rfl, rfl, rfl, rfl, rfl⟩
  case seqnext =>
    rcases h with ⟨-, rfl⟩ | ⟨-, P, -, rfl⟩
    · exact ⟨rfl, rfl, rfl, rfl, rfl⟩
    · exact ⟨rfl, rfl, rfl, rfl, rfl⟩
  all_goals
    obtain ⟨b, -, rfl⟩ := h
    exact ⟨rfl, rfl, rfl, rfl, rfl⟩

end Sys2Proof.Laws
end

