-- ==== Sys2Proof/Laws/PerInstr.lean ====
section
/-! SUPPORT. Statements for all commands, made per command: the round trip of the encoding. -/

namespace Sys2Proof.Laws.RoundTrip

open Sys2Proof

/-- Decoding the word of a well-formed command gives the command back, every operand at every value (30_encoding.md R71 to
R75). -/
def Statement (i : Instr) : Prop := i.wf = true → decode (encode i) = some i

theorem fclr : Statement .fclr := fun _ => by decide +kernel
theorem modmul (rd ra rb : RegIx) : Statement (.modmul rd ra rb) := fun h => by
  simp_all [Instr.wf, decode, encode]
theorem modinv (rd ra : RegIx) : Statement (.modinv rd ra) := fun h => by simp_all [Instr.wf, decode, encode]
theorem modpow (rd ra rb : RegIx) : Statement (.modpow rd ra rb) := fun h => by
  simp_all [Instr.wf, decode, encode]
theorem pldg (pd : RegIx) : Statement (.pldg pd) := fun h => by simp_all [Instr.wf, decode, encode]
theorem pdbl (pd pa : RegIx) : Statement (.pdbl pd pa) := fun h => by simp_all [Instr.wf, decode, encode]
theorem padd (pd pa pb : RegIx) : Statement (.padd pd pa pb) := fun h => by simp_all [Instr.wf, decode, encode]
theorem smul (pd ra pb : RegIx) : Statement (.smul pd ra pb) := fun h => by simp_all [Instr.wf, decode, encode]
theorem oncurve (pa : RegIx) : Statement (.oncurve pa) := fun h => by simp_all [Instr.wf, decode, encode]
theorem derive (pd ra : RegIx) : Statement (.derive pd ra) := fun h => by simp_all [Instr.wf, decode, encode]
theorem seqinit (ra rb : RegIx) : Statement (.seqinit ra rb) := fun h => by simp_all [Instr.wf, decode, encode]
theorem seqnext (pd : RegIx) : Statement (.seqnext pd) := fun h => by simp_all [Instr.wf, decode, encode]
theorem b58enc (ra : RegIx) : Statement (.b58enc ra) := fun h => by simp_all [Instr.wf, decode, encode]
theorem b58dec (rd : RegIx) : Statement (.b58dec rd) := fun h => by simp_all [Instr.wf, decode, encode]
theorem hashpk (rd pa : RegIx) : Statement (.hashpk rd pa) := fun h => by simp_all [Instr.wf, decode, encode]
theorem addrenc (ra : RegIx) (v c : Byte) : Statement (.addrenc ra v c) := fun h => by
  simp_all [Instr.wf, decode, encode]
theorem addrdec (rd : RegIx) (c : Byte) : Statement (.addrdec rd c) := fun h => by
  simp_all [Instr.wf, decode, encode]
theorem addrgen (pa : RegIx) : Statement (.addrgen pa) := fun h => by simp_all [Instr.wf, decode, encode]

end Sys2Proof.Laws.RoundTrip
end

