-- ==== Sys2Proof/Laws/Port.lean ====
section
/-! SUPPORT. The register port: where each word is (20_memory.md R51), what a write stores and what a read then gives (R53,
R54), and everything a host write can do. -/

namespace Sys2Proof.Laws

open Sys2Proof Sys2Proof.Machine

/-! ### The address map (R51) -/

@[simp] theorem portMap_rAddr : ∀ i w : Fin 8, portMap (rAddr i w) = .rWord i w := by decide +kernel
@[simp] theorem portMap_xAddr : ∀ (j : Fin 4) (w : Fin 8), portMap (xAddr j w) = .xWord j w := by decide +kernel
@[simp] theorem portMap_yAddr : ∀ (j : Fin 4) (w : Fin 8), portMap (yAddr j w) = .yWord j w := by decide +kernel
@[simp] theorem portMap_sAddr : ∀ k : Fin 16, portMap (sAddr k) = .sWord k := by decide +kernel
@[simp] theorem portMap_cmd : portMap 0x000#10 = .cmd := by decide
@[simp] theorem portMap_status : portMap 0x001#10 = .status := by decide
@[simp] theorem portMap_fcode : portMap 0x002#10 = .fcode := by decide
@[simp] theorem portMap_finfo : portMap 0x003#10 = .finfo := by decide
@[simp] theorem portMap_pinf : portMap 0x004#10 = .pinf := by decide
@[simp] theorem portMap_slen : portMap 0x005#10 = .slen := by decide

/-- The only address of `CMD` is 0x000. -/
theorem portMap_cmd_iff (a : PortAddr) : portMap a = .cmd ↔ a = 0x000#10 := by
  constructor
  · intro h
    by_contra hne
    have hn : a.toNat ≠ 0 := fun e => hne (BitVec.eq_of_toNat_eq e)
    unfold portMap at h
    dsimp only at h
    rw [if_neg hn] at h
    revert h
    repeat' split
    all_goals intro h; cases h
  · rintro rfl
    exact portMap_cmd

/-! ### The string buffer -/

/-- A byte of the buffer after a write of word k (R54, R55). -/
theorem writeStringWord_get (s : State) (k : Fin 16) (w : Word) (i : Fin 64) :
    (writeStringWord s k w).str[i] = if i.val / 4 = k.val then laneOf w (i.val % 4) else s.str[i] := by
  have hk := k.isLt
  have hi := i.isLt
  simp only [writeStringWord, Fin.getElem_fin, Vector.getElem_set]
  by_cases h : i.val / 4 = k.val
  · rw [if_pos h]
    have h3 : i.val % 4 = 0 ∨ i.val % 4 = 1 ∨ i.val % 4 = 2 ∨ i.val % 4 = 3 := by omega
    rcases h3 with e | e | e | e <;> rw [e]
    · rw [if_neg (by omega), if_neg (by omega), if_neg (by omega), if_pos (by omega)]
    · rw [if_neg (by omega), if_neg (by omega), if_pos (by omega)]
    · rw [if_neg (by omega), if_pos (by omega)]
    · rw [if_pos (by omega)]
  · rw [if_neg h, if_neg (by omega), if_neg (by omega), if_neg (by omega), if_neg (by omega)]

/-- The `inf` bits after a write of `PINF`, the coordinates as before (R31). -/
theorem writePinf_get (s : State) (w : Word) (j : Fin 4) :
    (writePinf s w).p[j] = { s.p[j] with inf := w.getLsbD j.val } := by
  simp [writePinf]

/-! ### Everything a host write can do -/

/-- The data registers of `t` are other ones, and nothing else differs from `s`. -/
def DataOnly (s t : State) : Prop := t = { s with r := t.r, p := t.p, str := t.str, slen := t.slen }

/-- A host write is dropped while `BUSY = 1`; to `CMD` it is judged for acceptance; elsewhere it changes data registers at
most (R54, R56, R145). -/
theorem hostWrite_cases (s : State) (a : PortAddr) (w : Word) :
    (s.busy = true ∧ hostWrite s a w = { s with drop := true }) ∨
    (s.busy = false ∧ a = 0x000#10 ∧ hostWrite s a w = acceptWord s w) ∨
    (s.busy = false ∧ a ≠ 0x000#10 ∧ DataOnly s (hostWrite s a w)) := by
  unfold hostWrite
  by_cases hb : s.busy = true
  · exact .inl ⟨hb, by rw [if_pos hb]⟩
  · have hb' : s.busy = false := by simpa using hb
    rw [if_neg hb]
    right
    by_cases ha : a = 0x000#10
    · subst ha
      exact .inl ⟨hb', rfl, by simp⟩
    · have hc : portMap a ≠ .cmd := fun e => ha ((portMap_cmd_iff a).1 e)
      refine .inr ⟨hb', ha, ?_⟩
      cases hp : portMap a
      case cmd => exact absurd hp hc
      all_goals rfl

/-- Acceptance: the word is dropped, or it is accepted (R145 (b) and (c)). -/
theorem acceptWord_cases (s : State) (w : Word) :
    (s.fault = true ∧ w ≠ fclrWord ∧ acceptWord s w = { s with drop := true }) ∨
    ((s.fault = false ∨ w = fclrWord) ∧ acceptWord s w = { s with cmd := w, busy := true, done := false }) := by
  unfold acceptWord
  by_cases h : s.fault = true ∧ w ≠ fclrWord
  · exact .inl ⟨h.1, h.2, by rw [if_pos h]⟩
  · refine .inr ⟨?_, by rw [if_neg h]⟩
    by_cases hw : w = fclrWord
    · exact .inr hw
    · refine .inl ?_
      cases hf : s.fault
      · rfl
      · exact absurd ⟨hf, hw⟩ h

end Sys2Proof.Laws
end

