-- ==== Sys2Proof/Laws/Step.lean ====
section
/-! SUPPORT. Everything a step can do, said once (10_state.md R20, 45_system.md R145, R146, 70_reset_and_hazards.md R190). -/

namespace Sys2Proof.Laws

open Sys2Proof Sys2Proof.Machine

/-! ### One lemma per turn -/

/-- The turn of `CORE`. -/
theorem step_core (s : State) (rest : List HostEvent) (h : CoreMoves s rest) : step s = coreTurn { s with inputs := rest } := by
  rcases h with ⟨h, rfl⟩ | h
  · have : { s with inputs := [] } = s := by rw [← h]
    rw [this]
    unfold step
    rw [h]
  · unfold step
    rw [h]

/-- A host write. -/
theorem step_write (s : State) (a : PortAddr) (w : Word) (rest : List HostEvent) (h : s.inputs = .write a w :: rest) :
    step s = .next (hostWrite { s with inputs := rest } a w) := by
  unfold step
  rw [h]

/-- A host read. -/
theorem step_read (s : State) (a : PortAddr) (rest : List HostEvent) (h : s.inputs = .read a :: rest) :
    step s = .next (readEvent { s with inputs := rest } a) := by
  unfold step
  rw [h]

/-- A reset. -/
theorem step_reset (s : State) (d : Draws) (rest : List HostEvent) (h : s.inputs = .reset d :: rest) :
    step s = .next (resetEvent { s with inputs := rest } d) := by
  unfold step
  rw [h]

/-- The four kinds of turn. -/
theorem turn_cases (s : State) :
    (∃ rest, CoreMoves s rest) ∨ (∃ a rest, s.inputs = .read a :: rest) ∨ (∃ a w rest, s.inputs = .write a w :: rest) ∨
    (∃ d rest, s.inputs = .reset d :: rest) := by
  cases h : s.inputs with
  | nil => exact .inl ⟨[], .inl ⟨h, rfl⟩⟩
  | cons e rest =>
    cases e with
    | core => exact .inl ⟨rest, .inr h⟩
    | read a => exact .inr (.inl ⟨a, rest, rfl⟩)
    | write a w => exact .inr (.inr (.inl ⟨a, w, rest, rfl⟩))
    | reset d => exact .inr (.inr (.inr ⟨d, rest, rfl⟩))

/-! ### The turn of `CORE` -/

theorem coreTurn_idle (s : State) (h : s.busy = false) : coreTurn s = .next s := by simp [coreTurn, h]

theorem coreTurn_legal (s : State) (i : Instr) (hb : s.busy = true) (h : decode s.cmd = some i) : coreTurn s = exec i s := by
  simp [coreTurn, hb, completeStep, h]

theorem coreTurn_illegal (s : State) (hb : s.busy = true) (h : decode s.cmd = none) :
    coreTurn s = .next (takeFault s ⟨.illegalCommand, 0⟩) := by simp [coreTurn, hb, completeStep, h]

/-- Everything a turn of `CORE` can do: nothing while it is idle; the fault of an illegal word; the writes of a command, or a
fault it raises. -/
theorem coreTurn_cases (s : State) :
    (s.busy = false ∧ coreTurn s = .next s) ∨
    (s.busy = true ∧ decode s.cmd = none ∧ coreTurn s = .next (takeFault s ⟨.illegalCommand, 0⟩)) ∨
    (∃ i, s.busy = true ∧ decode s.cmd = some i ∧
      ((∃ s', result i s = .ok s' ∧ coreTurn s = .next (finish s') ∧ Writes i s s') ∨
       (∃ f, result i s = .error f ∧ coreTurn s = .next (takeFault s f)))) := by
  cases hb : s.busy
  · exact .inl ⟨rfl, coreTurn_idle s hb⟩
  · right
    cases hd : decode s.cmd with
    | none => exact .inl ⟨rfl, rfl, coreTurn_illegal s hb hd⟩
    | some i =>
      rw [coreTurn_legal s i hb hd]
      exact .inr ⟨i, rfl, rfl, exec_cases s i⟩

/-- A turn of `CORE` always answers a next state, and leaves the block idle. -/
theorem coreTurn_next (s : State) : ∃ t, coreTurn s = .next t ∧ t.busy = false ∧ t.inputs = s.inputs := by
  rcases coreTurn_cases s with ⟨hb, h⟩ | ⟨-, -, h⟩ | ⟨i, -, -, ⟨s', -, h, hw⟩ | ⟨f, -, h⟩⟩
  · exact ⟨s, h, hb, rfl⟩
  · exact ⟨_, h, rfl, rfl⟩
  · exact ⟨_, h, rfl, (writes_frame s i s' hw).2.2.2.1⟩
  · exact ⟨_, h, rfl, rfl⟩

/-! ### Runs -/

@[simp] theorem runFor_zero (s : State) : runFor 0 s = .next s := rfl

theorem runFor_succ (n : Nat) (s t : State) (h : step s = .next t) : runFor (n + 1) s = runFor n t := by
  have h' : core.step s = .next t := h
  show Host.Core.run core (n + 1) s = Host.Core.run core n t
  simp only [Host.Core.run, h']

/-! ### Issuing a command -/

@[simp] theorem decode_fclrWord : decode fclrWord = some .fclr := by decide +kernel

/-- The state between the acceptance of a word and its completion (R145). -/
def accepted (s : State) (w : Word) (rest : List HostEvent) : State :=
  { s with cmd := w, busy := true, done := false, inputs := rest }

/-- A write to `CMD` of an idle block that accepts it. -/
theorem hostWrite_accept (s : State) (w : Word) (hb : s.busy = false) (hf : s.fault = false ∨ w = fclrWord) :
    hostWrite s 0x000#10 w = { s with cmd := w, busy := true, done := false } := by
  rcases hostWrite_cases s 0x000#10 w with ⟨h, -⟩ | ⟨-, -, h⟩ | ⟨-, h, -⟩
  · rw [hb] at h
    cases h
  · rw [h]
    rcases acceptWord_cases s w with ⟨h1, h2, -⟩ | ⟨-, h3⟩
    · rcases hf with hf | hf
      · rw [hf] at h1
        cases h1
      · exact absurd hf h2
    · exact h3
  · exact absurd rfl h

/-- A word that is accepted and completes at once: two steps are the meaning of its command in the accepted state. -/
theorem runFor_issue (n : Nat) (s t : State) (w : Word) (i : Instr) (rest : List HostEvent) (hb : s.busy = false)
    (hf : s.fault = false ∨ w = fclrWord) (hd : decode w = some i)
    (hi : s.inputs = .write 0x000#10 w :: .core :: rest) (ht : exec i (accepted s w rest) = .next t) :
    runFor (n + 2) s = runFor n t := by
  have h1 : step s = .next (accepted s w (.core :: rest)) := by
    rw [step_write s _ _ _ hi, hostWrite_accept { s with inputs := .core :: rest } w hb hf]
    rfl
  have h2 : step (accepted s w (.core :: rest)) = .next t := by
    rw [step_core (accepted s w (.core :: rest)) rest (.inr rfl), ← ht]
    exact coreTurn_legal (accepted s w rest) i rfl hd
  rw [runFor_succ (n + 1) s _ h1, runFor_succ n _ _ h2]

end Sys2Proof.Laws
end

