-- ==== Sys2Proof/Tests/Slice0.lean ====
section
/-! SUPPORT. Tests: ill-formed commands, words written out from the encodings, a few steps with results of the spec's own
examples, and for every statement with hypotheses a state that meets them. -/

namespace Sys2Proof.Tests

/- One elaboration thread: each test evaluates in the kernel, and together they would ask for more stacks than there are. -/
set_option Elab.async false

open Sys2Proof Sys2Proof.Machine Sys2Proof.Laws

/-! ## Small states -/

/-- A block right after reset with one integer register set. -/
def withR (i : RegIx) (v : Nat) (s : State := State.reset) : State := writeR s i v
/-- ... with one point register set. -/
def withP (j : RegIx) (q : PointReg) (s : State := State.reset) : State := setPointReg s (pointIx j) q
/-- ... with a string in the buffer. -/
def withS (b : List Byte) (s : State := State.reset) : State := writeString s b
/-- ... with an accepted word and the turns to come. -/
def accepting (w : Word) (inputs : List HostEvent := []) (s : State := State.reset) : State :=
  { s with cmd := w, busy := true, done := false, inputs := inputs }
/-- ... with the turns to come. -/
def facing (inputs : List HostEvent) (s : State := State.reset) : State := { s with inputs := inputs }

/-- The next state, where there is one. -/
def out : Outcome → Option State
  | .next t => some t
  | .fault _ => none
  | .refused _ => none

/-- What a completion recorded: `FAULT`, `FCODE`, `FINFO`. -/
def record (o : Outcome) : Option (Bool × BitVec 8 × Word) := (out o).map (fun t => (t.fault, t.fcode, t.finfo))

/-- The generator in a register, its double and its triple (41_curve.md R102, R103). -/
def regG : PointReg := ⟨false, BitVec.ofNat 256 GX, BitVec.ofNat 256 GY⟩
def reg2G : PointReg := ⟨false, 0xC6047F9441ED7D6D3045406E95C07CD85C778E4B8CEF3CA7ABAC09B95C709EE5#256,
  0x1AE168FEA63DC339A3C58419466CEAEEF7F632653266D0E1236431A950CFE52A#256⟩
def reg3G : PointReg := ⟨false, 0xF9308A019258C31049344F85F89D5229B531C845836F99B08601F113BCE036F9#256,
  0x388F7B0F632DE8140FE337E62A37F3566500A99934C2231B6CB9FD7584B8E672#256⟩
/-- A finite point off the curve with y = 0 (R102), one whose x is M, and infinity with its coordinates out of range. -/
def regFlat : PointReg := ⟨false, 5, 0⟩
def regBig : PointReg := ⟨false, BitVec.ofNat 256 M, 0⟩
def regInf : PointReg := ⟨true, BitVec.allOnes 256, BitVec.allOnes 256⟩

/-- The hash160 of G, and "1EHNa6Q4Jz2uvNExL497mE43ikXhwF6kZm" in the byte codes of R120 (43_address.md R131, R134). -/
def hashG : Nat := 0x91B24BF9F5288532960AC687ABB035127B1D28A5
def addrG : List Byte :=
  [0x31, 0x45, 0x48, 0x4E, 0x61, 0x36, 0x51, 0x34, 0x4A, 0x7A, 0x32, 0x75, 0x76, 0x4E, 0x45, 0x78, 0x4C] ++
  [0x34, 0x39, 0x37, 0x6D, 0x45, 0x34, 0x33, 0x69, 0x6B, 0x58, 0x68, 0x77, 0x46, 0x36, 0x6B, 0x5A, 0x6D]
/-- The key and the public key of S1, the hash160 of S2 and its address string "17wz8ZB1My8KK6n9sHGrGtYiDeBCWm3GU"
(95_test_vectors.md section 1). -/
def keyS1 : Nat := 0xF8EF380D6C05116DBED78BFDD6E6625E57426AF9A082B81C2FA27B06984C11F3
def regS1 : PointReg := ⟨false, 0x71EE918BC19BB566E3A5F12C0CD0DE620BEC1025DA6E98951355EBBDE8727BE3#256,
  0x37B3650EFAD4190B7328B1156304F2E9E23DBB7F2DA50999DDE50EA73B4C2688#256⟩
def hashS2 : Nat := 0x0150651AD91330AD1913CB04912817A8D980C9AD
def addrS2 : List Byte :=
  [0x31, 0x37, 0x77, 0x7A, 0x38, 0x5A, 0x42, 0x31, 0x4D, 0x79, 0x38, 0x4B, 0x4B, 0x36, 0x6E, 0x39, 0x73] ++
  [0x48, 0x47, 0x72, 0x47, 0x74, 0x59, 0x69, 0x44, 0x65, 0x42, 0x43, 0x57, 0x6D, 0x33, 0x47, 0x55]
/-- "JEKNVnkbo3jma5nREBBJCDoXFVeKkD56V3xKrvRmWxFG", 2^256 − 1 (42_base58.md R121), without its last character. -/
def maxButLast : List Byte :=
  [0x4A, 0x45, 0x4B, 0x4E, 0x56, 0x6E, 0x6B, 0x62, 0x6F, 0x33, 0x6A, 0x6D, 0x61, 0x35, 0x6E, 0x52, 0x45, 0x42, 0x42, 0x4A, 0x43,
   0x44] ++
  [0x6F, 0x58, 0x46, 0x56, 0x65, 0x4B, 0x6B, 0x44, 0x35, 0x36, 0x56, 0x33, 0x78, 0x4B, 0x72, 0x76, 0x52, 0x6D, 0x57, 0x78, 0x46]

/-! ## Well-formedness (30_encoding.md R72) -/

theorem test_wf_refuses_field_commands :
    [Instr.modmul 8 0 0, .modmul 0 8 0, .modmul 0 0 8, .modinv 8 0, .modinv 0 15, .modpow 8 0 0, .modpow 0 9 0,
     .modpow 0 0 8].all (fun i => i.wf == false) = true := by decide
theorem test_wf_refuses_curve_commands :
    [Instr.pldg 4, .pdbl 4 0, .pdbl 0 4, .padd 4 0 0, .padd 0 4 0, .padd 0 0 4, .smul 4 0 0, .smul 0 8 0, .smul 0 0 4,
     .oncurve 4, .derive 4 0, .derive 0 8, .seqinit 8 0, .seqinit 0 8, .seqnext 4].all (fun i => i.wf == false) = true := by
  decide
theorem test_wf_refuses_string_commands :
    [Instr.b58enc 8, .b58dec 8, .hashpk 8 0, .hashpk 0 4, .addrenc 8 0 0x31#8, .addrdec 8 0x31#8, .addrgen 4].all
      (fun i => i.wf == false) = true := by decide
theorem test_wf_accepts_the_highest_indices :
    [Instr.fclr, .modmul 7 7 7, .padd 3 3 3, .smul 3 7 3, .addrenc 7 0xFF#8 0xFF#8, .addrdec 7 0x00#8].all
      (fun i => i.wf) = true := by decide

/-! ## Decoding: words written out field by field from R71 and R73 -/

theorem test_decode_fclr : decode (0b00000001#8 ++ 0b0000#4 ++ 0b0000#4 ++ 0b0000#4 ++ 0b000000000000#12) = some .fclr := by
  decide
theorem test_decode_modmul :
    decode (0b00010000#8 ++ 0b0010#4 ++ 0b0000#4 ++ 0b0001#4 ++ 0b000000000000#12) = some (.modmul 2 0 1) := by decide
theorem test_decode_modinv :
    decode (0b00010001#8 ++ 0b0111#4 ++ 0b0101#4 ++ 0b0000#4 ++ 0b000000000000#12) = some (.modinv 7 5) := by decide
theorem test_decode_modpow :
    decode (0b00010010#8 ++ 0b0100#4 ++ 0b0000#4 ++ 0b0001#4 ++ 0b000000000000#12) = some (.modpow 4 0 1) := by decide
theorem test_decode_pldg :
    decode (0b00100000#8 ++ 0b0011#4 ++ 0b0000#4 ++ 0b0000#4 ++ 0b000000000000#12) = some (.pldg 3) := by decide
theorem test_decode_pdbl :
    decode (0b00100001#8 ++ 0b0001#4 ++ 0b0010#4 ++ 0b0000#4 ++ 0b000000000000#12) = some (.pdbl 1 2) := by decide
theorem test_decode_padd :
    decode (0b00100010#8 ++ 0b0010#4 ++ 0b0001#4 ++ 0b0011#4 ++ 0b000000000000#12) = some (.padd 2 1 3) := by decide
theorem test_decode_smul :
    decode (0b00100011#8 ++ 0b0011#4 ++ 0b0110#4 ++ 0b0001#4 ++ 0b000000000000#12) = some (.smul 3 6 1) := by decide
theorem test_decode_oncurve :
    decode (0b00100100#8 ++ 0b0000#4 ++ 0b0011#4 ++ 0b0000#4 ++ 0b000000000000#12) = some (.oncurve 3) := by decide
theorem test_decode_derive :
    decode (0b00100101#8 ++ 0b0010#4 ++ 0b0111#4 ++ 0b0000#4 ++ 0b000000000000#12) = some (.derive 2 7) := by decide
theorem test_decode_seqinit :
    decode (0b00100110#8 ++ 0b0000#4 ++ 0b0101#4 ++ 0b0110#4 ++ 0b000000000000#12) = some (.seqinit 5 6) := by decide
theorem test_decode_seqnext :
    decode (0b00100111#8 ++ 0b0010#4 ++ 0b0000#4 ++ 0b0000#4 ++ 0b000000000000#12) = some (.seqnext 2) := by decide
theorem test_decode_b58enc :
    decode (0b00110000#8 ++ 0b0000#4 ++ 0b0110#4 ++ 0b0000#4 ++ 0b000000000000#12) = some (.b58enc 6) := by decide
theorem test_decode_b58dec :
    decode (0b00110001#8 ++ 0b0101#4 ++ 0b0000#4 ++ 0b0000#4 ++ 0b000000000000#12) = some (.b58dec 5) := by decide
theorem test_decode_hashpk :
    decode (0b01000000#8 ++ 0b0110#4 ++ 0b0011#4 ++ 0b0000#4 ++ 0b000000000000#12) = some (.hashpk 6 3) := by decide
theorem test_decode_addrenc :
    decode (0b01000001#8 ++ 0b0000#4 ++ 0b0010#4 ++ 0b00000101#8 ++ 0b00110001#8) = some (.addrenc 2 0x05#8 0x31#8) := by
  decide
theorem test_decode_addrdec :
    decode (0b01000010#8 ++ 0b0100#4 ++ 0b0000#4 ++ 0b00000000#8 ++ 0b10000001#8) = some (.addrdec 4 0x81#8) := by decide
theorem test_decode_addrgen :
    decode (0b01000011#8 ++ 0b0000#4 ++ 0b0001#4 ++ 0b0000#4 ++ 0b000000000000#12) = some (.addrgen 1) := by decide

/-- The 238 unassigned opcodes, other fields 0 (R76). -/
theorem test_decode_unassigned_opcodes : ((List.range 256).filter (fun o => decode (BitVec.ofNat 32 (o * 2 ^ 24)) == none)).length
    = 238 := by decide +kernel
/-- One bit too many in each kind of field: an index out of range, an unused field, bits 11:0, `v` of `ADDRDEC` (R76). -/
theorem test_decode_illegal_fields :
    [0x10800000#32, 0x10008000#32, 0x20400000#32, 0x22004000#32, 0x23380000#32, 0x24100000#32, 0x11001000#32, 0x01000001#32,
     0x10000800#32, 0x42000131#32, 0x42010031#32, 0x41100031#32].all (fun w => decode w == none) = true := by decide +kernel
theorem test_decodeTableWord : decodeTableWord 32 0x41020031 = some (.addrenc 2 0x00#8 0x31#8) := by decide +kernel
theorem test_withFetchWord_runs_next : (out (step (State.reset.withFetchWord 32 0x20000000))).map (fun t => readP t 0) =
    some regG := by decide +kernel
/-- `ADDRFOR` and the assembler lines of R78, R79, R141. -/
theorem test_addrfor_words : (addrfor 0 0).map encode = [0x25000000#32, 0x43000000#32] := by decide
theorem test_asm : (Instr.smul 3 0 0).asm = "SMUL p3, r0, p0" := by decide +kernel

/-! ## The port -/

/-- Loading 1 into r0 (R52), and the word of "1EHN" (R55). -/
theorem test_word_order : loadR 0 1 = (HostEvent.write 0x040#10 1#32) ::
    [0x041, 0x042, 0x043, 0x044, 0x045, 0x046, 0x047].map (fun a => .write (BitVec.ofNat 10 a) 0#32) := by decide +kernel
theorem test_string_lanes : hostRead (withS [0x31, 0x45, 0x48, 0x4E]) 0x0C0#10 = 0x4E484531#32 := by decide +kernel
theorem test_pinf_write_keeps_coordinates : (hostWrite (withP 1 regG) 0x004#10 0xFFFFFFFF#32).p[1].x = regG.x := by
  decide +kernel
theorem test_status_word : hostRead { State.reset with busy := true, drop := true, endFlag := true } 0x001#10 = 0x29#32 := by
  decide +kernel

/-- The constants, digit by digit as R7 prints them: M = 2^256 − 2^32 − 977, and G is on the curve. -/
theorem test_constants : M = 2 ^ 256 - 2 ^ 32 - 977 ∧ (GY * GY) % M = (GX * GX * GX + 7) % M ∧ GX / 2 ^ 224 = 0x79BE667E ∧
    GX % 2 ^ 32 = 0x16F81798 ∧ GY / 2 ^ 224 = 0x483ADA77 ∧ GY % 2 ^ 32 = 0xFB10D4B8 := by decide +kernel

/-! ## Commands: the spec's own examples (the rule of each command, and 95_test_vectors.md) -/

theorem test_modmul_reduces : (out (exec (.modmul 2 0 0) (withR 0 (2 ^ 256 - 1)))).map (fun t => readR t 2) =
    some 0x1000007A0000E8900#256 := by decide +kernel
theorem test_modmul_GX_GY : (out (exec (.modmul 2 0 1) (withR 0 GX (withR 1 GY)))).map (fun t => readR t 2) =
    some 0xFD3DC529C6EB60FB9D166034CF3C1A5A72324AA9DFD3428A56D7E1CE0179FD9B#256 := by decide +kernel
theorem test_modinv_three : (out (exec (.modinv 2 0) (withR 0 3))).map (fun t => readR t 2) =
    some 0xAAAAAAAAAAAAAAAAAAAAAAAAAAAAAAAAAAAAAAAAAAAAAAAAAAAAAAA9FFFFFD75#256 := by decide +kernel
theorem test_modinv_M_faults : record (exec (.modinv 2 0) (withR 0 M)) = some (true, 0x10#8, 0) := by decide +kernel
theorem test_modpow_two_256 : (out (exec (.modpow 4 0 1) (withR 0 2 (withR 1 256)))).map (fun t => readR t 4) =
    some 0x1000003D1#256 := by decide +kernel
theorem test_modpow_zero_zero : (out (exec (.modpow 4 0 1) State.reset)).map (fun t => readR t 4) = some 1#256 := by
  decide +kernel
theorem test_pdbl_G : (out (exec (.pdbl 1 0) (withP 0 regG))).map (fun t => readP t 1) = some reg2G := by decide +kernel
theorem test_pdbl_flat : (out (exec (.pdbl 1 0) (withP 0 regFlat))).map (fun t => readP t 1) = some ⟨true, 0, 0⟩ := by
  decide +kernel
theorem test_padd_2G_G : (out (exec (.padd 2 1 0) (withP 0 regG (withP 1 reg2G)))).map (fun t => readP t 2) = some reg3G := by
  decide +kernel
theorem test_padd_same_point_faults : record (exec (.padd 1 0 0) (withP 0 regG)) = some (true, 0x11#8, 0) := by
  decide +kernel
theorem test_smul_three : (out (exec (.smul 3 0 0) (withR 0 3 (withP 0 regG)))).map (fun t => readP t 3) = some reg3G := by
  decide +kernel
theorem test_smul_zero : (out (exec (.smul 3 0 0) (withP 0 regG))).map (fun t => readP t 3) = some ⟨true, 0, 0⟩ := by
  decide +kernel
theorem test_oncurve_G : (out (exec (.oncurve 0) (withP 0 regG))).map (fun t => t.t) = some true := by decide +kernel
theorem test_oncurve_off : (out (exec (.oncurve 0) (withP 0 ⟨false, regG.x, regG.y + 1⟩))).map (fun t => t.t) =
    some false := by decide +kernel
theorem test_derive_one : (out (exec (.derive 0 0) (withR 0 1))).map (fun t => readP t 0) = some regG := by decide +kernel
theorem test_derive_zero_faults : record (exec (.derive 0 0) State.reset) = some (true, 0x03#8, 0) := by decide +kernel
theorem test_seqinit : (out (exec (.seqinit 0 1) (withR 0 7 (withR 1 5)))).map (fun t => (t.seqK, t.seqCnt)) = some (7, 5) := by
  decide +kernel
theorem test_seqnext_after_2G : (out (exec (.seqnext 0) { State.reset with seqCnt := 5, seqIdx := 1, seqCur := reg2G })).map
    (fun t => (t.seqCur, t.seqIdx)) = some (reg3G, 2) := by decide +kernel
theorem test_seqnext_after_G_faults : record (exec (.seqnext 0) { State.reset with seqCnt := 5, seqIdx := 1, seqCur := regG }) =
    some (true, 0x11#8, 0) := by decide +kernel
theorem test_b58enc_255 : (out (exec (.b58enc 0) (withR 0 255))).map readString = some [0x35#8, 0x51#8] := by decide +kernel
theorem test_b58enc_max : (out (exec (.b58enc 0) (withR 0 (2 ^ 256 - 1)))).map readString = some (maxButLast ++ [0x47#8]) := by
  decide +kernel
theorem test_b58dec_bad_character : record (exec (.b58dec 1) (withS [0x35, 0x4F])) = some (true, 0x21#8, 1) := by
  decide +kernel
theorem test_b58dec_overflow : record (exec (.b58dec 1) (withS (maxButLast ++ [0x48#8]))) = some (true, 0x22#8, 43) := by
  decide +kernel
theorem test_hashpk_G : (out (exec (.hashpk 2 0) (withP 0 regG))).map (fun t => (readR t 2).toNat) = some hashG := by
  decide +kernel
theorem test_hashpk_infinity_faults : record (exec (.hashpk 2 0) (withP 0 regInf)) = some (true, 0x03#8, 0) := by
  decide +kernel
theorem test_addrenc_G : (out (exec (.addrenc 2 0x00#8 0x31#8) (withR 2 hashG))).map readString = some addrG := by
  decide +kernel
theorem test_addrenc_zero : (out (exec (.addrenc 0 0x00#8 0x31#8) State.reset)).map readString =
    some (List.replicate 21 0x31#8 ++ [0x34, 0x6F, 0x4C, 0x76, 0x54, 0x32]) := by decide +kernel
theorem test_addrdec_G : (out (exec (.addrdec 1 0x31#8) (withS addrG))).map (fun t => (readR t 1).toNat) = some hashG := by
  decide +kernel
theorem test_addrdec_changed_faults : record (exec (.addrdec 1 0x31#8) (withS (addrG.dropLast ++ [0x6E#8]))) =
    some (true, 0x30#8, 0) := by decide +kernel
theorem test_addrgen_G : (out (exec (.addrgen 0) (withP 0 regG))).map readString = some addrG := by decide +kernel
theorem test_addrgen_range_faults : record (exec (.addrgen 0) (withP 0 regBig)) = some (true, 0x02#8, 0) := by decide +kernel
theorem test_fclr : (out (exec .fclr { State.reset with fault := true, drop := true, fcode := 0x11, t := true })).map statusWord =
    some 0x12#32 := by decide +kernel

/-- The check values of the two hash functions (46_hash_collaborator.md R151, R152). -/
theorem test_sha256_empty : beInt (sha256 []) = 0xE3B0C44298FC1C149AFBF4C8996FB92427AE41E4649B934CA495991B7852B855 := by
  decide +kernel
theorem test_ripemd160_empty : beInt (ripemd160 []) = 0x9C1185A5C5E9FC54612808977EE8F548B2258D31 := by decide +kernel
theorem test_sha256_abc : beInt (sha256 [0x61, 0x62, 0x63]) =
    0xBA7816BF8F01CFEA414140DE5DAE2223B00361A396177A9CB410FF61F20015AD := by decide +kernel
theorem test_ripemd160_abc : beInt (ripemd160 [0x61, 0x62, 0x63]) = 0x8EB208F7E05D987A9B044A8E98C6B087F15A0BFC := by
  decide +kernel

/-- The chain of 95_test_vectors.md section 1 (R153). S1: `DERIVE` of the key gives the point. -/
theorem test_chain_key_to_point : (out (exec (.derive 0 0) (withR 0 keyS1))).map (fun t => readP t 0) = some regS1 := by
  decide +kernel
/-- S2, its intermediate values: the SHA-256 of the serialised point, the hash160 and the checksum. -/
theorem test_chain_point_to_hash : beInt (sha256 (serialise regS1.x.toNat regS1.y.toNat)) =
      0xBD738AC1A2E6389BB11011A37A82275A5BA67C28B8F374D5E5C5917D80C99FB7 ∧
    keyHash regS1.x.toNat regS1.y.toNat = hashS2 ∧ beInt (checksum hw (0x00#8 :: beBytes 20 hashS2)) = 0x7C4E6259 := by
  decide +kernel
/-- S2: `ADDRGEN` of the point gives the address string, `SLEN = 33`. -/
theorem test_chain_point_to_address : (out (exec (.addrgen 0) (withP 0 regS1))).map (fun t => (readString t, t.slen)) =
    some (addrS2, 33) := by decide +kernel
/-- S3, its intermediate values for the generator. -/
theorem test_chain_generator : beInt (sha256 (serialise GX GY)) =
      0x50929B74C1A04954B78B4B6035E97A5E078A5A0F28EC96D547BFEE9ACE803AC0 ∧
    beInt (sha256 (0x00#8 :: beBytes 20 hashG)) = 0x79FA926BF4AC874060B244D6E985C694233EED0D5562C0B88CDF37BFBB80B44F ∧
    beInt (sha256 (sha256 (0x00#8 :: beBytes 20 hashG))) =
      0x0074FFE0526D823BE09B39865422A1D6135AFC85AFB0A6863C58E9FE89989170 := by decide +kernel

/-! ## Witnesses: states that meet the hypotheses of the statements, clause by clause -/

theorem wit_IllegalWordFaults : (accepting 0x23380000#32).busy = true ∧ CoreMoves (accepting 0x23380000#32) [] ∧
    (opcodeRows.all (fun row => (accepting 0x23380000#32).cmd &&& row.2 != row.1)) = true :=
  ⟨rfl, .inl ⟨rfl, rfl⟩, by decide +kernel⟩
theorem wit_illegal_word_matches_no_row : ∀ k : Fin 18, ¬ MatchesRow k 0x23380000#32 := by
  intro k ⟨row, hr, h⟩
  have hall : opcodeRows.all (fun row => 0x23380000#32 &&& row.2 != row.1) = true := by decide +kernel
  have := List.all_eq_true.1 hall row (List.mem_of_getElem? hr)
  simp [h] at this
theorem wit_DecoderIsTheMatchMaskTable : MatchesRow 7 0x23300000#32 ∧ ¬ MatchesRow 7 0x23380000#32 :=
  ⟨⟨_, rfl, by decide⟩, wit_illegal_word_matches_no_row 7⟩
theorem wit_StepRunsTheAcceptedCommand : (accepting 0x20000000#32 [.core, .read 0]).busy = true ∧
    CoreMoves (accepting 0x20000000#32 [.core, .read 0]) [.read 0] ∧
    decode (accepting 0x20000000#32 [.core, .read 0]).cmd = some (.pldg 0) := ⟨rfl, .inr rfl, by decide +kernel⟩
/-- A write to `CMD` of an idle block makes `BUSY` 1; a read leaves it idle. -/
theorem wit_OnlyAWriteToCmdStartsACommand :
    ((out (step (facing [.write 0x000#10 0#32]))).map (fun t => t.busy)) = some true ∧
    ((out (step (facing [.read 0x001#10]))).map (fun t => t.answers)) = some [0#32] := by decide +kernel
theorem wit_AcceptanceOfACommandWord :
    (facing [.write 0x000#10 0x10000000#32] (accepting 0)).busy = true ∧
    (facing [.write 0x000#10 0x10000000#32] { State.reset with fault := true }).fault = true ∧
    (facing [.write 0x000#10 fclrWord] { State.reset with fault := true }).fault = true ∧
    (0x10000000#32 ≠ fclrWord) ∧ State.reset.fault = false := by decide
theorem wit_WriteWhileBusyIsDropped : (accepting 0x20000000#32 [.write 0x3FF#10 1#32]).busy = true ∧
    (accepting 0x20000000#32 [.write 0x3FF#10 1#32]).inputs = [.write 0x3FF#10 1#32] := ⟨rfl, rfl⟩
/-- The first and last address of every clause of `IdleWriteStoresTheWord` and `HostReadReturnsTheMappedWord`. -/
theorem wit_port_addresses : State.reset.busy = false ∧
    (rAddr 0 0).toNat = 0x040 ∧ (rAddr 7 7).toNat = 0x07F ∧ (xAddr 0 0).toNat = 0x080 ∧ (xAddr 3 7).toNat = 0x0B7 ∧
    (yAddr 0 0).toNat = 0x088 ∧ (yAddr 3 7).toNat = 0x0BF ∧ (sAddr 0).toNat = 0x0C0 ∧ (sAddr 15).toNat = 0x0CF ∧
    (0x004#10).toNat = 0x004 ∧ (0x005#10).toNat = 0x005 ∧ (0x001#10).toNat < 0x004 ∧ (0x006#10).toNat < 0x040 ∧
    (0x03F#10).toNat < 0x040 ∧ 0x0D0 ≤ (0x0D0#10).toNat ∧ 0x0D0 ≤ (0x3FF#10).toNat := by decide
theorem wit_HostReadReturnsTheMappedWord : (facing [.read 0x3FF#10]).inputs = [.read 0x3FF#10] := rfl
theorem wit_IdleWriteStoresTheWord : (facing [.write 0x040#10 9#32] { State.reset with fault := true }).busy = false ∧
    (0x040#10).toNat ≠ 0 := by decide
theorem wit_WrittenWordReadsBack : (facing [.write 0x0CF#10 7#32, .read 0x0CF#10]).busy = false ∧
    0x040 ≤ (0x0CF#10).toNat ∧ (0x0CF#10).toNat < 0x0D0 ∧ (0x040#10).toNat = 0x040 ∧ (0x004#10).toNat = 0x004 ∧
    (0x005#10).toNat = 0x005 ∧ (facing [.write 0x005#10 7#32, .read 0x005#10]).busy = false := by decide
theorem wit_LoadPutsTheValueInTheRegister : (facing (loadR 7 1)).busy = false ∧
    (facing (loadP 3 1 2 (hostRead State.reset 0x004#10))).inputs = loadP 3 1 2 (hostRead
      (facing (loadP 3 1 2 (hostRead State.reset 0x004#10))) 0x004#10) ++ [] := by decide +kernel
theorem wit_HostCannotRaceACommand : (accepting 0x20000000#32 [.read 1, .write 0 5, .core]).busy = true ∧
    (∀ e ∈ [HostEvent.read 1, .write 0 5], IsAccess e) ∧
    (step { accepting 0x20000000#32 [.read 1, .write 0 5, .core] with inputs := [.core] }) =
      .next (finish (writeP (accepting 0x20000000#32) 0 G)) := by
  refine ⟨rfl, ?_, by rw [step_core _ [] (.inr rfl)]; exact coreTurn_legal _ (.pldg 0) rfl (by decide +kernel)⟩
  intro e he
  rcases List.mem_cons.1 he with rfl | he
  · trivial
  · rw [List.mem_singleton.1 he]
    trivial
theorem wit_FaultingCompletionWritesNothingElse : SeqCurInRange State.reset ∧ State.reset.fault = false ∧
    (out (exec (.modinv 0 0) State.reset)).map (fun t => t.fault) = some true :=
  ⟨fun h => absurd rfl h, rfl, by decide +kernel⟩
theorem wit_illegal_completion : decode State.reset.cmd = none := by decide +kernel
theorem wit_FclrAcknowledgesTheFault :
    (facing [.write 0x000#10 0x01000000#32, .core] { State.reset with fault := true, fcode := 0x10 }).busy = false ∧
    (0x01000001#32).extractLsb' 24 8 = 0x01#8 ∧ 0x01000001#32 ≠ 0x01000000#32 := by decide +kernel
theorem wit_StandingFaultBlocksEveryCommand : let s := facing [.write 0x000#10 0x20000000#32] { State.reset with fault := true }
    s.fault = true ∧ s.busy = false ∧ (out (step s)).map (fun t => (t.fault, t.drop)) = some (true, true) := by decide +kernel
/-- `MODINV` of 0 faults, and the word is issued again after `FCLR`. -/
theorem wit_SameCommandFaultsAgain :
    let s := accepting 0x11000000#32 [.write 0x000#10 0x01000000#32, .core, .write 0x000#10 0x11000000#32, .core]
    decode s.cmd = some (.modinv 0 0) ∧ s.fault = false ∧ s.busy = true ∧
      (out (exec (.modinv 0 0) s)).map (fun t => t.fault) = some true := by decide +kernel
/-- The invariants of a run at a state with a fault standing. -/
theorem wit_FaultRecordStaysCoherent :
    FaultRecordCoherent { State.reset with cmd := 0x11000000#32, fault := true, fcode := 0x10, done := true } ∧
    SeqCurInRange { State.reset with cmd := 0x11000000#32, fault := true, fcode := 0x10, done := true } := by
  refine ⟨⟨fun h => Bool.noConfusion h, fun _ => ⟨.noInverse, rfl, fun _ => ?_, by decide, fun _ => rfl⟩,
    fun _ h => Bool.noConfusion h, fun h => Bool.noConfusion h⟩, fun h => absurd rfl h⟩
  have hd : decode 0x11000000#32 = some (.modinv 0 0) := by decide +kernel
  simp [raisedBy, hd, mayRaise]
theorem wit_OnlyNamedCommandsWriteTheFlags :
    (out (exec (.oncurve 0) (withP 0 regG))).map (fun t => t.t) = some true ∧
    (out (exec (.seqnext 0) State.reset)).map (fun t => t.endFlag) = some true ∧
    (out (step (facing [.reset ⟨State.reset.r, State.reset.p, State.reset.str, 0, PointReg.zero⟩]
      { State.reset with t := true }))).map (fun t => t.t) = some false := by decide +kernel
theorem wit_ResetClearsTheControlState :
    (accepting 5#32 [.reset ⟨State.reset.r, State.reset.p, State.reset.str, 9, regInf⟩]).inputs =
      [.reset ⟨State.reset.r, State.reset.p, State.reset.str, 9, regInf⟩] := rfl
theorem wit_ResetThenDecodeOrSequence : isIntIx 7 = true ∧ isPointIx 3 = true := by decide
/-- Both sides of `ModinvIsTheInverseOrNoInverse`: 0, M, and their neighbours. -/
theorem wit_ModinvIsTheInverseOrNoInverse : (readR State.reset 0).toNat = 0 ∧ (readR (withR 0 M) 0).toNat = M ∧
    (readR (withR 0 1) 0).toNat ≠ 0 ∧ (readR (withR 0 (M + 1)) 0).toNat ≠ M := by decide +kernel
theorem wit_ModpowInvertsByFermat : (readR (withR 0 3 (withR 1 (M - 2))) 0).toNat % M ≠ 0 ∧
    (readR (withR 0 3 (withR 1 (M - 2))) 1).toNat = M - 2 ∧
    (out (exec (.modpow 2 0 1) (withR 0 3 (withR 1 (M - 2))))).isSome = true ∧
    (out (exec (.modinv 2 0) (withR 0 3 (withR 1 (M - 2))))).isSome = true := by decide +kernel
theorem inRange_G : InRange regG := ⟨by decide +kernel, by decide +kernel⟩
theorem notReadable_big : ¬ Readable regBig := by
  rintro (h | h)
  · cases h
  · exact absurd h.1 (by decide +kernel)
/-- Out of range, infinite, flat and finite operands (`Pdbl…`, `Padd…`, `Smul…`, `Oncurve…`, `Hashpk…`, `Addrgen…`). -/
theorem wit_point_operands : ¬ Readable (readP (withP 3 regBig) 3) ∧ (readP (withP 3 regInf) 3).inf = true ∧
    (InRange (readP (withP 3 regFlat) 3) ∧ (readP (withP 3 regFlat) 3).y = 0) ∧ (readP (withP 3 regG) 3).inf = false ∧
    InRange (readP (withP 3 regG) 3) ∧ (readP (withP 3 regG) 3).y ≠ 0 := by
  have h1 : readP (withP 3 regBig) 3 = regBig := by decide +kernel
  have h2 : readP (withP 3 regFlat) 3 = regFlat := by decide +kernel
  have h3 : readP (withP 3 regG) 3 = regG := by decide +kernel
  rw [h1, h2, h3]
  exact ⟨notReadable_big, by decide +kernel, ⟨⟨by decide +kernel, by decide +kernel⟩, rfl⟩, rfl, inRange_G,
    by decide +kernel⟩
theorem wit_PaddIsTheChordRule : readP (withP 0 regG (withP 1 reg2G)) 0 = regG ∧
    readP (withP 0 regG (withP 1 reg2G)) 1 = reg2G ∧ InRange regG ∧ InRange reg2G ∧ regG.x ≠ reg2G.x ∧ Readable regInf :=
  ⟨by decide +kernel, by decide +kernel, inRange_G, ⟨by decide +kernel, by decide +kernel⟩, by decide +kernel, .inl rfl⟩
theorem wit_CorrectedAdditionIsTheGroupSum [Fact (Nat.Prime M)] :
    ({ hw with paddCoincident := .corrected } : Config).paddCoincident = .corrected ∧
    ∃ Q : secp256k1.Point, Represents (.aff GX GY) Q := ⟨rfl, exists_G⟩
/-- The primality of M that the statements about the group take as an instance. -/
theorem wit_prime_instance : Fact (Nat.Prime M) := M_fact
theorem wit_SmulOfOneBitScalars : Readable (readP (withR 0 (2 ^ 255) (withP 0 regG)) 0) ∧
    (readR (withR 0 (2 ^ 255) (withP 0 regG)) 0).toNat = 2 ^ 255 ∧ (readR (withP 0 regG) 0).toNat = 0 ∧
    (readR (withR 0 1) 0).toNat = 2 ^ 0 := by
  have h : readP (withR 0 (2 ^ 255) (withP 0 regG)) 0 = regG := by decide +kernel
  rw [h]
  exact ⟨.inr inRange_G, by decide +kernel, by decide +kernel, by decide +kernel⟩
theorem wit_SmulAccumulatesTheHighestBitLast : Readable (readP (withR 0 3 (withP 0 regG)) 0) ∧
    (readR (withR 0 3 (withP 0 regG)) 0).toNat = 2 ^ 1 + 1 ∧ (1 : Nat) < 2 ^ 1 := by
  have h : readP (withR 0 3 (withP 0 regG)) 0 = regG := by decide +kernel
  rw [h]
  exact ⟨.inr inRange_G, by decide +kernel, by decide⟩
/-- For G and the scalar n bit 255 meets −(2^255·G); for the scalar 1 no bit meets anything. -/
theorem wit_SmulIsTheMultipleOrCoincidentX [Fact (Nat.Prime M)] : ∃ g : secp256k1.Point, Represents regG.point g ∧
    groupOrder.testBit 255 = true ∧ ((groupOrder % 2 ^ 255) • g : secp256k1.Point) = -((2 ^ 255) • g) ∧
    (∀ i : Nat, (1 : Nat).testBit i = true → ((1 : Nat) % 2 ^ i) • g ≠ (2 ^ i : Nat) • g ∧
      ((1 : Nat) % 2 ^ i) • g ≠ -((2 ^ i) • g)) := by
  obtain ⟨g, hg⟩ := exists_G
  have hp : regG.point = G := by decide +kernel
  refine ⟨g, hp ▸ hg, by decide +kernel, ?_, ?_⟩
  · rw [eq_neg_iff_add_eq_zero, ← add_nsmul, show groupOrder % 2 ^ 255 + 2 ^ 255 = groupOrder by decide +kernel]
    exact order_nsmul g hg
  · intro i hi
    have h0 : i = 0 := by
      by_contra hne
      have := Nat.testBit_lt_two_pow (x := 1) (i := i) (Nat.one_lt_two_pow hne)
      rw [this] at hi
      cases hi
    subst h0
    have hne := G_ne_zero g hg
    rw [pow_zero, Nat.mod_one, zero_nsmul, one_nsmul]
    exact ⟨hne.symm, fun h => hne (by simpa using h.symm)⟩
theorem wit_generator_operands [Fact (Nat.Prime M)] : (∃ g : secp256k1.Point, Represents G g) ∧
    readP (withR 0 groupOrder (withP 0 regG)) 0 = ⟨false, BitVec.ofNat 256 GX, BitVec.ofNat 256 GY⟩ ∧
    (readR (withR 0 groupOrder (withP 0 regG)) 0).toNat = groupOrder ∧ (readR (withR 0 (2 ^ 256 - 1)) 0).toNat ≠ groupOrder ∧
    (readR (withR 0 1) 0).toNat ≠ 0 := ⟨exists_G, by decide +kernel, by decide +kernel, by decide +kernel, by decide +kernel⟩
theorem wit_SeqnextReportsTheEnd : State.reset.seqCnt.toNat ≤ State.reset.seqIdx.toNat := by decide
/-- The three keys of `SeqnextDeliversTheDerivedKeyFirst`. -/
theorem wit_SeqnextDeliversTheDerivedKeyFirst :
    ({ State.reset with seqCnt := 1 } : State).seqIdx.toNat = 0 ∧ ({ State.reset with seqCnt := 1 } : State).seqCnt.toNat ≠ 0 ∧
    ({ State.reset with seqCnt := 1 } : State).seqK.toNat = 0 ∧
    ({ State.reset with seqCnt := 1, seqK := BitVec.ofNat 256 groupOrder } : State).seqK.toNat = groupOrder ∧
    ({ State.reset with seqCnt := 1, seqK := 1 } : State).seqK.toNat ≠ groupOrder := by decide +kernel
theorem wit_SeqnextAddsGAfterwards :
    let s : State := { State.reset with seqCnt := 2, seqIdx := 1, seqCur := reg2G }
    s.seqIdx.toNat ≠ 0 ∧ s.seqIdx.toNat < s.seqCnt.toNat ∧ s.seqCur.inf = false ∧ InRange s.seqCur ∧ s.seqCur.x.toNat ≠ GX ∧
      regG.x.toNat = GX := ⟨by decide, by decide, rfl, ⟨by decide +kernel, by decide +kernel⟩, by decide +kernel, by decide +kernel⟩
/-- A sequence that has delivered its first point, of key 1. -/
theorem wit_SequencePointsAreMultiplesOfG [Fact (Nat.Prime M)] :
    SequenceCoherent { State.reset with seqK := 1, seqCnt := 2, seqIdx := 1, seqCur := regG } := by
  obtain ⟨g, hg⟩ := exists_G
  refine ⟨by decide, fun _ => ⟨rfl, g, hg, ?_⟩⟩
  show Represents regG.point ((1 + 1 - 1) • g)
  have hp : regG.point = G := by decide +kernel
  rw [hp, one_nsmul]
  exact hg
theorem wit_OnlySequenceCommandsTouchTheSequence :
    (out (step (accepting 0x26001000#32 [] (withR 0 3)))).map (fun t => t.seqK) = some 3 := by decide +kernel
theorem wit_CommandsKeepPointsOnTheCurve :
    HoldsCurvePoint regG ∧ HoldsCurvePoint regInf ∧ (State.reset.seqIdx ≠ 0 → HoldsCurvePoint State.reset.seqCur) :=
  ⟨.inr ⟨inRange_G, by unfold OnCurve; decide +kernel⟩, .inl rfl, fun h => absurd rfl h⟩
/-- A string, its first bad character at index 1, its overflow at index 43, and a length out of range (`B58dec…`). -/
theorem wit_B58decReadsTheNumeral : readString (withS [0x35, 0x51]) = [4, 23].map code ∧
    AllDigits [4, 23] ∧ digitsValue [4, 23] < 2 ^ 256 ∧ readString (withS [0x35, 0x4F]) = [4].map code ++ 0x4F#8 :: [] ∧
    (∀ e, e < 58 → 0x4F#8 ≠ code e) ∧ 64 < ({ State.reset with slen := 65 } : State).slen.toNat ∧
    ({ State.reset with slen := 64 } : State).slen.toNat ≤ 64 := by
  refine ⟨by decide +kernel, by unfold AllDigits; decide, by decide +kernel, by decide +kernel, ?_, by decide, by decide⟩
  intro e he h
  have hd := digit_code e he
  rw [← h, show digit 0x4F#8 = none from by decide +kernel] at hd
  cases hd
theorem wit_b58_overflow : ∃ ds : List Nat, AllDigits ds ∧ digitsValue ds < 2 ^ 256 ∧ maxButLast = ds.map code ∧
    readString (withS (maxButLast ++ [0x48#8])) = ds.map code ++ code 16 :: [] ∧ 2 ^ 256 ≤ digitsValue ds * 58 + 16 :=
  ⟨maxButLast.filterMap digit, by unfold AllDigits; decide +kernel, by decide +kernel, by decide +kernel, by decide +kernel, by decide +kernel⟩
theorem wit_Base58RoundTrips : (out (exec (.b58enc 0) State.reset)).isSome = true ∧
    (out (exec (.b58dec 0) (withS [0x31, 0x7A]))).map (fun t => t.fault) = some false ∧
    readString (withS [0x31, 0x7A]) = List.replicate 1 0x31#8 ++ [57].map code ∧ [57].head? ≠ some 0 := by decide +kernel
theorem wit_AddrencWritesTheAddress : 2 ^ 160 ≤ (readR (withR 7 (2 ^ 160)) 7).toNat ∧
    (readR (withR 7 (2 ^ 160 - 1)) 7).toNat < 2 ^ 160 := by decide +kernel
/-- The four ends of `AddrdecReadsTheAddress`: a good checksum, a bad one, a number of 2^200, and a bad character after the
prefix. -/
theorem wit_AddrdecReadsTheAddress :
    (∃ ds : List Nat, AllDigits ds ∧ readString (withS addrG) = List.replicate 1 0x31#8 ++ ds.map code ∧
      (ds.map code).head? ≠ some 0x31#8 ∧ digitsValue ds < 2 ^ 200 ∧
      checkInt (beBytes 21 (digitsValue ds / 2 ^ 32)) = digitsValue ds % 2 ^ 32) ∧
    (checkInt (beBytes 21 (0 / 2 ^ 32)) ≠ 0 % 2 ^ 32 ∧ digitsValue [] = 0 ∧ readString State.reset = List.replicate 0 0x31#8 ++ []) ∧
    (∃ ds : List Nat, AllDigits ds ∧ digitsValue ds = 2 ^ 200 ∧ (b58enc (2 ^ 200)) = ds.map code ∧
      readString (withS (b58enc (2 ^ 200))) = List.replicate 0 0x31#8 ++ ds.map code ∧ (ds.map code).head? ≠ some 0x31#8) ∧
    readString (withS [0x31, 0x35, 0x4F]) = List.replicate 1 0x31#8 ++ ([4].map code ++ 0x4F#8 :: []) := by
  refine ⟨⟨(addrG.drop 1).filterMap digit, by unfold AllDigits; decide +kernel, by decide +kernel, by decide +kernel, by decide +kernel,
    by decide +kernel⟩, ⟨by decide +kernel, rfl, by decide +kernel⟩,
    ⟨(Nat.digits 58 (2 ^ 200)).reverse, ?_, ?_, b58enc_eq _, ?_, ?_⟩, by decide +kernel⟩
  · intro d hd
    exact Nat.digits_lt_base (by decide) (List.mem_reverse.1 hd)
  · rw [digitsValue_eq_ofDigits, List.reverse_reverse, Nat.ofDigits_digits]
  · rw [← b58enc_eq, List.replicate_zero, List.nil_append]
    exact readString_writeString _ _ (le_trans (b58enc_length_le _ (by norm_num)) (by decide))
  · rw [← b58enc_eq]
    decide +kernel
theorem wit_AddressRoundTrip : (∀ e, 1 ≤ e → e < 58 → 0x31#8 ≠ code e) ∧ (readR (withR 0 hashG) 0).toNat < 2 ^ 160 ∧
    (out (exec (.addrenc 0 0x05#8 0x31#8) (withR 0 hashG))).isSome = true := by
  refine ⟨?_, by decide +kernel, by decide +kernel⟩
  intro e h1 h2 h
  have := code_injective (d := 0) (e := e) (by decide) h2 (by rw [← h]; decide +kernel)
  omega
theorem wit_AddrgenIsHashpkThenAddrenc : State.reset.fault = false ∧
    (out (exec (.hashpk 2 0) (withP 0 regG))).map (fun t => t.fault) = some false ∧
    (out (exec (.hashpk 2 0) (withP 0 regInf))).map (fun t => t.fault) = some true := by decide +kernel
theorem wit_AddrforFailsAsAWhole : isPointIx 3 = true ∧ isIntIx 7 = true ∧
    (facing [.write 0x000#10 (encode (.derive 3 7)), .core, .write 0x000#10 (encode (.addrgen 3)), .core]).busy = false ∧
    (readR State.reset 7).toNat = 0 ∧ (readR (withR 7 1) 7).toNat ≠ groupOrder := by decide +kernel
/-- Two states that differ in everything `PADD` does not read. -/
theorem wit_ResultsDependOnOperandsOnly : SameOperands (.padd 2 0 1) (withP 0 regG (withP 1 reg2G))
    { withP 0 regG (withP 1 reg2G (withR 3 9)) with t := true, slen := 5 } ∧
    (out (exec (.padd 2 0 1) (withP 0 regG (withP 1 reg2G)))).map (fun t => t.fault) = some false :=
  ⟨⟨by decide +kernel, by decide +kernel⟩, by decide +kernel⟩

end Sys2Proof.Tests
end

/-! PROOFS. The family `10_state.md`: what a completion and a step can do, said by kind, and the invariants of a run. -/

namespace Sys2Proof.Proofs

open Sys2Proof Sys2Proof.Machine Sys2Proof.Laws

/-! ### What a completion without fault writes, by kind -/

/-- `Laws.Writes`, sorted by what is written and not by the command: each kind but the plain data writes names its command. -/
inductive WriteKind (i : Instr) (s : State) : State → Prop
  | faultRecord (hi : i = .fclr) : WriteKind i s (faultReturn s)
  | intReg (d : RegIx) (v : Nat) : WriteKind i s (writeR s d v)
  | pointReg (d : RegIx) (P : Point) : WriteKind i s (writeP s d P)
  | string (b : List Byte) : WriteKind i s (writeString s b)
  | truth (a : RegIx) (b : Bool) (hi : i = .oncurve a) : WriteKind i s (writeT s b)
  | seqStart (a b : RegIx) (hi : i = .seqinit a b) :
      WriteKind i s (writeEnd { s with seqK := readR s a, seqCnt := readR s b, seqIdx := 0 } false)
  | seqEnd (d : RegIx) (hi : i = .seqnext d) : WriteKind i s (writeEnd s true)
  | seqPoint (d : RegIx) (P : Point) (hi : i = .seqnext d) (hlt : s.seqIdx.toNat < s.seqCnt.toNat)
      (hP : seqPoint s = .ok P) :
      WriteKind i s (writeEnd { writeP s d P with seqCur := P.toReg, seqIdx := s.seqIdx + 1 } false)

theorem writeKind_of_writes {i : Instr} {s s' : State} (h : Writes i s s') : WriteKind i s s' := by
  cases i
  case fclr => cases h; exact .faultRecord rfl
  case oncurve a => obtain ⟨b, rfl⟩ := h; exact .truth a b rfl
  case seqinit a b => cases h; exact .seqStart a b rfl
  case seqnext d =>
    rcases h with ⟨-, rfl⟩ | ⟨hlt, P, hP, rfl⟩
    · exact .seqEnd d rfl
    · exact .seqPoint d P rfl hlt hP
  case pldg | pdbl | padd | smul | derive => obtain ⟨P, -, rfl⟩ := h; exact .pointReg _ P
  case b58enc | addrenc | addrgen => obtain ⟨b, -, rfl⟩ := h; exact .string b
  case modmul | modinv | modpow | b58dec | hashpk | addrdec => obtain ⟨v, -, rfl⟩ := h; exact .intReg _ v

/-- Only `FCLR` writes the fault record (R147). -/
theorem writes_faultRecord {i : Instr} {s s' : State} (h : Writes i s s') :
    (i = .fclr ∧ s' = faultReturn s) ∨ (i ≠ .fclr ∧ s'.fault = s.fault ∧ s'.fcode = s.fcode ∧ s'.finfo = s.finfo) := by
  by_cases hi : i = .fclr
  · subst hi
    exact .inl ⟨rfl, h⟩
  · cases writeKind_of_writes h with
    | faultRecord hf => exact absurd hf hi
    | _ => exact .inr ⟨hi, rfl, rfl, rfl⟩

/-- A completion without fault leaves no fault standing where none stood (R146). -/
theorem writes_fault_false {i : Instr} {s s' : State} (h : Writes i s s') (hf : s.fault = false) : s'.fault = false := by
  rcases writes_faultRecord h with ⟨-, rfl⟩ | ⟨-, hs, -⟩
  · rfl
  · rw [hs, hf]

/-- Only `ONCURVE` writes `T` (R27). -/
theorem writes_t {i : Instr} {s s' : State} (h : Writes i s s') : (∃ a, i = .oncurve a) ∨ s'.t = s.t := by
  cases writeKind_of_writes h with
  | truth a b hi => exact .inl ⟨a, hi⟩
  | _ => exact .inr rfl

/-- Only `SEQINIT` and `SEQNEXT` write `END` (R27). -/
theorem writes_endFlag {i : Instr} {s s' : State} (h : Writes i s s') :
    ((∃ a b, i = .seqinit a b) ∨ ∃ d, i = .seqnext d) ∨ s'.endFlag = s.endFlag := by
  cases writeKind_of_writes h with
  | seqStart a b hi => exact .inl (.inl ⟨a, b, hi⟩)
  | seqEnd d hi | seqPoint d P hi => exact .inl (.inr ⟨d, hi⟩)
  | _ => exact .inr rfl

/-- The two states hold the same sequence: the hidden registers of R33. -/
def SameSequence (s t : State) : Prop :=
  t.seqK = s.seqK ∧ t.seqCnt = s.seqCnt ∧ t.seqIdx = s.seqIdx ∧ t.seqCur = s.seqCur

/-- The sequence is as it was, or none is started, or the next point of one that has points left was produced (R107, R108). -/
def SequenceEffect (s t : State) : Prop :=
  SameSequence s t ∨ t.seqIdx = 0 ∨
  (s.seqIdx.toNat < s.seqCnt.toNat ∧ t.seqK = s.seqK ∧ t.seqCnt = s.seqCnt ∧ t.seqIdx = s.seqIdx + 1 ∧
    ∃ P, seqPoint s = .ok P ∧ t.seqCur = P.toReg)

theorem writes_sequence {i : Instr} {s s' : State} (h : Writes i s s') : SequenceEffect s s' := by
  cases writeKind_of_writes h with
  | seqStart => exact .inr (.inl rfl)
  | seqPoint d P hi hlt hP => exact .inr (.inr ⟨hlt, rfl, rfl, rfl, P, hP, rfl⟩)
  | _ => exact .inl ⟨rfl, rfl, rfl, rfl⟩

/-! ### What a step does, by who moves -/

/-- What a host access can do to the block (R53, R54, R56, R145). -/
inductive HostEffect (s : State) : State → Prop
  | read (a : PortAddr) : HostEffect s (readEvent s a)
  | dropped : HostEffect s { s with drop := true }
  | accepted (w : Word) (hf : s.fault = false ∨ w = fclrWord) :
      HostEffect s { s with cmd := w, busy := true, done := false }
  | stored (t : State) (ht : DataOnly s t) : HostEffect s t

theorem hostEffect_hostWrite (s : State) (a : PortAddr) (w : Word) : HostEffect s (hostWrite s a w) := by
  rcases hostWrite_cases s a w with ⟨-, h⟩ | ⟨-, -, h⟩ | ⟨-, -, h⟩
  · rw [h]
    exact .dropped
  · rw [h]
    rcases acceptWord_cases s w with ⟨-, -, h⟩ | ⟨hf, h⟩ <;> rw [h]
    · exact .dropped
    · exact .accepted w hf
  · exact .stored _ h

theorem hostEffect_flags {s t : State} (h : HostEffect s t) : t.t = s.t ∧ t.endFlag = s.endFlag := by
  cases h with
  | stored t ht => rw [ht]; exact ⟨rfl, rfl⟩
  | _ => exact ⟨rfl, rfl⟩

theorem hostEffect_sameSequence {s t : State} (h : HostEffect s t) : SameSequence s t := by
  cases h with
  | stored t ht => rw [ht]; exact ⟨rfl, rfl, rfl, rfl⟩
  | _ => exact ⟨rfl, rfl, rfl, rfl⟩

/-- Everything a step can do: a turn of `CORE`, a host access, or a reset; what moves has left `inputs` (R20). -/
theorem step_next_cases {s t : State} (h : step s = .next t) :
    ∃ rest, (CoreMoves s rest ∧ coreTurn { s with inputs := rest } = .next t) ∨
      HostEffect { s with inputs := rest } t ∨
      (∃ d, s.inputs = .reset d :: rest ∧ t = resetEvent { s with inputs := rest } d) := by
  rcases turn_cases s with ⟨rest, hm⟩ | ⟨a, rest, hm⟩ | ⟨a, w, rest, hm⟩ | ⟨d, rest, hm⟩
  · exact ⟨rest, .inl ⟨hm, by rw [← step_core s rest hm, h]⟩⟩
  · rw [step_read s a rest hm] at h
    cases h
    exact ⟨rest, .inr (.inl (.read a))⟩
  · rw [step_write s a w rest hm] at h
    cases h
    exact ⟨rest, .inr (.inl (hostEffect_hostWrite _ a w))⟩
  · rw [step_reset s d rest hm] at h
    cases h
    exact ⟨rest, .inr (.inr ⟨d, hm, rfl⟩)⟩

theorem coreTurn_sequence {s t : State} (h : coreTurn s = .next t) : SequenceEffect s t := by
  rcases coreTurn_cases s with ⟨-, he⟩ | ⟨-, -, he⟩ | ⟨i, -, -, ⟨s', -, he, hw⟩ | ⟨f, -, he⟩⟩ <;> rw [he] at h <;> cases h
  case inr.inr.inl => exact writes_sequence (s' := s') hw
  all_goals exact .inl ⟨rfl, rfl, rfl, rfl⟩

/-- Everything a step can do to the sequence. -/
theorem step_sequence {s t : State} (h : step s = .next t) : SequenceEffect s t := by
  obtain ⟨rest, ⟨-, ht⟩ | ht | ⟨d, -, rfl⟩⟩ := step_next_cases h
  · exact coreTurn_sequence (s := { s with inputs := rest }) ht
  · exact .inl (hostEffect_sameSequence (s := { s with inputs := rest }) ht)
  · exact .inr (.inl rfl)

/-! ### The fault record -/

/-- A fault of the word in `CMD` is recorded coherently (R160, R163). -/
theorem faultRecordCoherent_takeFault (s : State) (f : Raised) (hr : raisedBy s.cmd f.kind) (hi : f.info.toNat < 64)
    (hl : locates f.kind = false → f.info = 0) : FaultRecordCoherent (takeFault s f) :=
  ⟨nofun, fun _ => ⟨f.kind, rfl, fun _ => hr, hi, hl⟩, nofun, nofun⟩

/-- Where no fault stands, the record is coherent when it is clear. -/
theorem faultRecordCoherent_of_noFault {s : State} (hf : s.fault = false) (hc : s.fcode = 0) (hi : s.finfo = 0)
    (hb : s.busy = true → s.done = false) : FaultRecordCoherent s :=
  ⟨fun _ => ⟨hc, hi⟩, by simp [hf], by simp [hf], hb⟩

/-- A completion without fault leaves the record clear: only `FCLR` completes while a fault stands, and it clears it
(R147, R174). -/
theorem faultRecordCoherent_finish {i : Instr} {s s' : State} (h : FaultRecordCoherent s) (hb : s.busy = true)
    (hd : decode s.cmd = some i) (hw : Writes i s s') : FaultRecordCoherent (finish s') := by
  obtain ⟨hclear, -, hfclr, -⟩ := h
  rcases writes_faultRecord hw with ⟨-, rfl⟩ | ⟨hi, hf, hc, hinfo⟩
  · exact faultRecordCoherent_of_noFault rfl rfl rfl nofun
  · cases hs : s.fault
    · obtain ⟨hc0, hinfo0⟩ := hclear hs
      exact faultRecordCoherent_of_noFault (hf.trans hs) (hc.trans hc0) (hinfo.trans hinfo0) nofun
    · rw [hfclr hs hb, decode_fclrWord] at hd
      exact absurd (Option.some.inj hd).symm hi

theorem coreTurn_keeps_faultRecordCoherent {s t : State} (h : FaultRecordCoherent s) (hc : SeqCurInRange s)
    (ht : coreTurn s = .next t) : FaultRecordCoherent t := by
  rcases coreTurn_cases s with ⟨-, he⟩ | ⟨-, hd, he⟩ | ⟨i, hb, hd, ⟨s', -, he, hw⟩ | ⟨f, hf, he⟩⟩ <;> rw [he] at ht <;> cases ht
  · exact h
  · exact faultRecordCoherent_takeFault s _ (by simp [raisedBy, hd]) (by decide) (fun _ => rfl)
  · exact faultRecordCoherent_finish h hb hd hw
  · obtain ⟨hr, hinfo, hl⟩ := result_fault s i hc f hf
    exact faultRecordCoherent_takeFault s f (by simpa [raisedBy, hd] using hr) hinfo hl

/-- A host access starts only `FCLR` while a fault stands, and writes no part of the record (R145, R174). -/
theorem hostEffect_keeps_faultRecordCoherent {s t : State} (h : FaultRecordCoherent s) (ht : HostEffect s t) :
    FaultRecordCoherent t := by
  cases ht with
  | read | dropped => exact h
  | stored t ht => rw [ht]; exact h
  | accepted w hf =>
    obtain ⟨hclear, hset, -, -⟩ := h
    refine ⟨hclear, fun hs => ?_, fun hs _ => ?_, fun _ => rfl⟩
    · obtain ⟨k, hk, -, hinfo⟩ := hset hs
      exact ⟨k, hk, nofun, hinfo⟩
    · exact hf.resolve_left (by simpa using hs)

theorem faultRecordCoherent_resetEvent (s : State) (d : Draws) : FaultRecordCoherent (resetEvent s d) :=
  faultRecordCoherent_of_noFault rfl rfl rfl nofun

theorem step_keeps_faultRecordCoherent {s t : State} (hf : FaultRecordCoherent s) (hc : SeqCurInRange s)
    (h : step s = .next t) : FaultRecordCoherent t := by
  obtain ⟨rest, hmove⟩ := step_next_cases h
  have hf' : FaultRecordCoherent { s with inputs := rest } := hf
  have hc' : SeqCurInRange { s with inputs := rest } := hc
  rcases hmove with ⟨-, ht⟩ | ht | ⟨d, -, rfl⟩
  · exact coreTurn_keeps_faultRecordCoherent hf' hc' ht
  · exact hostEffect_keeps_faultRecordCoherent hf' ht
  · exact faultRecordCoherent_resetEvent _ d

/-! ### The range of the last point of the sequence -/

theorem seqCurInRange_of_notStarted {s : State} (h : s.seqIdx = 0) : SeqCurInRange s := fun h0 => absurd h h0

theorem inRange_toReg {P : Point} (hP : Ranged P) (hf : P.toReg.inf = false) : InRange P.toReg := by
  cases P with
  | inf => cases hf
  | aff x y =>
    obtain ⟨hx, hy⟩ := hP x y rfl
    obtain ⟨-, hx', hy'⟩ := toReg_aff_fields x y hx hy
    exact ⟨by rwa [hx'], by rwa [hy']⟩

theorem ranged_of_seqPoint {s : State} {P : Point} (h : SeqCurInRange s) (hP : seqPoint s = .ok P) : Ranged P := by
  rcases seqPoint_cases s h with ⟨Q, hQ, hr⟩ | ⟨k, hk, -⟩
  · rw [hP] at hQ
    cases hQ
    exact hr
  · rw [hP] at hk
    cases hk

theorem sequenceEffect_keeps_seqCurInRange {s t : State} (h : SeqCurInRange s) (he : SequenceEffect s t) :
    SeqCurInRange t := by
  rcases he with ⟨-, -, hidx, hcur⟩ | h0 | ⟨-, -, -, -, P, hP, hcur⟩
  · rwa [SeqCurInRange, hidx, hcur]
  · exact seqCurInRange_of_notStarted h0
  · intro _ hf
    rw [hcur] at hf ⊢
    exact inRange_toReg (ranged_of_seqPoint h hP) hf

/-- Settles O21: `CORE` records only a fault of the word in `CMD`, and the host accepts only `FCLR` while one stands. -/
theorem faultRecordStaysCoherent : Obligations.FaultRecordStaysCoherent :=
  fun _ _ hf hc h => ⟨step_keeps_faultRecordCoherent hf hc h, sequenceEffect_keeps_seqCurInRange hc (step_sequence h)⟩

/-- Settles O22: no fault stands and no sequence is started, whatever the draws. -/
theorem faultRecordCoherentAtReset : Obligations.FaultRecordCoherentAtReset :=
  ⟨fun s d => ⟨faultRecordCoherent_resetEvent s d, seqCurInRange_of_notStarted rfl⟩,
    faultRecordCoherent_of_noFault rfl rfl rfl nofun, seqCurInRange_of_notStarted rfl⟩

/-! ### The sequence -/

section
variable [Fact (Nat.Prime M)]

theorem sequenceCoherent_of_notStarted {s : State} (h : s.seqIdx = 0) : SequenceCoherent s :=
  ⟨by simp [h], fun h0 => absurd h h0⟩

/-- Adding G to a represented point answers the finite sum, or faults. -/
theorem fadd_G_ok {P R : Point} {Q g : secp256k1.Point} (hf : P ≠ .inf) (hP : Represents P Q) (hg : Represents G g)
    (h : fadd hw P G = .ok R) : ∃ x y, R = .aff x y ∧ Represents R (Q + g) := by
  cases P with
  | inf => exact absurd rfl hf
  | aff x1 y1 =>
    by_cases hx : x1 = GX
    · rw [hx, G, fadd_strict_coincident hw rfl] at h
      cases h
    · obtain ⟨x, y, ha, hR⟩ := fadd_represents hw x1 y1 GX GY Q g hP hg hx
      rw [G, ha] at h
      cases h
      exact ⟨x, y, rfl, hR⟩

/-- The point `SEQNEXT` produces is finite, and is (SEQK + i)·G for the count i so far (R108). -/
theorem seqPoint_represents {s : State} {P : Point} (h : SequenceCoherent s) (hP : seqPoint s = .ok P) :
    ∃ x y, P = .aff x y ∧ ∃ g : secp256k1.Point, Represents G g ∧ Represents P ((s.seqK.toNat + s.seqIdx.toNat) • g) := by
  unfold seqPoint at hP
  split at hP
  case isTrue h0 =>
    obtain ⟨g, hg⟩ := exists_G
    rcases fderive_cases g hg s.seqK.toNat s.seqK.isLt with ⟨-, he⟩ | ⟨-, he⟩ | ⟨-, -, x, y, he, hr⟩ <;> rw [he] at hP <;>
      cases hP
    exact ⟨x, y, rfl, g, hg, by simpa [h0] using hr⟩
  case isFalse h0 =>
    obtain ⟨-, hstarted⟩ := h
    obtain ⟨hinf, g, hg, hcur⟩ := hstarted h0
    obtain ⟨x, y, rfl, hr⟩ := fadd_G_ok (by simp [PointReg.point, hinf]) hcur hg hP
    refine ⟨x, y, rfl, g, hg, ?_⟩
    have hpos : s.seqIdx.toNat ≠ 0 := fun e => h0 (BitVec.eq_of_toNat_eq e)
    rwa [← succ_nsmul, show s.seqK.toNat + s.seqIdx.toNat - 1 + 1 = s.seqK.toNat + s.seqIdx.toNat by omega] at hr

theorem sequenceEffect_keeps_sequenceCoherent {s t : State} (h : SequenceCoherent s) (he : SequenceEffect s t) :
    SequenceCoherent t := by
  rcases he with ⟨hk, hcnt, hidx, hcur⟩ | h0 | ⟨hlt, hk, hcnt, hidx, P, hP, hcur⟩
  · rwa [SequenceCoherent, hk, hcnt, hidx, hcur]
  · exact sequenceCoherent_of_notStarted h0
  · have hsucc : t.seqIdx.toNat = s.seqIdx.toNat + 1 := by bv_omega
    obtain ⟨x, y, rfl, g, hg, hr⟩ := seqPoint_represents h hP
    refine ⟨by rw [hsucc, hcnt]; exact hlt, fun _ => ⟨by rw [hcur]; rfl, g, hg, ?_⟩⟩
    rw [hcur, hk, hsucc, ← Nat.add_assoc, Nat.add_sub_cancel]
    exact represents_toReg _ _ hr

end

/-- Settles O45: only `SEQNEXT` produces a point, the derived key first and then the last one plus G. -/
theorem sequencePointsAreMultiplesOfG : Obligations.SequencePointsAreMultiplesOfG :=
  fun {_} _ _ hs h => sequenceEffect_keeps_sequenceCoherent hs (step_sequence h)

/-- Settles O46: no sequence is started, whatever the draws. -/
theorem sequenceCoherentAtReset : Obligations.SequenceCoherentAtReset :=
  fun {_} => ⟨fun _ _ => sequenceCoherent_of_notStarted rfl, sequenceCoherent_of_notStarted rfl⟩

/-! ### Points of the curve -/

section
variable [Fact (Nat.Prime M)]

/-- The point value is infinity or a point of the curve (R16, R23). -/
def IsCurvePoint (P : Point) : Prop := ∃ Q : secp256k1.Point, Represents P Q

omit [Fact (Nat.Prime M)] in
theorem isCurvePoint_inf : IsCurvePoint .inf := ⟨.zero, trivial⟩

/-- A register holds a point of the curve just when its point value is one. -/
theorem holdsCurvePoint_iff (q : PointReg) : HoldsCurvePoint q ↔ IsCurvePoint q.point := by
  unfold HoldsCurvePoint PointReg.point
  cases q.inf with
  | true => simpa using isCurvePoint_inf
  | false =>
    constructor
    · rintro (h | ⟨⟨hx, hy⟩, hc⟩)
      · cases h
      · exact exists_represents _ _ hx hy hc
    · rintro ⟨Q, hQ⟩
      obtain ⟨hx, hy, hc⟩ := onCurve_of_represents _ _ _ hQ
      exact .inr ⟨⟨hx, hy⟩, hc⟩

theorem holdsCurvePoint_toReg {P : Point} (h : IsCurvePoint P) : HoldsCurvePoint P.toReg := by
  obtain ⟨Q, hQ⟩ := h
  exact (holdsCurvePoint_iff _).2 ⟨Q, represents_toReg P Q hQ⟩

/-- What `rdpoint` answers is the register's point value (R101). -/
theorem rdpoint_isCurvePoint {s : State} {j : RegIx} {P : Point} (h : HoldsCurvePoint (readP s j))
    (hP : rdpoint s j = .ok P) : IsCurvePoint P := by
  have hr : Readable (readP s j) := h.imp_right And.left
  rw [rdpoint_readable s j hr] at hP
  cases hP
  exact (holdsCurvePoint_iff _).1 h

theorem fdouble_isCurvePoint {P R : Point} (hP : IsCurvePoint P) (h : fdouble P = .ok R) : IsCurvePoint R := by
  obtain ⟨Q, hQ⟩ := hP
  obtain ⟨R', hR', hr⟩ := fdouble_represents P Q hQ
  rw [h] at hR'
  cases hR'
  exact ⟨_, hr⟩

theorem fadd_isCurvePoint {P Q R : Point} (hP : IsCurvePoint P) (hQ : IsCurvePoint Q) (h : fadd hw P Q = .ok R) :
    IsCurvePoint R := by
  match P, Q with
  | .inf, _ => cases h; exact isCurvePoint_inf
  | .aff _ _, .inf => cases h; exact isCurvePoint_inf
  | .aff x1 y1, .aff x2 y2 =>
    obtain ⟨p, hp⟩ := hP
    obtain ⟨q, hq⟩ := hQ
    by_cases hx : x1 = x2
    · rw [hx, fadd_strict_coincident hw rfl] at h
      cases h
    · obtain ⟨x, y, ha, hr⟩ := fadd_represents hw x1 y1 x2 y2 p q hp hq hx
      rw [ha] at h
      cases h
      exact ⟨_, hr⟩

theorem accumulateBit_isCurvePoint {e : Nat} {acc scale R : Point} (ha : IsCurvePoint acc) (hs : IsCurvePoint scale)
    (h : accumulateBit hw e acc scale = .ok R) : IsCurvePoint R := by
  unfold accumulateBit at h
  split at h
  · cases acc with
    | inf => cases h; exact hs
    | aff x y => exact fadd_isCurvePoint ha hs h
  · cases h
    exact ha

theorem smulFrom_isCurvePoint (e : Nat) : ∀ {acc scale R : Point}, IsCurvePoint acc → IsCurvePoint scale →
    smulFrom hw e acc scale = .ok R → IsCurvePoint R := by
  induction e using Nat.strong_induction_on with
  | _ e ih =>
    intro acc scale R ha hs h
    by_cases h0 : e = 0
    · subst h0
      cases h
      exact ha
    · rw [smulFrom_pos _ _ _ _ h0] at h
      obtain ⟨acc', hacc, h⟩ := bind_eq_ok.1 h
      obtain ⟨scale', hscale, h⟩ := bind_eq_ok.1 h
      exact ih (e / 2) (by omega) (accumulateBit_isCurvePoint ha hs hacc) (fdouble_isCurvePoint hs hscale) h

theorem fsmul_isCurvePoint {k : Nat} {P R : Point} (hP : IsCurvePoint P) (h : fsmul hw k P = .ok R) : IsCurvePoint R :=
  smulFrom_isCurvePoint k isCurvePoint_inf hP h

theorem fderive_isCurvePoint {k : Nat} {R : Point} (h : fderive hw k = .ok R) : IsCurvePoint R := by
  obtain ⟨Q, hQ, h⟩ := bind_eq_ok.1 h
  obtain ⟨ok, -, h⟩ := bind_eq_ok.1 h
  split at h <;> cases h
  exact fsmul_isCurvePoint exists_G hQ

/-! ### Commands keep the points on the curve -/

/-- Every point register, and the last point of a started sequence, holds a point of the curve. -/
def PointsOnCurve (s : State) : Prop :=
  (∀ j : Fin 4, HoldsCurvePoint s.p[j]) ∧ (s.seqIdx ≠ 0 → HoldsCurvePoint s.seqCur)

theorem pointsOnCurve_writeP {s : State} {P : Point} (d : RegIx) (h : PointsOnCurve s) (hP : IsCurvePoint P) :
    PointsOnCurve (writeP s d P) := by
  obtain ⟨hp, hcur⟩ := h
  refine ⟨fun j => ?_, hcur⟩
  by_cases hj : j = pointIx d
  · subst hj
    rw [show (writeP s d P).p[pointIx d] = P.toReg from readP_writeP_same s d P]
    exact holdsCurvePoint_toReg hP
  · rw [writeP_get_ne s d P j hj]
    exact hp j

theorem seqPoint_isCurvePoint {s : State} {P : Point} (h : PointsOnCurve s) (hP : seqPoint s = .ok P) : IsCurvePoint P := by
  obtain ⟨-, hcur⟩ := h
  unfold seqPoint at hP
  split at hP
  case isTrue => exact fderive_isCurvePoint hP
  case isFalse h0 => exact fadd_isCurvePoint ((holdsCurvePoint_iff _).1 (hcur h0)) exists_G hP

/-- The point a command computes for its destination is on the curve; a command that writes no point register keeps all. -/
theorem result_keeps_pointsOnCurve {i : Instr} {s s' : State} (h : PointsOnCurve s) (hr : result i s = .ok s') :
    PointsOnCurve s' := by
  have hread : ∀ a, HoldsCurvePoint (readP s a) := fun a => h.1 (pointIx a)
  cases i
  case pldg d => cases hr; exact pointsOnCurve_writeP d h exists_G
  case pdbl d a =>
    obtain ⟨P, hP, hr⟩ := bind_eq_ok.1 hr
    obtain ⟨R, hR, hr⟩ := bind_eq_ok.1 hr
    cases hr
    exact pointsOnCurve_writeP d h (fdouble_isCurvePoint (rdpoint_isCurvePoint (hread a) hP) hR)
  case padd d a b =>
    obtain ⟨P, hP, hr⟩ := bind_eq_ok.1 hr
    obtain ⟨Q, hQ, hr⟩ := bind_eq_ok.1 hr
    obtain ⟨R, hR, hr⟩ := bind_eq_ok.1 hr
    cases hr
    exact pointsOnCurve_writeP d h
      (fadd_isCurvePoint (rdpoint_isCurvePoint (hread a) hP) (rdpoint_isCurvePoint (hread b) hQ) hR)
  case smul d a b =>
    obtain ⟨P, hP, hr⟩ := bind_eq_ok.1 hr
    obtain ⟨R, hR, hr⟩ := bind_eq_ok.1 hr
    cases hr
    exact pointsOnCurve_writeP d h (fsmul_isCurvePoint (rdpoint_isCurvePoint (hread b) hP) hR)
  case derive d a =>
    obtain ⟨R, hR, hr⟩ := bind_eq_ok.1 hr
    cases hr
    exact pointsOnCurve_writeP d h (fderive_isCurvePoint hR)
  case fclr => cases hr; exact h
  case seqinit => cases hr; exact ⟨h.1, fun h0 => absurd rfl h0⟩
  case oncurve a => obtain ⟨b, rfl⟩ := result_writes s (.oncurve a) s' hr; exact h
  case seqnext d =>
    rcases result_writes s (.seqnext d) s' hr with ⟨-, rfl⟩ | ⟨-, P, hP, rfl⟩
    · exact h
    · have hP := seqPoint_isCurvePoint h hP
      exact ⟨(pointsOnCurve_writeP d h hP).1, fun _ => holdsCurvePoint_toReg hP⟩
  all_goals
    obtain ⟨_, -, rfl⟩ := result_writes s _ s' hr
    exact h

end

/-- Settles O48: every point operation gives a point of the curve from points of the curve, and a fault writes none. -/
theorem commandsKeepPointsOnTheCurve : Obligations.CommandsKeepPointsOnTheCurve := by
  intro i s t hp hcur h
  have := M_fact
  rcases exec_cases s i with ⟨s', hr, he, -⟩ | ⟨f, -, he⟩ <;> rw [he] at h <;> cases h
  · exact result_keeps_pointsOnCurve (s' := s') ⟨hp, hcur⟩ hr
  · exact ⟨hp, hcur⟩

/-! ### The two flags (R27) -/

/-- A turn of `CORE` that changes anything completes a command; a host access changes neither flag. -/
theorem step_flags {s t : State} (h : step s = .next t) :
    (t.t = s.t ∧ t.endFlag = s.endFlag) ∨ (s.busy = true ∧ CoreMoves s t.inputs) ∨ ∃ d, s.inputs = .reset d :: t.inputs := by
  obtain ⟨rest, ⟨hm, ht⟩ | ht | ⟨d, hd, rfl⟩⟩ := step_next_cases h
  · cases hb : s.busy
    · rw [coreTurn_idle { s with inputs := rest } hb] at ht
      cases ht
      exact .inl ⟨rfl, rfl⟩
    · obtain ⟨u, hu, -, hin⟩ := coreTurn_next { s with inputs := rest }
      rw [ht] at hu
      cases hu
      exact .inr (.inl ⟨rfl, hin ▸ hm⟩)
  · exact .inl (hostEffect_flags (s := { s with inputs := rest }) ht)
  · exact .inr (.inr ⟨d, hd⟩)

theorem exec_t {i : Instr} {s t : State} (h : exec i s = .next t) (ht : t.t ≠ s.t) : ∃ a, i = .oncurve a := by
  rcases exec_cases s i with ⟨s', -, he, hw⟩ | ⟨f, -, he⟩ <;> rw [he] at h <;> cases h
  · exact (writes_t hw).resolve_right ht
  · exact absurd rfl ht

theorem exec_endFlag {i : Instr} {s t : State} (h : exec i s = .next t) (ht : t.endFlag ≠ s.endFlag) :
    (∃ a b, i = .seqinit a b) ∨ ∃ d, i = .seqnext d := by
  rcases exec_cases s i with ⟨s', -, he, hw⟩ | ⟨f, -, he⟩ <;> rw [he] at h <;> cases h
  · exact (writes_endFlag hw).resolve_right ht
  · exact absurd rfl ht

/-- A completion that raises a fault writes neither flag (R163). -/
theorem exec_fault_flags {i : Instr} {s t : State} (h : exec i s = .next t) (hs : s.fault = false) (ht : t.fault = true) :
    t.t = s.t ∧ t.endFlag = s.endFlag := by
  rcases exec_cases s i with ⟨s', -, he, hw⟩ | ⟨f, -, he⟩ <;> rw [he] at h <;> cases h
  · rw [finish_fault, writes_fault_false hw hs] at ht
    cases ht
  · exact ⟨rfl, rfl⟩

/-- Settles O23: by what each completion writes, and by who moves. -/
theorem onlyNamedCommandsWriteTheFlags : Obligations.OnlyNamedCommandsWriteTheFlags := by
  refine ⟨fun i s t h => ⟨exec_t h, exec_endFlag h, exec_fault_flags h⟩, fun s t h hne => ?_⟩
  rcases step_flags h with ⟨ht, hend⟩ | hmove
  · exact absurd hne (by simp [ht, hend])
  · exact hmove

/-! ### Reset -/

/-- Settles O24: the step is the reset event. -/
theorem resetClearsTheControlState : Obligations.ResetClearsTheControlState := by
  intro s d rest h
  refine ⟨_, step_reset s d rest h, ?_⟩
  simp [resetEvent]

/-- The draws `State.reset` stands for: every one is 0 (log entry 1). -/
def zeroDraws : Draws where
  r := State.reset.r
  p := State.reset.p
  str := State.reset.str
  seqK := State.reset.seqK
  seqCur := State.reset.seqCur

/-- Settles O25: the draws are all 0. -/
theorem resetStateIsWhatAResetLeaves : Obligations.ResetStateIsWhatAResetLeaves := fun _ => ⟨zeroDraws, rfl⟩

end Sys2Proof.Proofs

/-! PROOFS. The family `20_memory.md`: what each address of the port reads and writes, the registers of eight words, the
writes of `LOAD`, and the accesses of a host that waits for a command. -/

namespace Sys2Proof.Proofs

open Sys2Proof Sys2Proof.Machine Sys2Proof.Laws

/-! ### The addresses of the words (R51) -/

/-- The ten bits of an address are those of its number. -/
theorem eq_addr {a : PortAddr} {n : Nat} (h : a.toNat = n) : a = BitVec.ofNat 10 n := by
  rw [← h, BitVec.ofNat_toNat, BitVec.setWidth_eq]

theorem eq_rAddr {a : PortAddr} {i k : Fin 8} (h : a.toNat = 0x040 + 8 * i.val + k.val) : a = rAddr i k := eq_addr h

theorem eq_xAddr {a : PortAddr} {j : Fin 4} {k : Fin 8} (h : a.toNat = 0x080 + 16 * j.val + k.val) : a = xAddr j k :=
  eq_addr h

theorem eq_yAddr {a : PortAddr} {j : Fin 4} {k : Fin 8} (h : a.toNat = 0x088 + 16 * j.val + k.val) : a = yAddr j k :=
  eq_addr h

theorem eq_sAddr {a : PortAddr} {k : Fin 16} (h : a.toNat = 0x0C0 + k.val) : a = sAddr k := eq_addr h

/-- The addresses of the data words are those of the four register files, with no gap (R51). -/
theorem dataAddr_cases {a : PortAddr} (h1 : 0x040 ≤ a.toNat) (h2 : a.toNat < 0x0D0) :
    (∃ i k, a = rAddr i k) ∨ (∃ j k, a = xAddr j k) ∨ (∃ j k, a = yAddr j k) ∨ ∃ k, a = sAddr k := by
  by_cases hr : a.toNat < 0x080
  · exact .inl ⟨⟨(a.toNat - 0x040) / 8, by omega⟩, ⟨a.toNat % 8, by omega⟩, eq_rAddr (by dsimp only; omega)⟩
  by_cases hp : a.toNat < 0x0C0
  · by_cases hx : a.toNat % 16 < 8
    · exact .inr (.inl ⟨⟨(a.toNat - 0x080) / 16, by omega⟩, ⟨a.toNat % 8, by omega⟩, eq_xAddr (by dsimp only; omega)⟩)
    · exact .inr (.inr (.inl
        ⟨⟨(a.toNat - 0x080) / 16, by omega⟩, ⟨a.toNat % 8, by omega⟩, eq_yAddr (by dsimp only; omega)⟩))
  · exact .inr (.inr (.inr ⟨⟨a.toNat - 0x0C0, by omega⟩, eq_sAddr (by dsimp only; omega)⟩))

theorem portMap_unmapped {a : PortAddr} (h : (0x005 < a.toNat ∧ a.toNat < 0x040) ∨ 0x0D0 ≤ a.toNat) :
    portMap a = .unmapped := by
  unfold portMap
  dsimp only
  rw [if_neg (by omega), if_neg (by omega), if_neg (by omega), if_neg (by omega), if_neg (by omega), if_neg (by omega)]
  rcases h with ⟨-, h⟩ | h
  · rw [if_pos h]
  · rw [if_neg (by omega), if_neg (by omega), if_neg (by omega), if_neg (by omega)]

/-! ### What each address reads (R53) and an idle write stores (R54) -/

section
variable (s : State) (w : Word)

@[simp] theorem hostRead_cmd : hostRead s 0x000#10 = s.cmd := by simp [hostRead]
@[simp] theorem hostRead_status : hostRead s 0x001#10 = statusWord s := by simp [hostRead]
@[simp] theorem hostRead_fcode : hostRead s 0x002#10 = fcodeWord s := by simp [hostRead]
@[simp] theorem hostRead_finfo : hostRead s 0x003#10 = s.finfo := by simp [hostRead]
@[simp] theorem hostRead_pinf : hostRead s 0x004#10 = pinfWord s := by simp [hostRead]
@[simp] theorem hostRead_slen : hostRead s 0x005#10 = slenWord s := by simp [hostRead]
@[simp] theorem hostRead_sAddr (k : Fin 16) : hostRead s (sAddr k) = stringWord s k := by simp [hostRead]

theorem hostRead_unmapped {a : PortAddr} (h : (0x005 < a.toNat ∧ a.toNat < 0x040) ∨ 0x0D0 ≤ a.toNat) :
    hostRead s a = 0 := by
  simp [hostRead, portMap_unmapped h]

/-- What a read returns is not about the turns to come. -/
theorem hostRead_withInputs (a : PortAddr) (es : List HostEvent) : hostRead { s with inputs := es } a = hostRead s a := rfl

variable {s}

theorem hostWrite_busy (a : PortAddr) (hb : s.busy = true) : hostWrite s a w = { s with drop := true } := if_pos hb

theorem hostWrite_pinf (hb : s.busy = false) : hostWrite s 0x004#10 w = writePinf s w := by simp [hostWrite, hb]

theorem hostWrite_slen (hb : s.busy = false) : hostWrite s 0x005#10 w = { s with slen := w.setWidth 7 } := by
  simp [hostWrite, hb]

theorem hostWrite_sAddr (k : Fin 16) (hb : s.busy = false) : hostWrite s (sAddr k) w = writeStringWord s k w := by
  simp [hostWrite, hb]

theorem hostWrite_unmapped {a : PortAddr} (hb : s.busy = false)
    (h : (0x005 < a.toNat ∧ a.toNat < 0x040) ∨ 0x0D0 ≤ a.toNat) : hostWrite s a w = s := by
  simp [hostWrite, hb, portMap_unmapped h]

/-- `STATUS`, `FCODE` and `FINFO` are read-only (R54). -/
theorem hostWrite_readOnly {a : PortAddr} (hb : s.busy = false) (h0 : a.toNat ≠ 0x000) (h4 : a.toNat < 0x004) :
    hostWrite s a w = s := by
  have ha : a = 0x001#10 ∨ a = 0x002#10 ∨ a = 0x003#10 := by bv_omega
  rcases ha with rfl | rfl | rfl <;> simp [hostWrite, hb]

end

theorem acceptWord_withInputs (s : State) (w : Word) (es : List HostEvent) :
    acceptWord { s with inputs := es } w = { acceptWord s w with inputs := es } := by
  unfold acceptWord
  split <;> rfl

/-- A write leaves the turns to come alone, and does not depend on them. -/
theorem hostWrite_withInputs (s : State) (a : PortAddr) (w : Word) (es : List HostEvent) :
    hostWrite { s with inputs := es } a w = { hostWrite s a w with inputs := es } := by
  unfold hostWrite
  split
  case isTrue => rfl
  case isFalse =>
    cases portMap a
    case cmd => exact acceptWord_withInputs s w es
    all_goals rfl

/-! ### The registers of eight words (R52) -/

/-- Word k' after a write of word k. -/
theorem wordOf_withWord (v : Word256) (k k' : Fin 8) (x : Word) :
    wordOf (withWord v k x) k' = if k' = k then x else wordOf v k' := by
  split
  case isTrue h => rw [h, wordOf_withWord_same]
  case isFalse h => exact wordOf_withWord_ne v k k' x h

/-- A 256-bit register of the port: where its words are, how it is read and written whole, and that the port reads and
writes it word by word (R51 to R54). -/
structure WideReg where
  addr : Fin 8 → PortAddr
  get : State → Word256
  put : State → Word256 → State
  get_put (s : State) (v : Word256) : get (put s v) = v
  put_get (s : State) : put s (get s) = s
  put_put (s : State) (v v' : Word256) : put (put s v) v' = put s v'
  put_busy (s : State) (v : Word256) : (put s v).busy = s.busy
  read (s : State) (k : Fin 8) : hostRead s (addr k) = wordOf (get s) k
  write (s : State) (k : Fin 8) (w : Word) (hb : s.busy = false) :
    hostWrite s (addr k) w = put s (withWord (get s) k w)

theorem setPointReg_self (s : State) (j : Fin 4) : setPointReg s j s.p[j] = s := by simp [setPointReg]

/-- The integer register `r[i]`. -/
def intReg (i : Fin 8) : WideReg where
  addr := rAddr i
  get s := s.r[i]
  put s v := { s with r := s.r.set i v i.isLt }
  get_put s v := by simp
  put_get s := by simp
  put_put s v v' := by simp
  put_busy s v := rfl
  read s k := by simp [hostRead]
  write s k w hb := by simp [hostWrite, hb]

/-- The coordinate `p[j].x`. -/
def xReg (j : Fin 4) : WideReg where
  addr := xAddr j
  get s := s.p[j].x
  put s v := setPointReg s j { s.p[j] with x := v }
  get_put s v := by simp
  put_get s := setPointReg_self s j
  put_put s v v' := by simp [setPointReg]
  put_busy s v := rfl
  read s k := by simp [hostRead]
  write s k w hb := by simp [hostWrite, hb]

/-- The coordinate `p[j].y`. -/
def yReg (j : Fin 4) : WideReg where
  addr := yAddr j
  get s := s.p[j].y
  put s v := setPointReg s j { s.p[j] with y := v }
  get_put s v := by simp
  put_get s := setPointReg_self s j
  put_put s v v' := by simp [setPointReg]
  put_busy s v := rfl
  read s k := by simp [hostRead]
  write s k w hb := by simp [hostWrite, hb]

/-! ### The words of the small registers -/

/-- A concatenation is a number in two digits, the right one the lower. -/
theorem toNat_append_add {m n : Nat} (x : BitVec m) (y : BitVec n) : (x ++ y).toNat = 2 ^ n * x.toNat + y.toNat := by
  rw [BitVec.toNat_append, ← Nat.shiftLeft_add_eq_or_of_lt y.isLt, Nat.shiftLeft_eq, Nat.mul_comm]

/-- Word k of a 256-bit value is its k-th digit in base 2^32 (R52). -/
theorem toNat_wordOf (v : Word256) (k : Fin 8) : (wordOf v k).toNat = v.toNat / 2 ^ (32 * k.val) % 2 ^ 32 := by
  rw [wordOf, BitVec.extractLsb'_toNat, Nat.shiftRight_eq_div_pow]

/-- The byte with the lowest index is the lowest digit (R55). -/
theorem toNat_lanes (b0 b1 b2 b3 : Byte) :
    (lanes b0 b1 b2 b3).toNat = b0.toNat + 2 ^ 8 * b1.toNat + 2 ^ 16 * b2.toNat + 2 ^ 24 * b3.toNat := by
  simp only [lanes, toNat_append_add]
  omega

theorem lanes_laneOf (w : Word) : lanes (laneOf w 0) (laneOf w 1) (laneOf w 2) (laneOf w 3) = w := by
  apply BitVec.eq_of_toNat_eq
  simp only [toNat_lanes, laneOf, BitVec.extractLsb'_toNat, Nat.shiftRight_eq_div_pow]
  omega

@[simp] theorem toNat_bit (b : Bool) : (bit b).toNat = b.toNat := BitVec.toNat_ofBool b

/-- The bits of `STATUS` (R26). -/
theorem toNat_statusWord (s : State) : (statusWord s).toNat = s.busy.toNat + 2 * s.done.toNat + 4 * s.fault.toNat +
    8 * s.drop.toNat + 16 * s.t.toNat + 32 * s.endFlag.toNat := by
  simp only [statusWord, BitVec.toNat_setWidth, toNat_append_add, toNat_bit]
  have := Bool.toNat_lt s.busy
  have := Bool.toNat_lt s.done
  have := Bool.toNat_lt s.fault
  have := Bool.toNat_lt s.drop
  have := Bool.toNat_lt s.t
  have := Bool.toNat_lt s.endFlag
  omega

/-- The bits of `PINF` (R31). -/
theorem toNat_pinfWord (s : State) : (pinfWord s).toNat =
    s.p[0].inf.toNat + 2 * s.p[1].inf.toNat + 4 * s.p[2].inf.toNat + 8 * s.p[3].inf.toNat := by
  simp only [pinfWord, BitVec.toNat_setWidth, toNat_append_add, toNat_bit]
  have := Bool.toNat_lt s.p[0].inf
  have := Bool.toNat_lt s.p[1].inf
  have := Bool.toNat_lt s.p[2].inf
  have := Bool.toNat_lt s.p[3].inf
  omega

theorem toNat_fcodeWord (s : State) : (fcodeWord s).toNat = s.fcode.toNat :=
  BitVec.toNat_setWidth_of_le (by decide)

theorem toNat_slenWord (s : State) : (slenWord s).toNat = s.slen.toNat :=
  BitVec.toNat_setWidth_of_le (by decide)

/-- Bit j of `PINF` is `p[j].inf` (R31). -/
theorem getLsbD_pinfWord (s : State) (j : Fin 4) : (pinfWord s).getLsbD j.val = s.p[j].inf := by
  simp only [pinfWord, bit, BitVec.getLsbD_setWidth, BitVec.getLsbD_append, BitVec.getLsbD_ofBool]
  fin_cases j <;> simp

/-- Bits 31:4 of `PINF` are 0 (R31). -/
theorem getLsbD_pinfWord_of_ge (s : State) (n : Nat) (h : 4 ≤ n) : (pinfWord s).getLsbD n = false := by
  simp [pinfWord, BitVec.getLsbD_of_ge _ n h]

/-- Settles O8: R56 is the first branch of `hostWrite`. -/
theorem writeWhileBusyIsDropped : Obligations.WriteWhileBusyIsDropped := by
  intro s a w rest hb h
  rw [step_write s a w rest h, hostWrite_busy (s := { s with inputs := rest }) w a hb]

/-! ### Reading the port -/

/-- Settles O10: the map gives each clause its word, and each word its bits. -/
theorem hostReadReturnsTheMappedWord : Obligations.HostReadReturnsTheMappedWord := by
  intro s a rest h
  refine ⟨hostRead s a, step_read s a rest h, fun ha => ?cmd, fun ha => ?status, fun ha => ?fcode, fun ha => ?finfo,
    fun ha => ?pinf, fun ha => ?slen, fun i k ha => ?r, fun j k ha => ?x, fun j k ha => ?y, fun k ha => ?str,
    hostRead_unmapped s⟩
  case r => rw [eq_rAddr ha, ← toNat_wordOf]; exact congrArg BitVec.toNat ((intReg i).read s k)
  case x => rw [eq_xAddr ha, ← toNat_wordOf]; exact congrArg BitVec.toNat ((xReg j).read s k)
  case y => rw [eq_yAddr ha, ← toNat_wordOf]; exact congrArg BitVec.toNat ((yReg j).read s k)
  case str => rw [eq_sAddr ha, hostRead_sAddr, stringWord, toNat_lanes]
  all_goals obtain rfl := eq_addr ha
  case cmd => exact hostRead_cmd s
  case status => rw [hostRead_status, toNat_statusWord]
  case fcode => rw [hostRead_fcode, toNat_fcodeWord]
  case finfo => exact hostRead_finfo s
  case pinf => rw [hostRead_pinf, toNat_pinfWord]
  case slen => rw [hostRead_slen, toNat_slenWord]

/-! ### Writing the port of an idle block -/

section
variable {α : Type} {n : Nat} (xs : Vector α n) (i i' : Fin n) (q : α)

/-- A part of an element that the new element shares with the old one is nowhere changed. -/
theorem getElem_set_congr {β : Type} (f : α → β) (hq : f q = f xs[i]) : f (xs.set i q i.isLt)[i'] = f xs[i'] := by
  by_cases h : i' = i
  · simpa [h] using hq
  · have hne : i.val ≠ i'.val := fun e => h (Fin.ext e.symm)
    simp [hne]

/-- Where word k of a 256-bit part of element i is written, that word has the value written and no other has changed. -/
theorem wordOf_getElem_set (f : α → Word256) (k k' : Fin 8) (w : Word) (hq : f q = withWord (f xs[i]) k w) :
    wordOf (f (xs.set i q i.isLt)[i']) k' = if i' = i ∧ k' = k then w else wordOf (f xs[i']) k' := by
  by_cases h : i' = i
  · subst h
    simp [hq, wordOf_withWord]
  · have hne : i.val ≠ i'.val := fun e => h (Fin.ext e.symm)
    simp [h, hne]

end

/-- A write to an idle block at another address than that of `CMD` changes data registers at most (R54). -/
theorem dataOnly_hostWrite {s : State} {a : PortAddr} (w : Word) (hb : s.busy = false) (ha : a.toNat ≠ 0x000) :
    DataOnly s (hostWrite s a w) := by
  rcases hostWrite_cases s a w with ⟨h, -⟩ | ⟨-, h, -⟩ | ⟨-, -, h⟩
  · rw [hb] at h
    cases h
  · exact absurd (congrArg BitVec.toNat h) ha
  · exact h

/-- Settles O9: the map gives each clause its write, and each write its frame. -/
theorem idleWriteStoresTheWord : Obligations.IdleWriteStoresTheWord := by
  intro s a w rest hb h0 h
  refine ⟨{ hostWrite s a w with inputs := rest }, ?step, ?frame, fun i k ha => ?r, fun j k ha => ?x, fun j k ha => ?y,
    fun k ha => ?str, fun ha => ?pinf, fun ha => ?slen, fun ha => ?none⟩
  case step => rw [step_write s a w rest h, hostWrite_withInputs]
  case frame => exact congrArg (fun t : State => { t with inputs := rest }) (dataOnly_hostWrite w hb h0)
  case r =>
    rw [eq_rAddr ha, show hostWrite s (rAddr i k) w = _ from (intReg i).write s k w hb]
    exact ⟨rfl, rfl, rfl, fun i' k' => wordOf_getElem_set s.r i i' _ id k k' w rfl⟩
  case x =>
    rw [eq_xAddr ha, show hostWrite s (xAddr j k) w = _ from (xReg j).write s k w hb]
    exact ⟨rfl, rfl, rfl, fun j' k' => ⟨getElem_set_congr s.p j j' _ PointReg.inf rfl,
      getElem_set_congr s.p j j' _ PointReg.y rfl, wordOf_getElem_set s.p j j' _ PointReg.x k k' w rfl⟩⟩
  case y =>
    rw [eq_yAddr ha, show hostWrite s (yAddr j k) w = _ from (yReg j).write s k w hb]
    exact ⟨rfl, rfl, rfl, fun j' k' => ⟨getElem_set_congr s.p j j' _ PointReg.inf rfl,
      getElem_set_congr s.p j j' _ PointReg.x rfl, wordOf_getElem_set s.p j j' _ PointReg.y k k' w rfl⟩⟩
  case str =>
    rw [eq_sAddr ha, hostWrite_sAddr w k hb]
    exact ⟨rfl, rfl, rfl, writeStringWord_get s k w⟩
  case pinf =>
    obtain rfl := eq_addr ha
    rw [hostWrite_pinf w hb]
    refine ⟨rfl, rfl, rfl, fun j => ?_⟩
    rw [writePinf_get]
    exact ⟨rfl, rfl, rfl⟩
  case slen =>
    obtain rfl := eq_addr ha
    rw [hostWrite_slen w hb]
    exact ⟨rfl, rfl, rfl, BitVec.toNat_setWidth 7 w⟩
  case none =>
    have hs : hostWrite s a w = s := by
      rcases ha with ha | ha
      · exact hostWrite_readOnly w hb h0 ha
      · exact hostWrite_unmapped w hb ha
    rw [hs]
    exact ⟨rfl, rfl, rfl, rfl⟩

/-! ### Reading back -/

theorem hostWrite_answers (s : State) (a : PortAddr) (w : Word) : (hostWrite s a w).answers = s.answers := by
  rcases hostWrite_cases s a w with ⟨-, h⟩ | ⟨-, -, h⟩ | ⟨-, -, h⟩
  · rw [h]
  · rw [h]
    rcases acceptWord_cases s w with ⟨-, -, h⟩ | ⟨-, h⟩ <;> rw [h]
  · rw [h]

/-- A register of eight words reads back each word that is written. -/
theorem WideReg.hostRead_hostWrite (R : WideReg) {s : State} (k : Fin 8) (w : Word) (hb : s.busy = false) :
    hostRead (hostWrite s (R.addr k) w) (R.addr k) = w := by
  rw [R.write s k w hb, R.read, R.get_put, wordOf_withWord_same]

theorem stringWord_writeStringWord (s : State) (k : Fin 16) (w : Word) : stringWord (writeStringWord s k w) k = w := by
  have hbyte : ∀ (n : Nat) (hn : n < 4), (writeStringWord s k w).str[4 * k.val + n] = laneOf w n := by
    intro n hn
    have h := writeStringWord_get s k w ⟨4 * k.val + n, by omega⟩
    rw [if_pos (by dsimp only; omega)] at h
    rw [show laneOf w n = laneOf w ((4 * k.val + n) % 4) by congr 1; omega]
    exact h
  calc stringWord (writeStringWord s k w) k
      = lanes (laneOf w 0) (laneOf w 1) (laneOf w 2) (laneOf w 3) := by
        rw [← hbyte 0 (by decide), ← hbyte 1 (by decide), ← hbyte 2 (by decide), ← hbyte 3 (by decide)]
        rfl
    _ = w := lanes_laneOf w

/-- A data word reads back as it is written (R53, R54). -/
theorem hostRead_hostWrite_data {s : State} {a : PortAddr} (w : Word) (hb : s.busy = false) (h1 : 0x040 ≤ a.toNat)
    (h2 : a.toNat < 0x0D0) : hostRead (hostWrite s a w) a = w := by
  rcases dataAddr_cases h1 h2 with ⟨i, k, rfl⟩ | ⟨j, k, rfl⟩ | ⟨j, k, rfl⟩ | ⟨k, rfl⟩
  · exact (intReg i).hostRead_hostWrite k w hb
  · exact (xReg j).hostRead_hostWrite k w hb
  · exact (yReg j).hostRead_hostWrite k w hb
  · rw [hostWrite_sAddr w k hb, hostRead_sAddr, stringWord_writeStringWord]

/-- `PINF` reads back the four bits it has (R31). -/
theorem pinfWord_writePinf (s : State) (w : Word) : pinfWord (writePinf s w) = w &&& 0xF#32 := by
  have hmask : ∀ n : Fin 32, (0xF#32).getLsbD n.val = decide (n.val < 4) := by decide
  apply BitVec.eq_of_getLsbD_eq
  intro n h32
  rw [BitVec.getLsbD_and, hmask ⟨n, h32⟩]
  by_cases hn : n < 4
  · rw [getLsbD_pinfWord _ ⟨n, hn⟩, writePinf_get]
    simp [hn]
  · rw [getLsbD_pinfWord_of_ge _ n (by omega)]
    simp [hn]

/-- Settles O11: two steps, and the word read is the one that was stored. -/
theorem writtenWordReadsBack : Obligations.WrittenWordReadsBack := by
  intro s a w rest hb h
  have h1 : step s = .next { hostWrite s a w with inputs := .read a :: rest } := by
    rw [step_write s a w _ h, hostWrite_withInputs]
  have hans : (readEvent { hostWrite s a w with inputs := rest } a).answers =
      s.answers ++ [hostRead (hostWrite s a w) a] := by
    rw [readEvent_answers, hostRead_withInputs, ← hostWrite_answers s a w]
  refine ⟨readEvent { hostWrite s a w with inputs := rest } a, ?run, fun h1 h2 => ?data, fun ha => ?pinf, fun ha => ?slen⟩
  case run => rw [runFor_succ 1 s _ h1, runFor_succ 0 _ _ (step_read _ a rest rfl), runFor_zero]
  case data => rw [hans, hostRead_hostWrite_data w hb h1 h2]
  case pinf =>
    obtain rfl := eq_addr ha
    rw [hans, hostWrite_pinf w hb, hostRead_pinf, pinfWord_writePinf]
  case slen =>
    obtain rfl := eq_addr ha
    have hmask : slenWord { s with slen := w.setWidth 7 } = w &&& 0x7F#32 := by
      apply BitVec.eq_of_toNat_eq
      rw [toNat_slenWord, BitVec.toNat_and, BitVec.toNat_setWidth]
      exact (Nat.and_two_pow_sub_one_eq_mod w.toNat 7).symm
    rw [hans, hostWrite_slen w hb, hostRead_slen, hmask]

/-! ### `LOAD` (R78) -/

/-- The writes `ws`, in order, as turns of the host. -/
def writeEvents (ws : List (PortAddr × Word)) : List HostEvent := ws.map (fun p => .write p.1 p.2)

/-- What the writes `ws`, in order, leave of the block. -/
def storeAll (ws : List (PortAddr × Word)) (s : State) : State := ws.foldl (fun u p => hostWrite u p.1 p.2) s

theorem storeAll_append (ws ws' : List (PortAddr × Word)) (s : State) :
    storeAll (ws ++ ws') s = storeAll ws' (storeAll ws s) := List.foldl_append

/-- As many steps as there are writes make the writes. -/
theorem runFor_writeEvents (rest : List HostEvent) (ws : List (PortAddr × Word)) :
    ∀ s : State, s.inputs = writeEvents ws ++ rest → runFor ws.length s = .next (storeAll ws { s with inputs := rest }) := by
  induction ws with
  | nil =>
    intro s h
    have hs : { s with inputs := rest } = s := by rw [show rest = s.inputs from h.symm]
    rw [hs]
    rfl
  | cons p ws ih =>
    intro s h
    have h1 : step s = .next { hostWrite s p.1 p.2 with inputs := writeEvents ws ++ rest } := by
      rw [step_write s p.1 p.2 (writeEvents ws ++ rest) h, hostWrite_withInputs]
    rw [List.length_cons, runFor_succ _ s _ h1, ih _ rfl]
    exact congrArg (fun u => Host.Outcome.next (storeAll ws u)) (hostWrite_withInputs s p.1 p.2 rest).symm

/-- `x` with the words `ks` replaced by those of `v`. -/
def mergeWords (v : Word256) (ks : List (Fin 8)) (x : Word256) : Word256 :=
  ks.foldl (fun x k => withWord x k (wordOf v k)) x

theorem wordOf_mergeWords (v : Word256) (k : Fin 8) (ks : List (Fin 8)) :
    ∀ x, wordOf (mergeWords v ks x) k = if k ∈ ks then wordOf v k else wordOf x k := by
  induction ks with
  | nil => intro x; rfl
  | cons k' ks ih =>
    intro x
    rw [show mergeWords v (k' :: ks) x = mergeWords v ks (withWord x k' (wordOf v k')) from rfl, ih, wordOf_withWord]
    by_cases h : k = k' <;> simp [h]

/-- The eight words are the whole value (R52). -/
theorem mergeWords_all (v x : Word256) : mergeWords v (List.finRange 8) x = v :=
  word256_ext _ _ fun k => by rw [wordOf_mergeWords, if_pos (List.mem_finRange k)]

namespace WideReg
variable (R : WideReg)

/-- The writes of the words `ks` of `v`. -/
def words (v : Word256) (ks : List (Fin 8)) : List (PortAddr × Word) := ks.map (fun k => (R.addr k, wordOf v k))

theorem storeAll_words (v : Word256) (ks : List (Fin 8)) :
    ∀ s : State, s.busy = false → storeAll (R.words v ks) s = R.put s (mergeWords v ks (R.get s)) := by
  induction ks with
  | nil => intro s _; exact (R.put_get s).symm
  | cons k ks ih =>
    intro s hb
    rw [show storeAll (R.words v (k :: ks)) s = storeAll (R.words v ks) (hostWrite s (R.addr k) (wordOf v k)) from rfl,
      R.write s k _ hb, ih _ (by rw [R.put_busy, hb]), R.get_put, R.put_put]
    rfl

/-- The eight writes put the value in the register, whatever it held (R78). -/
theorem storeAll_load (v : Word256) (s : State) (hb : s.busy = false) :
    storeAll (R.words v (List.finRange 8)) s = R.put s v := by
  rw [R.storeAll_words v _ s hb, mergeWords_all]

end WideReg

theorem loadR_eq (i : Fin 8) (v : Word256) : loadR i v = writeEvents ((intReg i).words v (List.finRange 8)) := by
  rw [writeEvents, WideReg.words, List.map_map]
  rfl

/-- The writes of `LOAD p<j>`. -/
def loadPWrites (j : Fin 4) (x y : Word256) (pinf : Word) : List (PortAddr × Word) :=
  (xReg j).words x (List.finRange 8) ++ (yReg j).words y (List.finRange 8) ++ [(0x004#10, pinf &&& ~~~(1#32 <<< j.val))]

theorem loadP_eq (j : Fin 4) (x y : Word256) (pinf : Word) :
    loadP j x y pinf = writeEvents (loadPWrites j x y pinf) := by
  rw [writeEvents, loadPWrites, List.map_append, List.map_append, WideReg.words, WideReg.words, List.map_map, List.map_map]
  rfl

/-- The mask of R78 that clears bit j of `PINF`. -/
theorem getLsbD_clearMask : ∀ j k : Fin 4, (~~~(1#32 <<< j.val)).getLsbD k.val = decide (k ≠ j) := by decide

/-- A write of `PINF` with bit j cleared in what it holds clears `p[j].inf` and no other (R31). -/
theorem writePinf_clear (s : State) (j : Fin 4) :
    writePinf s (pinfWord s &&& ~~~(1#32 <<< j.val)) = setPointReg s j { s.p[j] with inf := false } := by
  refine congrArg (fun p => { s with p := p }) (Vector.ext fun n hn => ?_)
  generalize hk : (⟨n, hn⟩ : Fin 4) = k
  obtain rfl : n = k.val := congrArg Fin.val hk
  refine (writePinf_get s _ k).trans ?_
  rw [BitVec.getLsbD_and, getLsbD_pinfWord, getLsbD_clearMask]
  by_cases h : k = j
  · subst h
    simp
  · have hne : j.val ≠ k.val := fun e => h (Fin.ext e.symm)
    simp [h, hne]

/-- What `PINF` holds is about the `inf` bits only (R31). -/
theorem pinfWord_setPointReg (s : State) (j : Fin 4) (q : PointReg) (hq : q.inf = s.p[j].inf) :
    pinfWord (setPointReg s j q) = pinfWord s := by
  have hinf : ∀ k : Fin 4, (setPointReg s j q).p[k].inf = s.p[k].inf := fun k => getElem_set_congr s.p j k q PointReg.inf hq
  unfold pinfWord
  rw [show (setPointReg s j q).p[3].inf = _ from hinf 3, show (setPointReg s j q).p[2].inf = _ from hinf 2,
    show (setPointReg s j q).p[1].inf = _ from hinf 1, show (setPointReg s j q).p[0].inf = _ from hinf 0]
  rfl

theorem pinfWord_put_x (s : State) (j : Fin 4) (v : Word256) : pinfWord ((xReg j).put s v) = pinfWord s :=
  pinfWord_setPointReg s j { s.p[j] with x := v } rfl

theorem pinfWord_put_y (s : State) (j : Fin 4) (v : Word256) : pinfWord ((yReg j).put s v) = pinfWord s :=
  pinfWord_setPointReg s j { s.p[j] with y := v } rfl

/-- The writes of `LOAD p<j>` put the point there, `PINF` being what the host read before them (R78). -/
theorem storeAll_loadPWrites (s : State) (j : Fin 4) (x y : Word256) (hb : s.busy = false) :
    storeAll (loadPWrites j x y (pinfWord s)) s = setPointReg s j ⟨false, x, y⟩ := by
  calc storeAll (loadPWrites j x y (pinfWord s)) s
      = writePinf ((yReg j).put ((xReg j).put s x) y) (pinfWord s &&& ~~~(1#32 <<< j.val)) := by
        rw [loadPWrites, storeAll_append, storeAll_append, (xReg j).storeAll_load x s hb,
          (yReg j).storeAll_load y ((xReg j).put s x) hb]
        exact hostWrite_pinf (s := (yReg j).put ((xReg j).put s x) y) _ hb
    _ = setPointReg s j ⟨false, x, y⟩ := by
        rw [← pinfWord_put_x s j x, ← pinfWord_put_y _ j y, writePinf_clear]
        simp [xReg, yReg, setPointReg]

/-- Settles O12: each register of eight words takes the value, and the write of `PINF` clears the one bit. -/
theorem loadPutsTheValueInTheRegister : Obligations.LoadPutsTheValueInTheRegister := by
  constructor
  · intro s i v rest hb h
    rw [loadR_eq] at h
    have hrun := runFor_writeEvents rest _ s h
    rw [(intReg i).storeAll_load v { s with inputs := rest } hb,
      show ((intReg i).words v (List.finRange 8)).length = 8 by simp [WideReg.words]] at hrun
    exact hrun
  · intro s j x y rest hb h
    rw [loadP_eq, hostRead_pinf] at h
    have hrun := runFor_writeEvents rest _ s h
    rw [show pinfWord s = pinfWord { s with inputs := rest } from rfl,
      storeAll_loadPWrites { s with inputs := rest } j x y hb,
      show (loadPWrites j x y _).length = 17 by simp [loadPWrites, WideReg.words]] at hrun
    exact hrun

/-! ### The host while a command runs (R56, R61) -/

/-- `s` with the two things an access to a busy block can change: `DROP`, and what the host has read. -/
def withHostSide (s : State) (d : Bool) (as : List Word) : State := { s with drop := d, answers := as }

/-- An access to a busy block changes nothing else (R53, R56). -/
theorem step_access_busy {s : State} {e : HostEvent} {rest : List HostEvent} (hb : s.busy = true) (he : IsAccess e)
    (h : s.inputs = e :: rest) : ∃ d as, step s = .next (withHostSide { s with inputs := rest } d as) := by
  cases e with
  | read a => exact ⟨_, _, step_read s a rest h⟩
  | write a w =>
    refine ⟨true, s.answers, ?_⟩
    rw [step_write s a w rest h, hostWrite_busy (s := { s with inputs := rest }) w a hb]
    rfl
  | core | reset => exact he.elim

theorem runFor_accesses_busy (n : Nat) (rest : List HostEvent) (es : List HostEvent) : ∀ s : State, s.busy = true →
    (∀ e ∈ es, IsAccess e) → s.inputs = es ++ rest →
    ∃ d as, runFor (es.length + n) s = runFor n (withHostSide { s with inputs := rest } d as) := by
  induction es with
  | nil =>
    intro s _ _ h
    refine ⟨s.drop, s.answers, ?_⟩
    rw [List.length_nil, Nat.zero_add, show rest = s.inputs from h.symm]
    rfl
  | cons e es ih =>
    intro s hb he h
    obtain ⟨he, hes⟩ := List.forall_mem_cons.1 he
    obtain ⟨d, as, hstep⟩ := step_access_busy (rest := es ++ rest) hb he h
    obtain ⟨d', as', hrun⟩ := ih (withHostSide { s with inputs := es ++ rest } d as) hb hes rfl
    refine ⟨d', as', ?_⟩
    rw [List.length_cons, Nat.add_right_comm, runFor_succ _ s _ hstep, hrun]
    rfl

/-- What `DROP` is after a command without fault: only `FCLR` writes it (R147). -/
def dropAfter (i : Instr) (d : Bool) : Bool := if i = .fclr then false else d

/-- No command reads `DROP` or what the host has read, and none but `FCLR` writes them (R143, R147). -/
theorem result_withHostSide (i : Instr) (s : State) (d : Bool) (as : List Word) :
    result i (withHostSide s d as) = (fun s' => withHostSide s' (dropAfter i d) as) <$> result i s := by
  cases i
  case seqnext | addrenc =>
    simp only [result, apply_ite (Functor.map _), map_bind, map_pure]
    rfl
  all_goals
    simp only [result, map_bind, map_pure]
    rfl

/-- The turn of `CORE` does the same whatever `DROP` is and whatever the host has read. -/
theorem coreTurn_withHostSide {s u : State} (d : Bool) (as : List Word) (h : coreTurn s = .next u) :
    ∃ d', coreTurn (withHostSide s d as) = .next (withHostSide u d' as) := by
  rcases coreTurn_cases s with ⟨hb, he⟩ | ⟨hb, hd, he⟩ | ⟨i, hb, hd, hi⟩
  · cases he.symm.trans h
    exact ⟨d, coreTurn_idle _ hb⟩
  · cases he.symm.trans h
    exact ⟨d, coreTurn_illegal (withHostSide s d as) hb hd⟩
  · rw [coreTurn_legal (withHostSide s d as) i hb hd, exec_eq, result_withHostSide]
    rcases hi with ⟨s', hr, he, -⟩ | ⟨f, hr, he⟩ <;> cases he.symm.trans h <;> rw [hr]
    · exact ⟨dropAfter i d, rfl⟩
    · exact ⟨d, rfl⟩

/-- Settles O16: the accesses leave a state that differs in the host's side, and the completion does not depend on it. -/
theorem hostCannotRaceACommand : Obligations.HostCannotRaceACommand := by
  intro s u es hb hes h hu
  rw [step_core _ [] (.inr rfl)] at hu
  obtain ⟨d, as, hrun⟩ := runFor_accesses_busy 1 [.core] es s hb hes h
  obtain ⟨d', hcore⟩ := coreTurn_withHostSide d as hu
  refine ⟨withHostSide u d' as, ?_, rfl⟩
  rw [hrun, runFor_succ 0 _ (withHostSide u d' as) ((step_core _ [] (.inr rfl)).trans hcore), runFor_zero]

end Sys2Proof.Proofs

/-! PROOFS. The family `30_encoding.md`: the decoder against the encoder, and against the table of R73. -/

namespace Sys2Proof.Proofs

open Sys2Proof Sys2Proof.Machine Sys2Proof.Laws

/-! ### Words and commands (R71 to R76) -/

theorem decode_encode (i : Instr) : i.wf = true → decode (encode i) = some i :=
  match i with
  | .fclr => RoundTrip.fclr
  | .modmul d a b => RoundTrip.modmul d a b
  | .modinv d a => RoundTrip.modinv d a
  | .modpow d a b => RoundTrip.modpow d a b
  | .pldg d => RoundTrip.pldg d
  | .pdbl d a => RoundTrip.pdbl d a
  | .padd d a b => RoundTrip.padd d a b
  | .smul d a b => RoundTrip.smul d a b
  | .oncurve a => RoundTrip.oncurve a
  | .derive d a => RoundTrip.derive d a
  | .seqinit a b => RoundTrip.seqinit a b
  | .seqnext d => RoundTrip.seqnext d
  | .b58enc a => RoundTrip.b58enc a
  | .b58dec d => RoundTrip.b58dec d
  | .hashpk d a => RoundTrip.hashpk d a
  | .addrenc a v c => RoundTrip.addrenc a v c
  | .addrdec d c => RoundTrip.addrdec d c
  | .addrgen a => RoundTrip.addrgen a

/-- Settles O1: a decoded word is the word of its command, and the word of every well-formed command decodes to it. -/
theorem decoderInvertsEncoder : Obligations.DecoderInvertsEncoder := by
  intro w i
  constructor
  · exact decode_sound w i
  · rintro ⟨hwf, rfl⟩
    exact decode_encode i hwf

/-! ### Words by their fields (R71) -/

theorem formatR_eq_iff (o : BitVec 8) (d a b : RegIx) (w : Word) : formatR o d a b = w ↔
    opcField w = o ∧ dField w = d ∧ aField w = a ∧ bField w = b ∧ lowField w = 0 := by
  constructor
  · rintro rfl
    simp
  · rintro ⟨ho, hd, ha, hb, hz⟩
    exact word_of_fieldsR w o d a b ho hd ha hb hz

theorem formatI_eq_iff (o : BitVec 8) (d a : RegIx) (v c : Byte) (w : Word) : formatI o d a v c = w ↔
    opcField w = o ∧ dField w = d ∧ aField w = a ∧ vField w = v ∧ cField w = c := by
  constructor
  · rintro rfl
    simp
  · rintro ⟨ho, hd, ha, hv, hc⟩
    exact word_of_fieldsI w o d a v c ho hd ha hv hc

theorem formatR_zero_eq_formatI_zero (o : BitVec 8) : formatR o 0 0 0 = formatI o 0 0 0 0 := by
  apply BitVec.eq_of_toNat_eq
  simp only [formatR_toNat, formatI_toNat, BitVec.ofNat_eq_ofNat, BitVec.toNat_zero]
  omega

/-! ### The rows of the table, field by field (R73) -/

/-- The opcode in the match column of R73. -/
def rowOpcode (k : Fin 18) : BitVec 8 := opcField opcodeRows[k.val].1

/-- The mask column of R73. -/
def rowMask (k : Fin 18) : Word := opcodeRows[k.val].2

/-- The match of a row is its opcode with zeros below it. -/
theorem opcodeRows_getElem? : ∀ k : Fin 18, opcodeRows[k.val]? = some (formatR (rowOpcode k) 0 0 0, rowMask k) := by
  decide

theorem matchesRow_iff_mask (k : Fin 18) (w : Word) : MatchesRow k w ↔ formatR (rowOpcode k) 0 0 0 = w &&& rowMask k := by
  simp [MatchesRow, opcodeRows_getElem?, eq_comm]

/-- Every mask keeps the whole opcode. -/
theorem opcField_and_rowMask (k : Fin 18) (w : Word) : opcField w &&& opcField (rowMask k) = opcField w := by
  have h : ∀ k : Fin 18, opcField (rowMask k) = BitVec.allOnes 8 := by decide
  rw [h, BitVec.and_allOnes]

theorem matchesRow_iff_fieldsR (k : Fin 18) (w : Word) : MatchesRow k w ↔ opcField w = rowOpcode k ∧
    dField w &&& dField (rowMask k) = 0 ∧ aField w &&& aField (rowMask k) = 0 ∧ bField w &&& bField (rowMask k) = 0 ∧
      lowField w &&& lowField (rowMask k) = 0 := by
  rw [matchesRow_iff_mask, formatR_eq_iff, ← opcField_and_rowMask k w]
  simp only [opcField, dField, aField, bField, lowField, BitVec.extractLsb'_and]

theorem matchesRow_iff_fieldsI (k : Fin 18) (w : Word) : MatchesRow k w ↔ opcField w = rowOpcode k ∧
    dField w &&& dField (rowMask k) = 0 ∧ aField w &&& aField (rowMask k) = 0 ∧ vField w &&& vField (rowMask k) = 0 ∧
      cField w &&& cField (rowMask k) = 0 := by
  rw [matchesRow_iff_mask, formatR_zero_eq_formatI_zero, formatI_eq_iff, ← opcField_and_rowMask k w]
  simp only [opcField, dField, aField, vField, cField, BitVec.extractLsb'_and]

theorem rowOpcode_injective : ∀ k k' : Fin 18, rowOpcode k = rowOpcode k' → k = k' := by decide

theorem matchesRow_unique {k k' : Fin 18} {w : Word} (h : MatchesRow k w) (h' : MatchesRow k' w) : k = k' := by
  obtain ⟨ho, -⟩ := (matchesRow_iff_fieldsR k w).1 h
  obtain ⟨ho', -⟩ := (matchesRow_iff_fieldsR k' w).1 h'
  exact rowOpcode_injective k k' (ho.symm.trans ho')

/-! ### A row and its command (R72, R75) -/

theorem and_intMask_eq_zero : ∀ i : RegIx, i &&& 0x8#4 = 0#4 ↔ isIntIx i = true := by decide

theorem and_pointMask_eq_zero : ∀ j : RegIx, j &&& 0xC#4 = 0#4 ↔ isPointIx j = true := by decide

theorem and_fullMask (x : RegIx) : x &&& 0xF#4 = x := BitVec.and_allOnes

theorem and_fullMask_byte (x : Byte) : x &&& 0xFF#8 = x := BitVec.and_allOnes

theorem and_fullMask_low (x : BitVec 12) : x &&& 0xFFF#12 = x := BitVec.and_allOnes

/-- The mask of an index field says that the index is in range, a mask of ones that the field is unused and 0, a mask of
zeros that every byte is legal; rows 15 and 16 (`ADDRENC`, `ADDRDEC`), the 16th and 17th goal, have format I. -/
theorem matchesRow_iff_encode (k : Fin 18) (w : Word) :
    MatchesRow k w ↔ (rowCommand k w).wf = true ∧ encode (rowCommand k w) = w := by
  fin_cases k
  iterate 2 on_goal 16 =>
    rw [matchesRow_iff_fieldsI]
    simp [rowOpcode, rowMask, opcodeRows, rowCommand, Instr.wf, encode, formatI_eq_iff, opcField, dField, aField, vField,
      cField, and_intMask_eq_zero, and_fullMask, and_fullMask_byte, and_assoc, and_left_comm, and_comm]
  all_goals
    rw [matchesRow_iff_fieldsR]
    simp [rowOpcode, rowMask, opcodeRows, rowCommand, Instr.wf, encode, formatR_eq_iff, opcField, dField, aField, bField,
      lowField, and_intMask_eq_zero, and_pointMask_eq_zero, and_fullMask, and_fullMask_low, and_assoc, and_left_comm,
      and_comm]

/-- The row of R73 a command stands in. -/
def rowOf : Instr → Fin 18
  | .fclr => 0
  | .modmul .. => 1
  | .modinv .. => 2
  | .modpow .. => 3
  | .pldg .. => 4
  | .pdbl .. => 5
  | .padd .. => 6
  | .smul .. => 7
  | .oncurve .. => 8
  | .derive .. => 9
  | .seqinit .. => 10
  | .seqnext .. => 11
  | .b58enc .. => 12
  | .b58dec .. => 13
  | .hashpk .. => 14
  | .addrenc .. => 15
  | .addrdec .. => 16
  | .addrgen .. => 17

/-- A command is read back from its word by its row. -/
theorem rowCommand_rowOf (i : Instr) : rowCommand (rowOf i) (encode i) = i := by
  cases i <;>
    simp [rowOf, rowCommand, encode, ← dField.eq_1, ← aField.eq_1, ← bField.eq_1, ← vField.eq_1, ← cField.eq_1]

theorem matchesRow_encode {i : Instr} (h : i.wf = true) : MatchesRow (rowOf i) (encode i) := by
  rw [matchesRow_iff_encode, rowCommand_rowOf]
  exact ⟨h, rfl⟩

theorem decode_of_matchesRow {k : Fin 18} {w : Word} (h : MatchesRow k w) : decode w = some (rowCommand k w) :=
  (decoderInvertsEncoder w _).2 ((matchesRow_iff_encode k w).1 h)

theorem decode_eq_none_of_no_row {w : Word} (h : ∀ k : Fin 18, ¬ MatchesRow k w) : decode w = none := by
  cases hd : decode w with
  | none => rfl
  | some i =>
    obtain ⟨hwf, rfl⟩ := decode_sound w i hd
    exact absurd (matchesRow_encode hwf) (h (rowOf i))

/-- Settles O2: the opcodes of the rows differ, and a word matches a row just when it is the word of the row's command. -/
theorem decoderIsTheMatchMaskTable : Obligations.DecoderIsTheMatchMaskTable := fun _ =>
  ⟨fun _ _ => matchesRow_unique, fun _ => decode_of_matchesRow, decode_eq_none_of_no_row⟩

/-! ### The spec's example words -/

theorem decode_word {w : Word} {i : Instr} (h : i.wf = true ∧ encode i = w) : decode w = some i :=
  (decoderInvertsEncoder w i).2 h

theorem decode_eq_none_of_masks {w : Word} (h : ∀ k : Fin 18, formatR (rowOpcode k) 0 0 0 ≠ w &&& rowMask k) :
    decode w = none :=
  decode_eq_none_of_no_row fun k hk => h k ((matchesRow_iff_mask k w).1 hk)

/-- Settles O3: ten words are those of their commands, and three match no row. -/
theorem specWordsDecode : Obligations.SpecWordsDecode := by
  unfold Obligations.SpecWordsDecode
  and_intros
  iterate 10 exact decode_word (by decide)
  iterate 3 exact decode_eq_none_of_masks (by decide)

end Sys2Proof.Proofs

/-! PROOFS. The family `40_field.md`: what a completion is from its result, and the field commands `MODMUL`, `MODINV` and
`MODPOW`. -/

namespace Sys2Proof.Proofs

open Sys2Proof Sys2Proof.Machine Sys2Proof.Laws

/-! ### From the result of a command to its completion (R146, R163) -/

/-- A command whose result is a write of one integer register ends with the value there, and writes no more. -/
theorem exec_intReg {i : Instr} {s : State} {d : RegIx} {v : Nat} (hr : result i s = .ok (writeR s d v))
    (hv : v < 2 ^ 256) : ∃ t, exec i s = .next t ∧ (readR t d).toNat = v ∧ OnlyIntReg d s t :=
  ⟨finish (writeR s d v), by rw [exec_eq, hr, complete_ok], toNat_readR_writeR s d v hv, onlyIntReg_writeR s d v⟩

/-- A command whose result is an error ends with the fault taken. -/
theorem exec_faultTaken {i : Instr} {s : State} {k : FaultKind} {info : Word} (hr : result i s = .error ⟨k, info⟩) :
    ∃ t, exec i s = .next t ∧ FaultTaken k info s t :=
  ⟨takeFault s ⟨k, info⟩, by rw [exec_eq, hr, complete_error], rfl⟩

/-! ### The field commands -/

/-- The register values congruent to 0 are 0 and M, since 2·M does not fit (R90). -/
theorem toNat_mod_M_eq_zero_iff (w : Word256) : w.toNat % M = 0 ↔ w.toNat = 0 ∨ w.toNat = M := by
  refine ⟨fun h => or_iff_not_imp_left.2 fun h0 => ?_, ?_⟩
  · have hlt : w.toNat < 2 * M := lt_trans w.isLt (by decide +kernel)
    exact Nat.eq_of_dvd_of_lt_two_mul h0 (Nat.dvd_of_mod_eq_zero h) hlt
  · rintro (h | h) <;> simp [h]

theorem result_modinv_error {d a : RegIx} {s : State} (h : (readR s a).toNat % M = 0) :
    result (.modinv d a) s = .error ⟨.noInverse, 0⟩ := by
  rw [result, finv_error _ h, except_bind_error]

theorem result_modinv_ok {d a : RegIx} {s : State} {v : Nat} (h : finv (readR s a).toNat = .ok v) :
    result (.modinv d a) s = .ok (writeR s d v) := by
  rw [result, h, except_bind_ok, except_pure]

/-- Settles O28: `finv` raises just for the values congruent to 0, and these are 0 and M. -/
theorem modinvIsTheInverseOrNoInverse : Obligations.ModinvIsTheInverseOrNoInverse := by
  intro d a s
  refine ⟨rfl, fun h => ?_, fun h0 hM => ?_⟩
  · exact exec_faultTaken (result_modinv_error ((toNat_mod_M_eq_zero_iff _).2 h))
  · have hne : (readR s a).toNat % M ≠ 0 := fun h => ((toNat_mod_M_eq_zero_iff _).1 h).elim h0 hM
    obtain ⟨v, hv, hpos, hlt, hinv⟩ := finv_ok _ hne
    obtain ⟨t, ht, rfl, honly⟩ := exec_intReg (result_modinv_ok (d := d) hv) (lt_trans hlt M_lt)
    exact ⟨t, ht, hpos, hlt, hinv, honly⟩

theorem fpow_lt (u e : Nat) : fpow u e < M := by
  rw [fpow_eq]
  exact Nat.mod_lt _ M_pos

/-- Settles O29: squaring and multiplying gives the power. -/
theorem modpowIsThePowerModM : Obligations.ModpowIsThePowerModM := by
  intro d a b s
  rw [← fpow_eq]
  exact ⟨rfl, exec_intReg rfl (lt_trans (fpow_lt _ _) M_lt)⟩

/-- Fermat's little theorem: modulo a prime, the power with exponent p − 2 is the inverse. -/
theorem eq_pow_of_mul_eq_one {p : Nat} [Fact p.Prime] {u v : ZMod p} (h : v * u = 1) : v = u ^ (p - 2) := by
  have hu : u ≠ 0 := right_ne_zero_of_mul_eq_one h
  have hp : p - 2 + 1 = p - 1 := by
    have := (Fact.out : p.Prime).two_le
    omega
  calc
    v = v * u ^ (p - 1) := by rw [ZMod.pow_card_sub_one_eq_one hu, mul_one]
    _ = v * u * u ^ (p - 2) := by rw [← hp, pow_succ']; ring
    _ = u ^ (p - 2) := by rw [h, one_mul]

/-- For u ≢ 0, the inverse of R92 and the power of R94 with exponent M − 2 are one number: both are below M, and their
residues agree. -/
theorem finv_eq_fpow (u : Nat) (h : u % M ≠ 0) : finv u = .ok (fpow u (M - 2)) := by
  have := M_fact
  obtain ⟨v, hv, -, hlt, hinv⟩ := finv_ok u h
  have hone : (v : ZMod M) * u = 1 := by
    rw [← Nat.cast_mul, ← cast_mod_M, hinv, Nat.cast_one]
  have heq : v = fpow u (M - 2) := by
    refine eq_of_cast_eq hlt (fpow_lt _ _) ?_
    rw [fpow_eq, cast_mod_M, Nat.cast_pow]
    exact eq_pow_of_mul_eq_one hone
  rw [hv, heq]

/-- Settles O30: the two commands complete the same result. -/
theorem modpowInvertsByFermat : Obligations.ModpowInvertsByFermat := by
  intro d a b s t u ha hb ht hu
  have hr : result (.modinv d a) s = result (.modpow d a b) s := by
    rw [result_modinv_ok (finv_eq_fpow _ ha), result, hb]
  rw [exec_eq] at ht hu
  rw [hr, ht] at hu
  exact Host.Outcome.next.inj hu

/-- Settles O27: the multiplier reduces the exact product. -/
theorem modmulIsTheProductModM : Obligations.ModmulIsTheProductModM := fun _ _ _ _ =>
  ⟨rfl, exec_intReg rfl (lt_trans (mulm_lt _ _) M_lt)⟩

end Sys2Proof.Proofs

/-! PROOFS. The family `41_curve.md`: what a point command answers from its operands, the scalars for which `SMUL`
faults, and the commands themselves. -/

namespace Sys2Proof.Proofs

open Sys2Proof Sys2Proof.Machine Sys2Proof.Laws

/-! ### A point operand and a point result (R22, R23, R101) -/

theorem point_of_inf {q : PointReg} (h : q.inf = true) : q.point = .inf := by simp [PointReg.point, h]

theorem point_of_finite {q : PointReg} (h : q.inf = false) : q.point = .aff q.x.toNat q.y.toNat := by simp [PointReg.point, h]

/-- A line gives coordinates in range, so the register holds them unchanged. -/
theorem lineGives_toReg {l x1 y1 x2 x' y' : Nat} (h : LineGives l x1 y1 x2 x' y') :
    LineGives l x1 y1 x2 (Point.aff x' y').toReg.x.toNat (Point.aff x' y').toReg.y.toNat := by
  obtain ⟨hx, hy, -⟩ := id h
  obtain ⟨-, hx', hy'⟩ := toReg_aff_fields x' y' hx hy
  rwa [hx', hy']

section
variable {i : Instr} {s : State} {d : RegIx}

theorem exec_of_result_ok {s' : State} (hr : result i s = .ok s') : exec i s = .next (finish s') := by
  rw [exec_eq, hr, complete_ok]

/-- A command whose result is a write of one point register ends with the point there, and writes no more. -/
theorem exec_pointReg {P : Point} (hr : result i s = .ok (writeP s d P)) :
    ∃ t, exec i s = .next t ∧ readP t d = P.toReg ∧ OnlyPointReg d s t :=
  ⟨finish (writeP s d P), exec_of_result_ok hr, readP_writeP_same s d P, onlyPointReg_writeP s d P⟩

theorem exec_linePoint {l x1 y1 x2 x' y' : Nat} (hr : result i s = .ok (writeP s d (.aff x' y')))
    (hl : LineGives l x1 y1 x2 x' y') :
    ∃ t, exec i s = .next t ∧ (readP t d).inf = false ∧
      LineGives l x1 y1 x2 (readP t d).x.toNat (readP t d).y.toNat ∧ OnlyPointReg d s t := by
  obtain ⟨t, ht, hread, honly⟩ := exec_pointReg hr
  exact ⟨t, ht, by rw [hread]; rfl, by rw [hread]; exact lineGives_toReg hl, honly⟩

theorem exec_curvePoint [Fact (Nat.Prime M)] {P : Point} {Q : secp256k1.Point} (hr : result i s = .ok (writeP s d P))
    (hP : Represents P Q) : ∃ t, exec i s = .next t ∧ Represents (readP t d).point Q ∧ OnlyPointReg d s t := by
  obtain ⟨t, ht, hread, honly⟩ := exec_pointReg hr
  exact ⟨t, ht, by rw [hread]; exact represents_toReg P Q hP, honly⟩

end

/-- Settles O31: the generator is written to the register. -/
theorem pldgLoadsTheGenerator : Obligations.PldgLoadsTheGenerator := by
  intro d s
  obtain ⟨t, ht, hread, honly⟩ := exec_pointReg (i := .pldg d) (s := s) rfl
  exact ⟨rfl, t, ht, honly, hread⟩

/-! ### `PDBL` -/

section
variable {d a b : RegIx} {s : State}

theorem result_pdbl_outOfRange (h : ¬ Readable (readP s a)) : result (.pdbl d a) s = .error ⟨.operandRange, 0⟩ := by
  rw [result, rdpoint_outOfRange s a h, except_bind_error]

theorem result_pdbl {R : Point} (h : Readable (readP s a)) (hR : fdouble (readP s a).point = .ok R) :
    result (.pdbl d a) s = .ok (writeP s d R) := by
  rw [result, rdpoint_readable s a h, except_bind_ok, hR, except_bind_ok, except_pure]

theorem fdouble_point_eq_inf {q : PointReg} (h : q.inf = true ∨ q.y = 0) : fdouble q.point = .ok .inf := by
  cases hi : q.inf
  · have hy : q.y = 0 := h.resolve_left (by simp [hi])
    rw [point_of_finite hi, hy]
    exact fdouble_zero_y _
  · rw [point_of_inf hi, fdouble_inf]

/-- Settles O32: the slope of the tangent exists wherever y ≠ 0, since 2y is then invertible. -/
theorem pdblIsTheTangentRule : Obligations.PdblIsTheTangentRule := by
  intro d a s
  refine ⟨rfl, fun h => exec_faultTaken (result_pdbl_outOfRange h), fun h => ?_, fun hf hr hy => ?_⟩
  · exact exec_pointReg (result_pdbl (h.imp_right And.left) (fdouble_point_eq_inf (h.imp_right And.right)))
  · have hy0 : (readP s a).y.toNat ≠ 0 := fun h => hy (BitVec.eq_of_toNat_eq h)
    obtain ⟨l, x', y', hR, -, hslope, hline⟩ := fdouble_tangent (readP s a).x.toNat (readP s a).y.toNat hy0 hr.2
    rw [← point_of_finite hf] at hR
    obtain ⟨t, ht, hfin, hline', honly⟩ := exec_linePoint (result_pdbl (d := d) (.inr hr) hR) hline
    exact ⟨t, l, ht, hfin, hslope, hline', honly⟩

/-! ### `PADD` -/

theorem result_padd_outOfRange (h : ¬ Readable (readP s a) ∨ ¬ Readable (readP s b)) :
    result (.padd d a b) s = .error ⟨.operandRange, 0⟩ := by
  by_cases ha : Readable (readP s a)
  · rw [result, rdpoint_readable s a ha, except_bind_ok, rdpoint_outOfRange s b (h.resolve_left (not_not_intro ha)),
      except_bind_error]
  · rw [result, rdpoint_outOfRange s a ha, except_bind_error]

theorem result_padd (ha : Readable (readP s a)) (hb : Readable (readP s b)) :
    result (.padd d a b) s = (fadd hw (readP s a).point (readP s b).point >>= fun R => pure (writeP s d R)) := by
  rw [result, rdpoint_readable s a ha, except_bind_ok, rdpoint_readable s b hb, except_bind_ok]

/-- Settles O33: the slope of the chord exists wherever the x-coordinates differ, since their difference is then invertible. -/
theorem paddIsTheChordRule : Obligations.PaddIsTheChordRule := by
  intro d a b s
  refine ⟨rfl, fun h => exec_faultTaken (result_padd_outOfRange h), fun ha hb h => ?_, fun hfa hfb hra hrb => ?_⟩
  · have hadd : fadd hw (readP s a).point (readP s b).point = .ok .inf := by
      rcases h with h | h
      · rw [point_of_inf h, fadd_inf_left]
      · rw [point_of_inf h, fadd_inf_right]
    exact exec_pointReg (by rw [result_padd ha hb, hadd, except_bind_ok, except_pure])
  · have hr := result_padd (d := d) (.inr hra) (.inr hrb)
    rw [point_of_finite hfa, point_of_finite hfb] at hr
    refine ⟨fun hx => exec_faultTaken ?_, fun hx => ?_⟩
    · rw [hr, hx, fadd_strict_coincident hw rfl, except_bind_error]
    · have hne : (readP s a).x.toNat % M ≠ (readP s b).x.toNat % M := by
        rw [Nat.mod_eq_of_lt hra.1, Nat.mod_eq_of_lt hrb.1]
        exact fun h => hx (BitVec.eq_of_toNat_eq h)
      obtain ⟨l, x', y', hR, -, hslope, hline⟩ := fadd_chord hw _ (readP s a).y.toNat _ (readP s b).y.toNat hne
      rw [hR, except_bind_ok, except_pure] at hr
      obtain ⟨t, ht, hfin, hline', honly⟩ := exec_linePoint hr hline
      exact ⟨t, l, ht, hfin, hslope, hline', honly⟩

end

/-! ### The addition of R110 under `CORRECTED` -/

section
variable [Fact (Nat.Prime M)]

/-- Two points with the same x and different y are inverse: their y-coordinates have the sum 0, and so have they. -/
theorem addm_eq_zero_of_represents {x y1 y2 : Nat} {Q1 Q2 : secp256k1.Point} (h1 : Represents (.aff x y1) Q1)
    (h2 : Represents (.aff x y2) Q2) (hy : y1 ≠ y2) : addm y1 y2 = 0 ∧ Q1 + Q2 = 0 := by
  obtain ⟨-, hy1, hn1, rfl⟩ := (represents_aff _ _ _).1 h1
  obtain ⟨-, hy2, hn2, rfl⟩ := (represents_aff _ _ _).1 h2
  have hne : (y1 : ZMod M) ≠ y2 := fun h => hy (eq_of_cast_eq hy1 hy2 h)
  have hsq : (y1 : ZMod M) * y1 = y2 * y2 := by
    rw [(secp_nonsingular _ _).1 hn1, (secp_nonsingular _ _).1 hn2]
  have hsum : (y1 : ZMod M) + y2 = 0 := (mul_eq_zero.1 (by linear_combination hsq)).resolve_left (sub_ne_zero.2 hne)
  constructor
  · rwa [addm, ← cast_eq_zero_iff, Nat.cast_add]
  · refine WeierstrassCurve.Affine.Point.add_of_Y_eq rfl ?_
    simp only [WeierstrassCurve.Affine.negY, secp256k1]
    linear_combination hsum

end

/-- Settles O34: for equal x, the points are equal and doubled, or inverse; for different x, the chord is the sum. -/
theorem correctedAdditionIsTheGroupSum : Obligations.CorrectedAdditionIsTheGroupSum := by
  intro _ cfg x1 y1 x2 y2 Q1 Q2 hc h1 h2
  by_cases hx : x1 = x2
  · subst hx
    by_cases hy : y1 = y2
    · subst hy
      obtain ⟨R, hR, hrep⟩ := fdouble_represents _ _ h1
      exact ⟨R, by simp [fadd, faddCoincident, hc, hR], by rwa [represents_unique _ _ _ h2 h1]⟩
    · obtain ⟨hm, hsum⟩ := addm_eq_zero_of_represents h1 h2 hy
      exact ⟨.inf, by simp [fadd, faddCoincident, hc, hy, hm], by rwa [represents_inf]⟩
  · obtain ⟨x, y, hR, hrep⟩ := fadd_represents cfg _ _ _ _ _ _ h1 h2 hx
    exact ⟨_, hR, hrep⟩

/-! ### `SMUL` -/

section
variable {d a b : RegIx} {s : State}

theorem result_smul_outOfRange (h : ¬ Readable (readP s b)) : result (.smul d a b) s = .error ⟨.operandRange, 0⟩ := by
  rw [result, rdpoint_outOfRange s b h, except_bind_error]

theorem result_smul (h : Readable (readP s b)) : result (.smul d a b) s =
    (fsmul hw (readR s a).toNat (readP s b).point >>= fun R => pure (writeP s d R)) := by
  rw [result, rdpoint_readable s b h, except_bind_ok]

theorem result_smul_ok {R : Point} (h : Readable (readP s b))
    (hR : fsmul hw (readR s a).toNat (readP s b).point = .ok R) : result (.smul d a b) s = .ok (writeP s d R) := by
  rw [result_smul h, hR, except_bind_ok, except_pure]

theorem result_smul_error {f : Raised} (h : Readable (readP s b))
    (hf : fsmul hw (readR s a).toNat (readP s b).point = .error f) : result (.smul d a b) s = .error f := by
  rw [result_smul h, hf, except_bind_error]

end

theorem smulFrom_inf_inf (cfg : Config) (e : Nat) : smulFrom cfg e .inf .inf = .ok .inf := by
  induction e using Nat.strong_induction_on with
  | _ e ih =>
    by_cases h0 : e = 0
    · rw [h0, smulFrom_zero]
    · have hbit : accumulateBit cfg e .inf .inf = .ok .inf := by simp [accumulateBit, accumulate]
      rw [smulFrom_pos _ _ _ _ h0, hbit, except_bind_ok, fdouble_inf, except_bind_ok]
      exact ih (e / 2) (by omega)

/-- The product by 2^i + k is the product by k, then one accumulation of the i-fold double (R111). -/
theorem fsmul_highBit (cfg : Config) {i k : Nat} {P D : Point} (hP : Ranged P) (hk : k < 2 ^ i)
    (hD : doubleTimes i P = .ok D) : fsmul cfg (2 ^ i + k) P = (fsmul cfg k P >>= fun A => accumulate cfg A D) := by
  simp only [fsmul_eq_smulFrom, smulFrom_highBit cfg i k .inf P hP hk, hD, except_bind_ok]

theorem fsmul_two_pow (cfg : Config) {i : Nat} {P D : Point} (hP : Ranged P) (hD : doubleTimes i P = .ok D) :
    fsmul cfg (2 ^ i) P = .ok D := by
  have h := fsmul_highBit cfg hP (Nat.two_pow_pos i) hD
  rwa [Nat.add_zero, fsmul_zero] at h

/-- Settles O35: one bit set is one accumulation, into an infinite accumulator. -/
theorem smulOfOneBitScalars : Obligations.SmulOfOneBitScalars := by
  intro d a b s
  refine ⟨rfl, fun h => exec_faultTaken (result_smul_outOfRange h), fun hr h => ?_, fun i hr hi => ?_⟩
  · have hmul : fsmul hw (readR s a).toNat (readP s b).point = .ok .inf := by
      rcases h with h | h
      · rw [h, fsmul_zero]
      · rw [point_of_inf h, fsmul_eq_smulFrom, smulFrom_inf_inf]
    exact exec_pointReg (result_smul_ok hr hmul)
  · obtain ⟨D, hD, -⟩ := doubleTimes_total _ (ranged_point _ hr) i
    obtain ⟨t, ht, hread, honly⟩ :=
      exec_pointReg (result_smul_ok (d := d) hr (hi ▸ fsmul_two_pow hw (ranged_point _ hr) hD))
    exact ⟨t, D, ht, hD, hread, honly⟩

/-- Settles O36: by what the product of the lower bits answers; an infinite accumulator is replaced, a finite one is added to. -/
theorem smulAccumulatesTheHighestBitLast : Obligations.SmulAccumulatesTheHighestBitLast := by
  intro d a b s i k hr hki hk
  obtain ⟨D, hD, -⟩ := doubleTimes_total _ (ranged_point _ hr) i
  have hmul := fsmul_highBit hw (ranged_point _ hr) hk hD
  rw [← hki] at hmul
  rw [hD]
  cases hA : fsmul hw k (readP s b).point with
  | error f =>
    rw [hA, except_bind_error] at hmul
    exact exec_faultTaken (result_smul_error hr hmul)
  | ok A =>
    rw [hA, except_bind_ok] at hmul
    cases A with
    | inf => exact exec_pointReg (result_smul_ok hr hmul)
    | aff x y =>
      rw [accumulate] at hmul
      cases hR : fadd hw (.aff x y) D with
      | error f =>
        obtain ⟨t, ht, hfault⟩ := exec_faultTaken (result_smul_error (d := d) hr (hmul.trans hR))
        refine ⟨t, ht, fun _ h => ?_, fun _ h => ?_⟩ <;> rw [hR] at h <;> cases h
        exact hfault
      | ok R =>
        obtain ⟨t, ht, hwrite⟩ := exec_pointReg (result_smul_ok (d := d) hr (hmul.trans hR))
        refine ⟨t, ht, fun _ h => ?_, fun _ h => ?_⟩ <;> rw [hR] at h <;> cases h
        exact hwrite

/-! ### Where `SMUL` of a point of the curve faults (R104) -/

/-- Induction on the set bits from bit 0 upward: every positive number is a power of two and a smaller rest. -/
theorem highBit_induction {motive : Nat → Prop} (zero : motive 0)
    (two_pow_add : ∀ i k, k < 2 ^ i → motive k → motive (2 ^ i + k)) (k : Nat) : motive k := by
  induction k using Nat.strong_induction_on with
  | _ k ih =>
    by_cases h0 : k = 0
    · rwa [h0]
    · have hle := Nat.log2_self_le h0
      have hlt : k < 2 ^ (k.log2 + 1) := Nat.lt_log2_self
      have hpos := Nat.two_pow_pos k.log2
      rw [← Nat.add_sub_cancel' hle]
      exact two_pow_add _ _ (by omega) (ih _ (by omega))

/-- The two points of the group have the same x-coordinate: they are equal or inverse. -/
def SameX (A S : secp256k1.Point) : Prop := A = S ∨ A = -S

section
variable [Fact (Nat.Prime M)]

/-- Bit i of k is set, and the part of k·Q accumulated before it meets its addend 2^i·Q. -/
def MeetsAt (k : Nat) (Q : secp256k1.Point) (i : Nat) : Prop :=
  k.testBit i = true ∧ SameX ((k % 2 ^ i) • Q) ((2 ^ i) • Q)

/-- The set bits of 2^i + k are those of k and bit i; below bit i the same parts meet. -/
theorem meetsAt_two_pow_add {i k : Nat} (hk : k < 2 ^ i) (Q : secp256k1.Point) (j : Nat) :
    MeetsAt (2 ^ i + k) Q j ↔ MeetsAt k Q j ∨ (j = i ∧ SameX (k • Q) ((2 ^ i) • Q)) := by
  unfold MeetsAt
  rcases lt_trichotomy j i with hj | rfl | hj
  · obtain ⟨c, hc⟩ := pow_dvd_pow 2 hj.le
    have hmod : (2 ^ i + k) % 2 ^ j = k % 2 ^ j := by rw [hc, Nat.mul_add_mod]
    rw [Nat.testBit_two_pow_add_gt hj, hmod]
    simp [hj.ne]
  · rw [Nat.testBit_two_pow_add_eq, Nat.testBit_lt_two_pow hk, Nat.add_mod_left, Nat.mod_eq_of_lt hk]
    simp
  · have hlt : 2 ^ i + k < 2 ^ j := by
      have : 2 ^ (i + 1) ≤ 2 ^ j := Nat.pow_le_pow_right (by decide) hj
      omega
    rw [Nat.testBit_lt_two_pow hlt, Nat.testBit_lt_two_pow (by omega : k < 2 ^ j)]
    simp [hj.ne']

/-- An addend with the accumulator's x-coordinate is the fault: the addend being finite, the accumulator is finite too. -/
theorem accumulate_sameX (cfg : Config) (hc : cfg.paddCoincident = .strict) {acc : Point} {x y : Nat}
    {A S : secp256k1.Point} (hA : Represents acc A) (hS : Represents (.aff x y) S) (h : SameX A S) :
    accumulate cfg acc (.aff x y) = .error ⟨.coincidentX, 0⟩ := by
  cases acc with
  | inf =>
    obtain ⟨-, -, hn, rfl⟩ := (represents_aff _ _ _).1 hS
    rw [represents_inf] at hA
    simp [SameX, hA] at h
  | aff x1 y1 =>
    obtain rfl := same_x_of_represents _ _ _ _ _ _ hA hS h
    exact fadd_strict_coincident cfg hc _ _ _

/-- Everything `fsmul` can do under `STRICT` on a finite point of the curve: the fault where two parts meet, the multiple
where none do (R104, R111). -/
theorem fsmul_meets_cases (cfg : Config) (hc : cfg.paddCoincident = .strict) {x y : Nat} {Q : secp256k1.Point}
    (hQ : Represents (.aff x y) Q) (k : Nat) :
    ((∃ i, MeetsAt k Q i) ∧ fsmul cfg k (.aff x y) = .error ⟨.coincidentX, 0⟩) ∨
    ((∀ i, ¬ MeetsAt k Q i) ∧ ∃ R, fsmul cfg k (.aff x y) = .ok R ∧ Represents R (k • Q)) := by
  induction k using highBit_induction with
  | zero => exact .inr ⟨fun i h => by simp [MeetsAt] at h, .inf, fsmul_zero _ _, by rw [represents_inf, zero_nsmul]⟩
  | two_pow_add i k hk ih =>
    obtain ⟨x', y', hD, hD'⟩ := doubleTimes_represents i x y Q hQ
    rw [fsmul_highBit cfg (ranged_of_represents _ _ hQ) hk hD]
    simp only [meetsAt_two_pow_add hk]
    rcases ih with ⟨⟨j, hj⟩, hf⟩ | ⟨hnone, A, hA, hA'⟩
    · exact .inl ⟨⟨j, .inl hj⟩, by rw [hf, except_bind_error]⟩
    · rw [hA, except_bind_ok]
      rcases accumulate_represents cfg hc A x' y' _ _ hA' hD' with ⟨R, hR, hR'⟩ | ⟨hsame, hf⟩
      · have hdiff : ¬ SameX (k • Q) ((2 ^ i) • Q) := fun h => by
          rw [accumulate_sameX cfg hc hA' hD' h] at hR
          cases hR
        exact .inr ⟨fun j hj => hj.elim (hnone j) fun h => hdiff h.2, R, hR, by rwa [Nat.add_comm, add_nsmul]⟩
      · exact .inl ⟨⟨i, .inr ⟨rfl, hsame⟩⟩, hf⟩

theorem readable_of_represents {q : PointReg} {Q : secp256k1.Point} (hf : q.inf = false) (h : Represents q.point Q) :
    Readable q := by
  rw [point_of_finite hf] at h
  obtain ⟨hx, hy, -⟩ := onCurve_of_represents _ _ _ h
  exact .inr ⟨hx, hy⟩

end

/-- Settles O37: the first two parts that meet decide the fault, and no other part raises one. -/
theorem smulIsTheMultipleOrCoincidentX : Obligations.SmulIsTheMultipleOrCoincidentX := by
  intro _ d a b s Q hf hQ
  have hr := readable_of_represents hf hQ
  rw [point_of_finite hf] at hQ
  have hcases := fsmul_meets_cases hw rfl hQ (readR s a).toNat
  rw [← point_of_finite hf] at hcases
  rcases hcases with ⟨⟨j, hbit, hsame⟩, hmul⟩ | ⟨hnone, R, hmul, hR⟩
  · exact ⟨fun _ => exec_faultTaken (result_smul_error hr hmul),
      fun h => (hsame.elim (h j hbit).1 (h j hbit).2).elim⟩
  · exact ⟨fun ⟨i, hi⟩ => absurd hi (hnone i), fun _ => exec_curvePoint (result_smul_ok hr hmul) hR⟩

theorem toReg_G_point : G.toReg.point = G := point_toReg_aff GX GY (by decide) (by decide)

theorem readable_toReg_G : Readable G.toReg := .inr (inRange_toReg ranged_G rfl)

/-- Settles O38: the multiples of G below 2^256 meet only where they have the sum n. -/
theorem smulOfTheGeneratorFaultsOnlyAtItsOrder : Obligations.SmulOfTheGeneratorFaultsOnlyAtItsOrder := by
  intro _ d a b s g hg hb
  change readP s b = G.toReg at hb
  have hr : Readable (readP s b) := hb ▸ readable_toReg_G
  have hG : (readP s b).point = G := by rw [hb, toReg_G_point]
  refine ⟨order_of_G g hg, fun hn => exec_faultTaken (result_smul_error hr ?_), fun hn => ?_⟩
  · rw [hG, hn, fsmul_G_order hw rfl]
  · obtain ⟨R, hR, hrep⟩ := fsmul_G hw rfl g hg _ (readR s a).isLt hn
    rw [← order_of_G g hg, mod_addOrderOf_nsmul]
    exact exec_curvePoint (result_smul_ok hr (hG ▸ hR)) hrep

/-! ### `ONCURVE` and `DERIVE` -/

/-- Settles O39: the operand is checked first, then the curve equation decides `T`. -/
theorem oncurveDecidesTheCurveEquation : Obligations.OncurveDecidesTheCurveEquation := by
  intro a s
  refine ⟨rfl, fun h => exec_faultTaken ?_, fun h => exec_faultTaken ?_, fun hf hr => ?_⟩
  · rw [result, rdpoint_inf s a h, except_bind_ok, foncurve, except_bind_error]
  · rw [result, rdpoint_outOfRange s a h, except_bind_error]
  · obtain ⟨v, hv, hiff⟩ := foncurve_aff (readP s a).x.toNat (readP s a).y.toNat
    have hres : result (.oncurve a) s = .ok (writeT s v) := by
      rw [result, rdpoint_finite s a hf hr, except_bind_ok, hv, except_bind_ok, except_pure]
    exact ⟨finish (writeT s v), by rw [exec_eq, hres, complete_ok], rfl, hiff⟩

section
variable {d a : RegIx} {s : State}

theorem result_derive_ok {R : Point} (h : fderive hw (readR s a).toNat = .ok R) :
    result (.derive d a) s = .ok (writeP s d R) := by
  rw [result, h, except_bind_ok, except_pure]

theorem result_derive_error {f : Raised} (h : fderive hw (readR s a).toNat = .error f) :
    result (.derive d a) s = .error f := by
  rw [result, h, except_bind_error]

end

theorem fderive_zero : fderive hw 0 = .error ⟨.infinityOperand, 0⟩ := rfl

theorem fderive_groupOrder : fderive hw groupOrder = .error ⟨.coincidentX, 0⟩ := by
  have := M_fact
  rw [fderive, fsmul_G_order hw rfl, except_bind_error]

theorem fderive_ok [Fact (Nat.Prime M)] {g : secp256k1.Point} (hg : Represents G g) (k : Word256) (h0 : k.toNat ≠ 0)
    (hn : k.toNat ≠ groupOrder) :
    ∃ x y, fderive hw k.toNat = .ok (.aff x y) ∧ Represents (.aff x y) (k.toNat • g) := by
  rcases fderive_cases g hg k.toNat k.isLt with ⟨h, -⟩ | ⟨h, -⟩ | ⟨-, -, h⟩
  · exact absurd h h0
  · exact absurd h hn
  · exact h

/-- Settles O40: the multiple of G is a finite point of the curve, so the check of R113 passes. -/
theorem deriveIsTheMultipleOfG : Obligations.DeriveIsTheMultipleOfG := by
  intro _ d a s g hg
  refine ⟨rfl, fun h => exec_faultTaken (result_derive_error (h ▸ fderive_zero)),
    fun h => exec_faultTaken (result_derive_error (h ▸ fderive_groupOrder)), fun h0 hn => ?_⟩
  obtain ⟨x, y, hR, hrep⟩ := fderive_ok hg _ h0 hn
  obtain ⟨t, ht, hread, honly⟩ := exec_pointReg (result_derive_ok (d := d) hR)
  exact ⟨t, ht, by rw [hread]; rfl, by rw [hread]; exact represents_toReg _ _ hrep, honly⟩

/-! ### The sequence (R107, R108) -/

/-- Settles O41: the four writes of the rule are all there is. -/
theorem seqinitStartsAFreshSequence : Obligations.SeqinitStartsAFreshSequence := by
  intro a b s
  exact ⟨rfl, _, exec_of_result_ok rfl, rfl, rfl, rfl, rfl, rfl⟩

/-- Settles O42: no point is computed when as many were produced as the sequence has. -/
theorem seqnextReportsTheEnd : Obligations.SeqnextReportsTheEnd := by
  intro d s h
  exact ⟨rfl, _, exec_of_result_ok (if_pos h), rfl⟩

section
variable {d : RegIx} {s : State} (h : s.seqIdx.toNat < s.seqCnt.toNat)
include h

theorem exec_seqnext_fault {k : FaultKind} (hf : seqPoint s = .error ⟨k, 0⟩) :
    ∃ t, exec (.seqnext d) s = .next t ∧ FaultTaken k 0 s t :=
  exec_faultTaken (by rw [result, if_neg (Nat.not_le.2 h), hf, except_bind_error])

/-- `SEQNEXT` on a sequence that has points left delivers the point and counts it, and writes no more. -/
theorem exec_seqnext_point {P : Point} (hP : seqPoint s = .ok P) :
    ∃ t, exec (.seqnext d) s = .next t ∧ readP t d = P.toReg ∧ t.seqCur = readP t d ∧
      t.seqIdx.toNat = s.seqIdx.toNat + 1 ∧
      t = { s with p := t.p, seqCur := t.seqCur, seqIdx := t.seqIdx, endFlag := false, busy := false, done := true } ∧
      ∀ k : Fin 4, k ≠ pointIx d → t.p[k] = s.p[k] := by
  have hr : result (.seqnext d) s =
      .ok (writeEnd { writeP s d P with seqCur := P.toReg, seqIdx := s.seqIdx + 1 } false) := by
    rw [result, if_neg (Nat.not_le.2 h), hP, except_bind_ok, except_pure]
  have hread := readP_writeP_same s d P
  refine ⟨_, exec_of_result_ok hr, hread, hread.symm, ?_, rfl, fun k hk => writeP_get_ne s d P k hk⟩
  show (s.seqIdx + 1).toNat = s.seqIdx.toNat + 1
  bv_omega

end

theorem seqPoint_first {s : State} (h : s.seqIdx.toNat = 0) : seqPoint s = fderive hw s.seqK.toNat :=
  if_pos (BitVec.eq_of_toNat_eq h)

theorem seqPoint_later {s : State} (h : s.seqIdx.toNat ≠ 0) (hf : s.seqCur.inf = false) :
    seqPoint s = fadd hw (.aff s.seqCur.x.toNat s.seqCur.y.toNat) (.aff GX GY) := by
  rw [seqPoint, if_neg fun h0 => h (by rw [h0]; rfl), point_of_finite hf, G]

/-- Settles O43: the first point is the one `DERIVE` gives, and raises what `DERIVE` raises. -/
theorem seqnextDeliversTheDerivedKeyFirst : Obligations.SeqnextDeliversTheDerivedKeyFirst := by
  intro _ d s g hg hidx hcnt
  have hlt : s.seqIdx.toNat < s.seqCnt.toNat := by omega
  have hfirst := seqPoint_first hidx
  refine ⟨fun h => exec_seqnext_fault hlt ?_, fun h => exec_seqnext_fault hlt ?_, fun h0 hn => ?_⟩
  · rw [hfirst, h, fderive_zero]
  · rw [hfirst, h, fderive_groupOrder]
  · obtain ⟨x, y, hR, hrep⟩ := fderive_ok hg _ h0 hn
    obtain ⟨t, ht, hread, hcur, hcount, hframe⟩ := exec_seqnext_point (d := d) hlt (hfirst.trans hR)
    exact ⟨t, ht, by rw [hread]; rfl, by rw [hread]; exact represents_toReg _ _ hrep, hcur, by rw [hcount, hidx], hframe⟩

/-- Settles O44: the chord through the previous point and G exists wherever their x-coordinates differ. -/
theorem seqnextAddsGAfterwards : Obligations.SeqnextAddsGAfterwards := by
  intro d s hidx hlt hf hr
  have hlater := seqPoint_later hidx hf
  refine ⟨fun hx => exec_seqnext_fault hlt ?_, fun hx => ?_⟩
  · rw [hlater, hx, fadd_strict_coincident hw rfl]
  · have hne : s.seqCur.x.toNat % M ≠ GX % M := by rwa [Nat.mod_eq_of_lt hr.1, Nat.mod_eq_of_lt G_ranged.1]
    obtain ⟨l, x', y', hR, -, hslope, hline⟩ := fadd_chord hw _ s.seqCur.y.toNat _ GY hne
    obtain ⟨t, ht, hread, hcur, hcount, hframe⟩ := exec_seqnext_point (d := d) hlt (hlater.trans hR)
    exact ⟨t, l, ht, by rw [hread]; rfl, hslope, by rw [hread]; exact lineGives_toReg hline, hcur, hcount, hframe⟩

end Sys2Proof.Proofs

/-! PROOFS. The family `42_base58.md`: `B58ENC`, `B58DEC` and their round trips. -/

namespace Sys2Proof.Proofs

open Sys2Proof Sys2Proof.Machine Sys2Proof.Laws

/-! ### `B58ENC` (R121, R126) -/

/-- A command whose result is a write of the string ends with the string in the buffer, and writes no more. -/
theorem exec_string {i : Instr} {s : State} {b : List Byte} (hr : result i s = .ok (writeString s b))
    (hb : b.length ≤ 64) : ∃ t, exec i s = .next t ∧ HoldsString t b ∧ OnlyString s t :=
  ⟨finish (writeString s b), exec_of_result_ok hr, holdsString_writeString s b hb, rfl⟩

theorem b58enc_register_length_le (w : Word256) : (b58enc w.toNat).length ≤ 64 :=
  le_trans (b58enc_length_le _ w.isLt) (by decide)

/-- Settles O49: the string written is the numeral of the register, which fits the buffer. -/
theorem b58encWritesTheNumeral : Obligations.B58encWritesTheNumeral := by
  intro a s
  obtain ⟨t, ht, hstr, honly⟩ := exec_string (i := .b58enc a) (s := s) rfl (b58enc_register_length_le (readR s a))
  exact ⟨rfl, t, _, ht, b58enc_isNumeral _, hstr, b58enc_length_le _ (readR s a).isLt, honly⟩

/-! ### `B58DEC` (R122, R123) -/

section
variable {s : State} {d : RegIx} {str : List Byte}

theorem result_b58dec_long (h : 64 < s.slen.toNat) : result (.b58dec d) s = .error ⟨.operandRange, 0⟩ := by
  rw [result, rdstring_long s h, except_bind_error]

theorem result_b58dec_ok {v : Nat} (hs : rdstring s = .ok str) (hv : b58dec str 0 = .ok v) :
    result (.b58dec d) s = .ok (writeR s d v) := by
  rw [result, hs, except_bind_ok, hv, except_bind_ok, except_pure]

theorem result_b58dec_error {f : Raised} (hs : rdstring s = .ok str) (hf : b58dec str 0 = .error f) :
    result (.b58dec d) s = .error f := by
  rw [result, hs, except_bind_ok, hf, except_bind_error]

end

section
variable {x : Byte} {rest : List Byte} {ds : List Nat}

theorem b58decLoop_invalid {i acc : Nat} (hx : ∀ e, e < 58 → x ≠ code e) :
    b58decLoop (x :: rest) i acc = .error ⟨.invalidCharacter, BitVec.ofNat 32 i⟩ := by
  rw [b58decLoop, digit_none_of_ne_code x hx]

theorem b58decLoop_overflow {i acc e : Nat} (he : e < 58) (ho : 2 ^ 256 ≤ acc * 58 + e) :
    b58decLoop (code e :: rest) i acc = .error ⟨.b58Overflow, BitVec.ofNat 32 i⟩ := by
  rw [b58decLoop, digit_code e he]
  exact if_pos ho

/-- Digits whose value fits are passed over, and the index counts them. -/
theorem b58dec_prefix (hd : AllDigits ds) (hv : digitsValue ds < 2 ^ 256) :
    b58dec (ds.map code ++ rest) 0 = b58decLoop rest ds.length (digitsValue ds) := by
  rw [b58dec, b58decLoop_prefix ds rest 0 0 hd hv, Nat.zero_add, digitsValue]

end

/-- Settles O50: the loop passes over the digits that fit, and the character after them decides. -/
theorem b58decReadsTheNumeral : Obligations.B58decReadsTheNumeral := by
  intro d s
  refine ⟨rfl, fun h => exec_faultTaken (result_b58dec_long h), fun hlen ds hd hv => ⟨fun hs => ?_, fun x rest hs => ?_⟩⟩
  · exact exec_intReg (result_b58dec_ok (hs ▸ rdstring_short s hlen) (b58dec_digits ds 0 hd hv)) hv
  · have hread : rdstring s = .ok (ds.map code ++ x :: rest) := hs ▸ rdstring_short s hlen
    have hpre := b58dec_prefix (rest := x :: rest) hd hv
    refine ⟨fun hx => ?_, fun e he hx ho => ?_⟩
    · exact exec_faultTaken (result_b58dec_error hread (hpre.trans (b58decLoop_invalid hx)))
    · subst hx
      exact exec_faultTaken (result_b58dec_error hread (hpre.trans (b58decLoop_overflow he ho)))

/-! ### The round trips (R124) -/

/-- `B58DEC` ends without fault only where the string decodes, and then it has written the value. -/
theorem exec_b58dec_noFault {d : RegIx} {s t : State} (h : exec (.b58dec d) s = .next t) (hf : t.fault = false) :
    ∃ v, b58dec (readString s) 0 = .ok v ∧ (readR t d).toNat = v := by
  rcases rdstring_cases s with ⟨hlong, -⟩ | ⟨-, hs, -⟩
  · rw [exec_eq, result_b58dec_long hlong] at h
    cases h
    cases hf
  · cases hd : b58dec (readString s) 0 with
    | error f =>
      rw [exec_eq, result_b58dec_error hs hd] at h
      cases h
      cases hf
    | ok v =>
      rw [exec_eq, result_b58dec_ok hs hd] at h
      cases h
      exact ⟨v, rfl, toNat_readR_writeR s d v (b58dec_lt _ _ _ hd)⟩

/-- A decoding of digits that ends without fault answers their value, the accumulator in front. -/
theorem b58decLoop_digits_eq_of_ok {ds : List Nat} {i acc v : Nat} (hd : AllDigits ds)
    (h : b58decLoop (ds.map code) i acc = .ok v) : v = ds.foldl (fun a d => a * 58 + d) acc := by
  induction ds generalizing i acc with
  | nil => exact (Except.ok.inj h).symm
  | cons d ds ih =>
    rw [List.map_cons, b58decLoop, digit_code d (hd d (by simp))] at h
    dsimp only at h
    split at h
    · cases h
    · exact ih (fun x hx => hd x (by simp [hx])) h

/-- '1' is the digit 0 (R120). -/
theorem replicate_one_eq_map_code (m : Nat) : List.replicate m 0x31#8 = (List.replicate m 0).map code := by
  rw [List.map_replicate, show code 0 = 0x31#8 from rfl]

/-- Leading zero digits do not change the value (R122). -/
theorem digitsValue_replicate_zero_append (m : Nat) (ds : List Nat) :
    digitsValue (List.replicate m 0 ++ ds) = digitsValue ds := by
  rw [digitsValue_eq_ofDigits, digitsValue_eq_ofDigits, List.reverse_append, List.reverse_replicate,
    Nat.ofDigits_append_replicate_zero]

/-- A value has one numeral only: digits without a leading zero are the ones encoding writes (R126). -/
theorem b58enc_digitsValue {ds : List Nat} (hd : AllDigits ds) (h0 : ds.head? ≠ some 0) :
    b58enc (digitsValue ds) = ds.map code := by
  have hdigits : Nat.digits 58 (digitsValue ds) = ds.reverse := by
    rw [digitsValue_eq_ofDigits]
    refine Nat.digits_ofDigits 58 (by decide) _ (fun e he => hd e (List.mem_reverse.1 he)) fun hne hlast => h0 ?_
    rw [← List.getLast?_reverse, List.getLast?_eq_some_getLast hne, hlast]
  rw [b58enc_eq, hdigits, List.reverse_reverse]

/-- Decoding a string gives the value of its digits after the leading '1' characters. -/
theorem b58dec_leadingOnes {m v : Nat} {ds : List Nat} (hd : AllDigits ds)
    (h : b58dec (List.replicate m 0x31#8 ++ ds.map code) 0 = .ok v) : v = digitsValue ds := by
  have hall : AllDigits (List.replicate m 0 ++ ds) := by
    intro e he
    rcases List.mem_append.1 he with he | he
    · rw [List.eq_of_mem_replicate he]
      decide
    · exact hd e he
  rw [replicate_one_eq_map_code, ← List.map_append] at h
  exact (b58decLoop_digits_eq_of_ok hall h).trans (digitsValue_replicate_zero_append m ds)

/-- Settles O51: one way a value decodes from its numeral, the other way the digits after the leading '1' characters are
the numeral of the value. -/
theorem base58RoundTrips : Obligations.Base58RoundTrips := by
  refine ⟨fun a d s t h => ?_, fun d s t m ds _ h hf hd h0 hs => ?_⟩
  · rw [exec_of_result_ok rfl] at h
    cases h
    have hread : rdstring (finish (writeString s (b58enc (readR s a).toNat))) = .ok (b58enc (readR s a).toNat) :=
      rdstring_writeString s _ (b58enc_register_length_le (readR s a))
    obtain ⟨u, hu, hval, honly, -⟩ :=
      exec_intReg (result_b58dec_ok (d := d) hread (b58dec_b58enc _ 0 (readR s a).isLt)) (readR s a).isLt
    exact ⟨u, hu, BitVec.eq_of_toNat_eq hval, by rw [honly]; rfl⟩
  · obtain ⟨v, hv, hval⟩ := exec_b58dec_noFault h hf
    have hval' : (readR t d).toNat = digitsValue ds := hval.trans (b58dec_leadingOnes hd (hs ▸ hv))
    obtain ⟨u, hu, hstr, -⟩ := exec_string (i := .b58enc d) (s := t) rfl (b58enc_register_length_le (readR t d))
    rw [hval', b58enc_digitsValue hd h0] at hstr
    exact ⟨u, hu, hstr⟩

end Sys2Proof.Proofs

/-! PROOFS. The family `43_address.md`: the address string, `HASHPK`, `ADDRENC`, `ADDRDEC` and `ADDRGEN`, and how they fit
together. -/

namespace Sys2Proof.Proofs

open Sys2Proof Sys2Proof.Machine Sys2Proof.Laws

theorem exec_of_result_error {i : Instr} {s : State} {f : Raised} (hr : result i s = .error f) :
    exec i s = .next (takeFault s f) := by
  rw [exec_eq, hr, complete_error]

/-! ### The hash of a point operand (R131, R134, R135) -/

/-- What `HASHPK` and `ADDRGEN` both begin with: read the point, then hash it. -/
def pointHash (s : State) (a : RegIx) : Except Raised (List Byte) := rdpoint s a >>= fhashpk hw

section
variable {s : State} {a d : RegIx}

theorem pointHash_inf (h : (readP s a).inf = true) : pointHash s a = .error ⟨.infinityOperand, 0⟩ := by
  rw [pointHash, rdpoint_inf s a h, except_bind_ok, fhashpk]

theorem pointHash_outOfRange (h : ¬ Readable (readP s a)) : pointHash s a = .error ⟨.operandRange, 0⟩ := by
  rw [pointHash, rdpoint_outOfRange s a h, except_bind_error]

theorem pointHash_finite (hf : (readP s a).inf = false) (hr : InRange (readP s a)) :
    ∃ h, pointHash s a = .ok h ∧ beInt h = keyHash (readP s a).x.toNat (readP s a).y.toNat :=
  ⟨ripemd160 (sha256 (serialise (readP s a).x.toNat (readP s a).y.toNat)),
    by rw [pointHash, rdpoint_finite s a hf hr, except_bind_ok, fhashpk_aff], rfl⟩

theorem pointHash_length {h : List Byte} (hh : pointHash s a = .ok h) : h.length = 20 := by
  rcases rdpoint_cases s a with ⟨P, hP, -⟩ | hP <;> rw [pointHash, hP] at hh
  · rcases fhashpk_cases P with ⟨-, hf⟩ | ⟨b, hf, hlen, -⟩ <;> rw [except_bind_ok, hf] at hh <;> cases hh
    exact hlen
  · cases hh

theorem result_hashpk : result (.hashpk d a) s = (pointHash s a >>= fun h => pure (writeR s d (beInt h))) := by
  rw [result, pointHash, bind_assoc]

theorem result_hashpk_ok {h : List Byte} (hh : pointHash s a = .ok h) :
    result (.hashpk d a) s = .ok (writeR s d (beInt h)) := by
  rw [result_hashpk, hh, except_bind_ok, except_pure]

theorem result_hashpk_error {f : Raised} (hf : pointHash s a = .error f) : result (.hashpk d a) s = .error f := by
  rw [result_hashpk, hf, except_bind_error]

theorem result_addrgen : result (.addrgen a) s =
    (pointHash s a >>= fun h => pure (writeString s (faddrenc hw h 0x00#8 0x31#8))) := by
  rw [result, pointHash, bind_assoc]

theorem result_addrgen_ok {h : List Byte} (hh : pointHash s a = .ok h) :
    result (.addrgen a) s = .ok (writeString s (faddrenc hw h 0x00#8 0x31#8)) := by
  rw [result_addrgen, hh, except_bind_ok, except_pure]

theorem result_addrgen_error {f : Raised} (hf : pointHash s a = .error f) : result (.addrgen a) s = .error f := by
  rw [result_addrgen, hf, except_bind_error]

end

theorem beInt_lt_of_hash {h : List Byte} (hl : h.length = 20) : beInt h < 2 ^ 160 :=
  lt_of_lt_of_le (beInt_lt_of_length h 20 hl) (by norm_num)

/-- Settles O52: the digest has 20 bytes, so its integer is below 2^160 and fits the register. -/
theorem hashpkIsTheHash160 : Obligations.HashpkIsTheHash160 := by
  intro d a s
  refine ⟨rfl, fun h => exec_faultTaken (result_hashpk_error (pointHash_inf h)),
    fun h => exec_faultTaken (result_hashpk_error (pointHash_outOfRange h)), fun hf hr => ?_⟩
  obtain ⟨h, hh, hkey⟩ := pointHash_finite hf hr
  have hlt := beInt_lt_of_hash (pointHash_length hh)
  obtain ⟨t, ht, hread, honly⟩ := exec_intReg (result_hashpk_ok (d := d) hh) (lt_trans hlt (by norm_num))
  exact ⟨t, ht, hread.trans hkey, hread ▸ hlt, honly⟩

/-! ### The address string (R136) -/

/-- The integer of the 25-byte buffer, by its three parts. -/
theorem beInt_addrBuffer (h : List Byte) (v : Byte) (hl : h.length = 20) :
    beInt (addrBuffer hw h v) = v.toNat * 2 ^ 192 + beInt h * 2 ^ 32 + checkInt (v :: h) := by
  rw [addrBuffer, beInt_append, checksum_length, beInt_cons, hl, checksum, hw_sha256, ← checkInt]
  ring

/-- The byte after the leading zero bytes is not zero, so it keeps the value from being smaller still. -/
theorem le_beInt_of_zeros (b : List Byte) :
    (b.takeWhile (fun x => x == 0)).length = b.length ∨
      256 ^ (b.length - 1 - (b.takeWhile (fun x => x == 0)).length) ≤ beInt b := by
  induction b with
  | nil => exact .inl rfl
  | cons x b ih =>
    by_cases hx : x = 0
    · subst hx
      have hval : beInt (0 :: b) = beInt b := by rw [beInt_cons]; simp
      rw [List.takeWhile_cons, if_pos (by rfl), List.length_cons, List.length_cons, hval, Nat.add_sub_cancel,
        Nat.sub_add_eq, Nat.sub_right_comm]
      exact ih.imp (congrArg (· + 1)) id
    · have hpos : 1 ≤ x.toNat := Nat.one_le_iff_ne_zero.2 fun h0 => hx (BitVec.eq_of_toNat_eq h0)
      rw [List.takeWhile_cons, if_neg (by simpa using hx), beInt_cons]
      exact .inr (le_add_right (Nat.le_mul_of_pos_left _ hpos))

/-- `faddrenc` writes the address string of its hash. -/
theorem faddrenc_isAddress (h : List Byte) (v c : Byte) (hl : h.length = 20) :
    IsAddress (faddrenc hw h v c) v (beInt h) c := by
  have hlen := addrBuffer_length h v hl
  have hlow := beInt_lt_of_zeros (addrBuffer hw h v)
  have hhigh := le_beInt_of_zeros (addrBuffer hw h v)
  rw [hlen] at hlow hhigh
  exact ⟨beInt (addrBuffer hw h v), prefixCount .perZeroByte (addrBuffer hw h v), _,
    by rw [beInt_addrBuffer h v hl, beBytes_of_beInt 20 h hl], hlen ▸ prefixCount_le _, hlow, hhigh,
    b58enc_isNumeral _, rfl⟩

/-- A command whose result is a write of an address string ends with that string in the buffer, and writes no more. -/
theorem exec_address {i : Instr} {s : State} {h : List Byte} {v c : Byte}
    (hr : result i s = .ok (writeString s (faddrenc hw h v c))) (hl : h.length = 20) :
    ∃ t b, exec i s = .next t ∧ IsAddress b v (beInt h) c ∧ HoldsString t b ∧ b.length ≤ 35 ∧ OnlyString s t := by
  have hlen := faddrenc_length_le h v c hl
  obtain ⟨t, ht, hstr, honly⟩ := exec_string hr (le_trans hlen (by decide))
  exact ⟨t, _, ht, faddrenc_isAddress h v c hl, hstr, hlen, honly⟩

/-! ### `ADDRENC` and `ADDRGEN` (R132, R134) -/

theorem result_addrenc_outOfRange {s : State} {a : RegIx} {v c : Byte} (h : 2 ^ 160 ≤ (readR s a).toNat) :
    result (.addrenc a v c) s = .error ⟨.operandRange, 0⟩ := if_pos h

theorem result_addrenc_ok {s : State} {a : RegIx} {v c : Byte} (h : (readR s a).toNat < 2 ^ 160) :
    result (.addrenc a v c) s = .ok (writeString s (faddrenc hw (beBytes 20 (readR s a).toNat) v c)) :=
  if_neg (Nat.not_le.2 h)

theorem beInt_beBytes_hash {n : Nat} (h : n < 2 ^ 160) : beInt (beBytes 20 n) = n :=
  beInt_beBytes 20 n (lt_of_lt_of_le h (by norm_num))

/-- Settles O53: the register below 2^160 is the integer of its 20 bytes, whose address `faddrenc` writes. -/
theorem addrencWritesTheAddress : Obligations.AddrencWritesTheAddress := by
  intro a v c s
  refine ⟨rfl, fun h => exec_faultTaken (result_addrenc_outOfRange h), fun h => ?_⟩
  obtain ⟨t, b, ht, haddr, hstr, hlen, honly⟩ := exec_address (result_addrenc_ok (v := v) (c := c) h) (beBytes_length 20 _)
  rw [beInt_beBytes_hash h] at haddr
  exact ⟨t, b, ht, haddr, hstr, le_trans hlen (by decide), honly⟩

/-- Settles O56: the hash of the point has 20 bytes, and its address goes to the buffer. -/
theorem addrgenWritesTheAddress : Obligations.AddrgenWritesTheAddress := by
  intro a s
  refine ⟨rfl, fun h => exec_faultTaken (result_addrgen_error (pointHash_inf h)),
    fun h => exec_faultTaken (result_addrgen_error (pointHash_outOfRange h)), fun hf hr => ?_⟩
  obtain ⟨h, hh, hkey⟩ := pointHash_finite hf hr
  obtain ⟨t, b, ht, haddr, hstr, -, honly⟩ := exec_address (result_addrgen_ok hh) (pointHash_length hh)
  exact ⟨t, b, ht, hkey ▸ haddr, hstr, honly⟩

/-- Settles O57: both begin with the same hash of the point. Where it faults, both fault so; where it answers, its 20 bytes
go through the register unchanged. -/
theorem addrgenIsHashpkThenAddrenc : Obligations.AddrgenIsHashpkThenAddrenc := by
  intro a d s t u v hs ht hv hu
  cases hh : pointHash s a with
  | error f =>
    rw [exec_of_result_error (result_hashpk_error hh)] at ht
    rw [exec_of_result_error (result_addrgen_error hh)] at hv
    cases ht
    cases hv
    exact ⟨fun h => absurd ((takeFault_fault s f).symm.trans h) (by decide), fun _ => rfl⟩
  | ok h =>
    have hlen := pointHash_length hh
    have hlt := beInt_lt_of_hash hlen
    rw [exec_of_result_ok (result_hashpk_ok hh)] at ht
    rw [exec_of_result_ok (result_addrgen_ok hh)] at hv
    cases ht
    cases hv
    have hread : (readR (finish (writeR s d (beInt h))) d).toNat = beInt h :=
      toNat_readR_writeR s d _ (lt_trans hlt (by norm_num))
    rw [exec_of_result_ok (result_addrenc_ok (hread.trans_lt hlt)), hread, beBytes_of_beInt 20 h hlen] at hu
    cases hu
    exact ⟨fun _ => rfl, fun h => absurd (hs.symm.trans h) (by decide)⟩

/-! ### `ADDRDEC` (R133, R137) -/

/-- The first 21 bytes of the buffer and the four of the checksum, by arithmetic. -/
theorem beBytes_buffer (n : Nat) : beBytes 25 n = beBytes 21 (n / 2 ^ 32) ++ beBytes 4 n := beBytes_split 21 4 n

theorem take_buffer (n : Nat) : (beBytes 25 n).take 21 = beBytes 21 (n / 2 ^ 32) := by
  rw [beBytes_buffer, List.take_left' (beBytes_length 21 _)]

theorem drop_buffer (n : Nat) : (beBytes 25 n).drop 21 = beBytes 4 n := by
  rw [beBytes_buffer, List.drop_left' (beBytes_length 21 _)]

/-- The embedded hash is 20 bytes between the version byte and the checksum. -/
theorem hash_buffer (n : Nat) : ((beBytes 25 n).drop 1).take 20 = beBytes 20 (n / 2 ^ 32) := by
  rw [beBytes_buffer, show beBytes 21 (n / 2 ^ 32) = beBytes 1 (n / 2 ^ 32 / 256 ^ 20) ++ beBytes 20 (n / 2 ^ 32) from
    beBytes_split 1 20 _, List.append_assoc, List.drop_left' (beBytes_length 1 _), List.take_left' (beBytes_length 20 _)]

/-- Strings of one length are equal when their integers are, so the checksum may be compared as an integer. -/
theorem checksum_buffer_iff (n : Nat) : checksum hw ((beBytes 25 n).take 21) = (beBytes 25 n).drop 21 ↔
    checkInt (beBytes 21 (n / 2 ^ 32)) = n % 2 ^ 32 := by
  have hlow : beInt (beBytes 4 n) = n % 2 ^ 32 := beInt_beBytes_mod 4 n
  have hck : beInt (checksum hw (beBytes 21 (n / 2 ^ 32))) = checkInt (beBytes 21 (n / 2 ^ 32)) := rfl
  rw [take_buffer, drop_buffer, ← hlow, ← hck]
  refine ⟨congrArg beInt, fun h => ?_⟩
  rw [← beBytes_of_beInt 4 (checksum hw (beBytes 21 (n / 2 ^ 32))) (checksum_length _), h,
    beBytes_of_beInt 4 _ (beBytes_length 4 n)]

section
variable {n : Nat}

theorem addrPayload_long (h : 2 ^ 200 ≤ n) : addrPayload hw n = .error ⟨.addrRange, 0⟩ := if_pos h

theorem addrPayload_mismatch (h : n < 2 ^ 200) (hc : checkInt (beBytes 21 (n / 2 ^ 32)) ≠ n % 2 ^ 32) :
    addrPayload hw n = .error ⟨.checksumMismatch, 0⟩ := by
  rw [addrPayload, if_neg (Nat.not_le.2 h)]
  exact if_pos ⟨hw_addrVerify, mt (checksum_buffer_iff n).1 hc⟩

theorem addrPayload_match (h : n < 2 ^ 200) (hc : checkInt (beBytes 21 (n / 2 ^ 32)) = n % 2 ^ 32) :
    addrPayload hw n = .ok (beBytes 20 (n / 2 ^ 32)) := by
  rw [addrPayload, if_neg (Nat.not_le.2 h), ← hash_buffer]
  exact if_neg fun hne => hne.2 ((checksum_buffer_iff n).2 hc)

end

section
variable {s : State} {d : RegIx} {c : Byte} {str : List Byte}

theorem result_addrdec_long (h : 64 < s.slen.toNat) : result (.addrdec d c) s = .error ⟨.operandRange, 0⟩ := by
  rw [result, rdstring_long s h, except_bind_error]

theorem result_addrdec_ok {h : List Byte} (hs : rdstring s = .ok str) (hh : faddrdec hw str c = .ok h) :
    result (.addrdec d c) s = .ok (writeR s d (beInt h)) := by
  rw [result, hs, except_bind_ok, hh, except_bind_ok, except_pure]

theorem result_addrdec_error {f : Raised} (hs : rdstring s = .ok str) (hf : faddrdec hw str c = .error f) :
    result (.addrdec d c) s = .error f := by
  rw [result, hs, except_bind_ok, hf, except_bind_error]

end

section
variable {m : Nat} {c : Byte} {body : List Byte} (hb : body.head? ≠ some c)
include hb

/-- After the bytes stripped a number that decodes goes on to the checks of the buffer. -/
theorem faddrdec_of_ok {v : Nat} (hv : b58dec body m = .ok v) :
    faddrdec hw (List.replicate m c ++ body) c = addrPayload hw v := by
  rw [faddrdec_prefix m c body hb, hv, except_bind_ok]

theorem faddrdec_of_error {f : Raised} (hf : b58dec body m = .error f) :
    faddrdec hw (List.replicate m c ++ body) c = .error f := by
  rw [faddrdec_prefix m c body hb, hf, except_bind_error]

end

/-- Digits whose value fits are passed over, and the index counts them from where they begin. -/
theorem b58dec_prefix_at (m : Nat) {ds : List Nat} (rest : List Byte) (hd : AllDigits ds) (hv : digitsValue ds < 2 ^ 256) :
    b58dec (ds.map code ++ rest) m = b58decLoop rest (m + ds.length) (digitsValue ds) :=
  b58decLoop_prefix ds rest m 0 hd hv

/-- Settles O54: after the bytes stripped either a character faults, or the value of the digits meets the checks of the
25-byte buffer, which are comparisons of integers. -/
theorem addrdecReadsTheAddress : Obligations.AddrdecReadsTheAddress := by
  intro d c s
  refine ⟨rfl, fun h => exec_faultTaken (result_addrdec_long h), fun hlen m body hstr hb ds hd hv => ?_⟩
  have hread : rdstring s = .ok (List.replicate m c ++ body) := hstr ▸ rdstring_short s hlen
  refine ⟨fun hbody => ?_, fun x rest hbody => ?_⟩
  · have hdec := faddrdec_of_ok hb (hbody ▸ b58dec_digits ds m hd hv)
    refine ⟨fun h => ?_, fun h hc => ?_, fun h hc => ?_⟩
    · exact exec_faultTaken (result_addrdec_error hread (hdec.trans (addrPayload_long h)))
    · exact exec_faultTaken (result_addrdec_error hread (hdec.trans (addrPayload_mismatch h hc)))
    · have hval : beInt (beBytes 20 (digitsValue ds / 2 ^ 32)) = digitsValue ds / 2 ^ 32 % 2 ^ 160 := beInt_beBytes_mod 20 _
      have hres := result_addrdec_ok (d := d) hread (hdec.trans (addrPayload_match h hc))
      exact exec_intReg (hval ▸ hres) (lt_trans (Nat.mod_lt _ (by norm_num)) (by norm_num))
  · have hpre := b58dec_prefix_at m (x :: rest) hd hv
    rw [← hbody] at hpre
    refine ⟨fun hx => ?_, fun e he hx ho => ?_⟩
    · exact exec_faultTaken (result_addrdec_error hread (faddrdec_of_error hb (hpre.trans (b58decLoop_invalid hx))))
    · subst hx
      exact exec_faultTaken (result_addrdec_error hread (faddrdec_of_error hb (hpre.trans (b58decLoop_overflow he ho))))

/-! ### The round trip (R133, R137) -/

/-- A numeral begins with a non-zero digit, so with no other character. -/
theorem b58enc_head?_ne {c : Byte} (hc : ∀ e, 1 ≤ e → e < 58 → c ≠ code e) (n : Nat) : (b58enc n).head? ≠ some c := by
  obtain ⟨ds, hd, h0, hds, -⟩ := b58enc_isNumeral n
  rw [hds]
  cases ds with
  | nil => exact fun h => nomatch h
  | cons e ds =>
    have he : 1 ≤ e := Nat.one_le_iff_ne_zero.2 fun h => h0 (congrArg some h)
    exact fun h => hc e he (hd e List.mem_cons_self) (Option.some.inj h).symm

/-- Decoding an address gives back the hash it was made from. -/
theorem faddrdec_faddrenc {c : Byte} (hc : ∀ e, 1 ≤ e → e < 58 → c ≠ code e) (h : List Byte) (v : Byte)
    (hl : h.length = 20) : faddrdec hw (faddrenc hw h v c) c = .ok h := by
  have hlt : beInt (addrBuffer hw h v) < 2 ^ 256 :=
    lt_of_lt_of_le (beInt_lt_of_length _ 25 (addrBuffer_length h v hl)) (by norm_num)
  exact (faddrdec_of_ok (b58enc_head?_ne hc _) (b58dec_b58enc _ _ hlt)).trans (addrPayload_addrBuffer h v hl)

/-- Settles O55: the string written is read back whole, and decodes to the 20 bytes of the register. -/
theorem addressRoundTrip : Obligations.AddressRoundTrip := by
  intro a d v c s t hc h ht
  rw [exec_of_result_ok (result_addrenc_ok h)] at ht
  cases ht
  have hlen := faddrenc_length_le (beBytes 20 (readR s a).toNat) v c (beBytes_length 20 _)
  have hread := rdstring_writeString s _ (le_trans hlen (by decide))
  have hres := result_addrdec_ok (d := d) ((rdstring_finish _).trans hread) (faddrdec_faddrenc hc _ v (beBytes_length 20 _))
  rw [beInt_beBytes_hash h] at hres
  obtain ⟨u, hu, hval, honly, -⟩ := exec_intReg hres (readR s a).isLt
  exact ⟨u, hu, BitVec.eq_of_toNat_eq hval, by rw [honly]; rfl⟩

end Sys2Proof.Proofs

/-! PROOFS. The family `44_keyderivation.md`: what a command does depends on its operands alone, and the pair of commands
`ADDRFOR`. -/

namespace Sys2Proof.Proofs

open Sys2Proof Sys2Proof.Machine Sys2Proof.Laws

/-! ### Two results of one command (R143) -/

/-- Two results of a command are the same: it writes the same in both, or raises the same fault. -/
inductive SameOutcome (i : Instr) : Except Raised State → Except Raised State → Prop
  | ok {u u' : State} (h : SameResult i u u') : SameOutcome i (.ok u) (.ok u')
  | error (f : Raised) : SameOutcome i (.error f) (.error f)

/-- Two results that go on from one computation are the same when they are for each of its values. -/
theorem SameOutcome.bind {i : Instr} {α : Type} (m : Except Raised α) {k k' : α → Except Raised State}
    (h : ∀ v, SameOutcome i (k v) (k' v)) : SameOutcome i (m >>= k) (m >>= k') := by
  cases m with
  | ok v => exact h v
  | error f => exact .error f

/-- The end of a completion changes nothing that a command has written (R146). -/
theorem sameResult_finish {i : Instr} {u u' : State} (h : SameResult i u u') : SameResult i (finish u) (finish u') := by
  cases i <;> exact h

section
variable {s s' : State}

theorem rdpoint_congr {a : RegIx} (h : readP s a = readP s' a) : rdpoint s a = rdpoint s' a := congrArg PointReg.checked h

theorem rdstring_congr (h : s.slen = s'.slen ∧ readString s = readString s') : rdstring s = rdstring s' := by
  rw [rdstring, rdstring, h.1, h.2]

theorem seqPoint_congr (hK : s.seqK = s'.seqK) (hidx : s.seqIdx = s'.seqIdx) (hcur : s.seqCur = s'.seqCur) :
    seqPoint s = seqPoint s' := by
  rw [seqPoint, seqPoint, hK, hidx, hcur]

theorem readR_writeR_congr (d : RegIx) (v : Nat) : readR (writeR s d v) d = readR (writeR s' d v) d := by
  rw [readR_writeR_same, readR_writeR_same]

theorem readP_writeP_congr (d : RegIx) (P : Point) : readP (writeP s d P) d = readP (writeP s' d P) d := by
  rw [readP_writeP_same, readP_writeP_same]

/-- On the same operands every computation of the command answers the same, and its value is written the same. -/
theorem sameOutcome_result {i : Instr} (h : SameOperands i s s') : SameOutcome i (result i s) (result i s') := by
  cases i <;> dsimp only [SameOperands] at h
  case fclr => exact .ok ⟨rfl, rfl, rfl, rfl⟩
  case pldg d => exact .ok (readP_writeP_congr d G)
  case modmul d a b | modpow d a b =>
    rw [result, result, h.1, h.2]
    exact .ok (readR_writeR_congr d _)
  case modinv d a =>
    rw [result, result, h]
    exact .bind _ fun v => .ok (readR_writeR_congr d v)
  case pdbl d a =>
    rw [result, result, rdpoint_congr h]
    exact .bind _ fun P => .bind _ fun Q => .ok (readP_writeP_congr d Q)
  case padd d a b =>
    rw [result, result, rdpoint_congr h.1, rdpoint_congr h.2]
    exact .bind _ fun P => .bind _ fun Q => .bind _ fun R => .ok (readP_writeP_congr d R)
  case smul d a b =>
    rw [result, result, h.1, rdpoint_congr h.2]
    exact .bind _ fun P => .bind _ fun Q => .ok (readP_writeP_congr d Q)
  case oncurve a =>
    rw [result, result, rdpoint_congr h]
    exact .bind _ fun P => .bind _ fun b => .ok rfl
  case derive d a =>
    rw [result, result, h]
    exact .bind _ fun Q => .ok (readP_writeP_congr d Q)
  case seqinit a b => exact .ok ⟨h.1, h.2, rfl, rfl⟩
  case seqnext d =>
    obtain ⟨hK, hcnt, hidx, hcur⟩ := h
    rw [result, result, seqPoint_congr hK hidx hcur, hcnt, hidx]
    split
    · exact .ok ⟨nofun, hidx, hcur, rfl⟩
    · exact .bind _ fun Q => .ok ⟨fun _ => readP_writeP_congr d Q, rfl, rfl, rfl⟩
  case b58enc a =>
    rw [result, result, h]
    exact .ok ⟨rfl, rfl⟩
  case b58dec d =>
    rw [result, result, rdstring_congr h]
    exact .bind _ fun str => .bind _ fun v => .ok (readR_writeR_congr d v)
  case hashpk d a =>
    rw [result, result, rdpoint_congr h]
    exact .bind _ fun P => .bind _ fun b => .ok (readR_writeR_congr d _)
  case addrenc a v c =>
    rw [result, result, h]
    split
    · exact .error _
    · exact .ok ⟨rfl, rfl⟩
  case addrdec d c =>
    rw [result, result, rdstring_congr h]
    exact .bind _ fun str => .bind _ fun b => .ok (readR_writeR_congr d _)
  case addrgen a =>
    rw [result, result, rdpoint_congr h]
    exact .bind _ fun P => .bind _ fun b => .ok ⟨rfl, rfl⟩

end

/-- A completion without fault from a state where none stands leaves none standing (R146). -/
theorem fault_false_of_result_ok {i : Instr} {s u : State} (hr : result i s = .ok u) (hf : s.fault = false) :
    u.fault = false :=
  writes_fault_false (result_writes s i u hr) hf

/-- Settles O59: the two results are the same, and a completion shows no more than its result. -/
theorem resultsDependOnOperandsOnly : Obligations.ResultsDependOnOperandsOnly := by
  intro i s s' t t' hsame hf hf' ht ht'
  rw [exec_eq] at ht ht'
  have hout := sameOutcome_result hsame
  generalize hr : result i s = r at hout ht
  generalize hr' : result i s' = r' at hout ht'
  cases hout with
  | error f =>
    cases ht
    cases ht'
    exact ⟨rfl, fun _ => ⟨rfl, rfl⟩, nofun⟩
  | ok hres =>
    cases ht
    cases ht'
    have hu := fault_false_of_result_ok hr hf
    have hu' := fault_false_of_result_ok hr' hf'
    exact ⟨hu.trans hu'.symm, fun h => absurd (hu.symm.trans h) nofun, fun _ => sameResult_finish hres⟩

/-! ### A word dropped while a fault stands (R145) -/

theorem hostWrite_cmd {s : State} (w : Word) (hb : s.busy = false) : hostWrite s 0x000#10 w = acceptWord s w := by
  simp [hostWrite, hb]

theorem acceptWord_dropped {s : State} {w : Word} (hf : s.fault = true) (hw : w ≠ fclrWord) :
    acceptWord s w = { s with drop := true } := if_pos ⟨hf, hw⟩

theorem encode_ne_fclrWord {i : Instr} (hwf : i.wf = true) (hi : i ≠ .fclr) : encode i ≠ fclrWord := by
  intro h
  have hd := decode_encode i hwf
  rw [h, decode_fclrWord] at hd
  exact hi (Option.some.inj hd).symm

/-- A word that is dropped leaves `CORE` idle: the write and the turn of `CORE` after it set `DROP` and do no more. -/
theorem runFor_dropped (n : Nat) {s : State} {w : Word} {rest : List HostEvent} (hb : s.busy = false)
    (hf : s.fault = true) (hw : w ≠ fclrWord) (hi : s.inputs = .write 0x000#10 w :: .core :: rest) :
    runFor (n + 2) s = runFor n { s with drop := true, inputs := rest } := by
  have hwrite : step s = .next { s with drop := true, inputs := .core :: rest } := by
    rw [step_write s _ _ _ hi, hostWrite_cmd (s := { s with inputs := .core :: rest }) w hb,
      acceptWord_dropped (s := { s with inputs := .core :: rest }) hf hw]
  have hidle : step { s with drop := true, inputs := .core :: rest } = .next { s with drop := true, inputs := rest } := by
    rw [step_core _ rest (.inr rfl)]
    exact coreTurn_idle _ hb
  rw [runFor_succ (n + 1) s _ hwrite, runFor_succ n _ _ hidle]

/-! ### The pair `ADDRFOR` (R79, R141) -/

/-- The host issues `ADDRGEN`, `CORE` has the turn after it, and then comes `rest`. -/
def issueAddrgen (d : RegIx) (rest : List HostEvent) : List HostEvent :=
  .write 0x000#10 (encode (.addrgen d)) :: .core :: rest

/-- `s` with `DERIVE` accepted and about to complete, and `ADDRGEN` to come. -/
def deriveAccepted (d a : RegIx) (s : State) (rest : List HostEvent) : State :=
  accepted s (encode (.derive d a)) (issueAddrgen d rest)

section
variable {d a : RegIx} {s t : State} {rest : List HostEvent}

/-- Two of the four steps complete `DERIVE`. -/
theorem runFor_addrfor_derive (hd : isPointIx d = true) (ha : isIntIx a = true) (hb : s.busy = false)
    (hf : s.fault = false)
    (hi : s.inputs = .write 0x000#10 (encode (.derive d a)) :: .core :: issueAddrgen d rest)
    (ht : exec (.derive d a) (deriveAccepted d a s rest) = .next t) : runFor 4 s = runFor 2 t :=
  runFor_issue 2 s t _ _ _ hb (.inl hf) (decode_encode (.derive d a) (by rw [Instr.wf, hd, ha]; rfl)) hi ht

/-- After a fault of `DERIVE`, `ADDRGEN` is dropped and nothing else happens. -/
theorem runFor_addrgen_dropped {k : FaultKind} (hd : isPointIx d = true)
    (ht : FaultTaken k 0 (deriveAccepted d a s rest) t) : runFor 2 t = .next { t with drop := true, inputs := rest } := by
  have hne : encode (.addrgen d) ≠ fclrWord := encode_ne_fclrWord hd nofun
  subst ht
  exact runFor_dropped 0 rfl rfl hne rfl

/-- After a `DERIVE` that delivers a finite point in range, `ADDRGEN` writes its address and leaves the point where it is. -/
theorem runFor_addrgen_completes (hd : isPointIx d = true) (hf : s.fault = false)
    (ht : OnlyPointReg d (deriveAccepted d a s rest) t) (hfin : (readP t d).inf = false) (hr : InRange (readP t d)) :
    ∃ u b, runFor 2 t = .next u ∧ u.busy = false ∧ u.inputs = rest ∧ u.fault = false ∧ readP u d = readP t d ∧
      HoldsString u b ∧ IsAddress b 0x00#8 (keyHash (readP t d).x.toNat (readP t d).y.toNat) 0x31#8 := by
  obtain ⟨hframe, -⟩ := ht
  have hbusy : t.busy = false := by rw [hframe]
  have hfault : t.fault = false := by rw [hframe]; exact hf
  have hinputs : t.inputs = issueAddrgen d rest := by rw [hframe]; rfl
  obtain ⟨-, -, -, haddrgen⟩ := addrgenWritesTheAddress d (accepted t (encode (.addrgen d)) rest)
  obtain ⟨u, b, hu, haddr, hstr, honly⟩ := haddrgen hfin hr
  have hrun : runFor 2 t = .next u :=
    runFor_issue 0 t u _ _ rest hbusy (.inl hfault) (decode_encode (.addrgen d) hd) hinputs hu
  exact ⟨u, b, hrun, by rw [honly], by rw [honly]; rfl, by rw [honly]; exact hfault, by rw [honly]; rfl, hstr, haddr⟩

end

/-- Settles O58: `DERIVE` delivers a finite point of the curve, which `ADDRGEN` can hash, or faults, and then the block accepts
no `ADDRGEN`. -/
theorem addrforFailsAsAWhole : Obligations.AddrforFailsAsAWhole := by
  intro _ d a s g rest hg hd ha hb hf hi
  obtain ⟨-, hzero, horder, hkey⟩ := deriveIsTheMultipleOfG d a (deriveAccepted d a s rest) g hg
  by_cases hk : (readR s a).toNat = 0 ∨ (readR s a).toNat = groupOrder
  · obtain ⟨k, t, ht, hfault⟩ : ∃ k t, exec (.derive d a) (deriveAccepted d a s rest) = .next t ∧
        FaultTaken k 0 (deriveAccepted d a s rest) t := hk.elim (fun h => ⟨_, hzero h⟩) (fun h => ⟨_, horder h⟩)
    refine ⟨_, (runFor_addrfor_derive hd ha hb hf hi ht).trans (runFor_addrgen_dropped hd hfault), ?_⟩
    subst hfault
    exact ⟨rfl, rfl, fun _ => ⟨rfl, rfl, rfl, rfl, rfl, rfl, rfl⟩, fun h0 hn => absurd hk (not_or.2 ⟨h0, hn⟩)⟩
  · obtain ⟨h0, hn⟩ := not_or.1 hk
    obtain ⟨t, ht, hfin, hrep, honly⟩ := hkey h0 hn
    have hr : InRange (readP t d) := (readable_of_represents hfin hrep).resolve_left (by rw [hfin]; nofun)
    obtain ⟨u, b, hu, hbusy, hin, hfault, hread, hstr, haddr⟩ := runFor_addrgen_completes hd hf honly hfin hr
    refine ⟨u, (runFor_addrfor_derive hd ha hb hf hi ht).trans hu, hbusy, hin, fun h => absurd h hk, fun _ _ => ?_⟩
    rw [hread]
    exact ⟨hfault, hrep, b, hstr, haddr⟩

end Sys2Proof.Proofs

/-! PROOFS. The family `45_system.md`: acceptance of a command word, the turn of `CORE`, runs to the end of the host's
accesses, and `FCLR`. -/

namespace Sys2Proof.Proofs

open Sys2Proof Sys2Proof.Machine Sys2Proof.Laws

/-! ### The turn of a command that is accepted (R146) -/

/-- `withFetchWord` makes the state between the acceptance of the word and its completion, `CORE` having the turn. -/
theorem withFetchWord_eq_accepted (s : State) (w : Word) :
    s.withFetchWord 32 w.toNat = accepted s w (.core :: s.inputs) := by
  rw [State.withFetchWord, Nat.mod_eq_of_lt w.isLt, BitVec.ofNat_toNat, BitVec.setWidth_eq]
  rfl

theorem step_busy_legal {s : State} {i : Instr} {rest : List HostEvent} (hb : s.busy = true) (hm : CoreMoves s rest)
    (hd : decode s.cmd = some i) : step s = exec i { s with inputs := rest } := by
  rw [step_core s rest hm]
  exact coreTurn_legal { s with inputs := rest } i hb hd

/-- Settles O5: a turn of `CORE` decodes the word in `CMD`, and `withFetchWord` makes a state that has this turn next. -/
theorem stepRunsTheAcceptedCommand : Obligations.StepRunsTheAcceptedCommand := by
  refine ⟨fun s i rest hb hm hd => step_busy_legal hb hm hd, fun s w i hd => ?_⟩
  rw [withFetchWord_eq_accepted]
  exact step_busy_legal (s := accepted s w (.core :: s.inputs)) rfl (.inr rfl) hd

/-- Settles O13: the end of the command is `finish` or `takeFault`, and no command writes `CMD` or the host's side. -/
theorem everyCommandCompletesInOneStep : Obligations.EveryCommandCompletesInOneStep := by
  intro i s
  rcases exec_cases s i with ⟨s', -, he, hw⟩ | ⟨f, -, he⟩
  · obtain ⟨hcmd, -, -, hinputs, hanswers⟩ := writes_frame s i s' hw
    exact ⟨finish s', he, rfl, rfl, hcmd, hinputs, hanswers⟩
  · exact ⟨takeFault s f, he, rfl, rfl, rfl, rfl, rfl⟩

/-! ### A write to `CMD` of an idle block (R145) -/

section
variable {s : State} {w : Word} {rest : List HostEvent}

theorem step_write_cmd_dropped (hb : s.busy = false) (hf : s.fault = true) (hw : w ≠ fclrWord)
    (hi : s.inputs = .write 0x000#10 w :: rest) : step s = .next { s with drop := true, inputs := rest } := by
  rw [step_write s _ w rest hi, hostWrite_cmd (s := { s with inputs := rest }) w hb,
    acceptWord_dropped (s := { s with inputs := rest }) hf hw]

theorem step_write_cmd_accepted (hb : s.busy = false) (hf : s.fault = false ∨ w = fclrWord)
    (hi : s.inputs = .write 0x000#10 w :: rest) : step s = .next (accepted s w rest) := by
  rw [step_write s _ w rest hi, hostWrite_accept { s with inputs := rest } w hb hf]
  rfl

end

/-- Settles O7: the three cases of R145, in its order; the first is R56 at the address of `CMD`. -/
theorem acceptanceOfACommandWord : Obligations.AcceptanceOfACommandWord := fun s w rest hi =>
  ⟨fun hb => writeWhileBusyIsDropped s _ w rest hb hi,
    fun hb hf hw => step_write_cmd_dropped hb hf hw hi,
    fun hb hf => step_write_cmd_accepted hb hf hi⟩

/-! ### What an idle block does (R146, R190) -/

/-- A host write starts a command only at the address of `CMD`, where it is accepted (R54, R145). -/
theorem hostWrite_starts {s : State} {a : PortAddr} {w : Word} (hb : s.busy = false)
    (h : (hostWrite s a w).busy = true) :
    a = 0x000#10 ∧ hostWrite s a w = { s with cmd := w, busy := true, done := false } := by
  have hbusy : (hostWrite s a w).busy ≠ s.busy := by rw [h, hb]; nofun
  rcases hostWrite_cases s a w with ⟨-, he⟩ | ⟨-, ha, he⟩ | ⟨-, -, he⟩
  · exact absurd (congrArg State.busy he) hbusy
  · rcases acceptWord_cases s w with ⟨-, -, hdrop⟩ | ⟨-, haccept⟩
    · exact absurd (congrArg State.busy (he.trans hdrop)) hbusy
    · exact ⟨ha, he.trans haccept⟩
  · exact absurd (congrArg State.busy he) hbusy

/-- Settles O6: by who moves; of the four turns only a host write can make `BUSY` 1. -/
theorem onlyAWriteToCmdStartsACommand : Obligations.OnlyAWriteToCmdStartsACommand := by
  intro s t hb h
  rcases turn_cases s with ⟨rest, hm⟩ | ⟨a, rest, hm⟩ | ⟨a, w, rest, hm⟩ | ⟨d, rest, hm⟩
  · rw [step_core s rest hm, coreTurn_idle { s with inputs := rest } hb] at h
    cases h
    exact ⟨fun _ _ => rfl, fun h => absurd (hb.symm.trans h) nofun⟩
  · rw [step_read s a rest hm] at h
    cases h
    exact ⟨fun _ _ => rfl, fun h => absurd (hb.symm.trans h) nofun⟩
  · rw [step_write s a w rest hm] at h
    cases h
    refine ⟨fun hw _ => absurd hm (hw a w rest), fun h => ⟨w, ?_⟩⟩
    obtain ⟨rfl, ht⟩ := hostWrite_starts (s := { s with inputs := rest }) hb h
    rw [ht]
    exact ⟨hm, rfl, rfl⟩
  · rw [step_reset s d rest hm] at h
    cases h
    exact ⟨fun _ hr => absurd hm (hr d rest), nofun⟩

/-! ### Runs to the end of the host's accesses (R146, R202) -/

/-- Every state has a next one, with the first of the turns to come taken. -/
theorem step_next (s : State) : ∃ t, step s = .next t ∧ t.inputs = s.inputs.tail := by
  rcases turn_cases s with ⟨rest, hm⟩ | ⟨a, rest, hm⟩ | ⟨a, w, rest, hm⟩ | ⟨d, rest, hm⟩
  · have htail : rest = s.inputs.tail := by rcases hm with ⟨h, rfl⟩ | h <;> rw [h] <;> rfl
    obtain ⟨t, ht, -, hin⟩ := coreTurn_next { s with inputs := rest }
    exact ⟨t, (step_core s rest hm).trans ht, hin.trans htail⟩
  · exact ⟨_, step_read s a rest hm, by rw [hm]; rfl⟩
  · exact ⟨_, step_write s a w rest hm, by rw [hostWrite_withInputs, hm]; rfl⟩
  · exact ⟨_, step_reset s d rest hm, by rw [hm]; rfl⟩

/-- Settles O14: whoever moves, there is a next state. -/
theorem stepNeverStops : Obligations.StepNeverStops := fun s =>
  let ⟨t, ht, _⟩ := step_next s
  ⟨t, ht⟩

/-- Settles O15: each step takes one of the turns to come, and when none is left the turn of `CORE` ends the command. -/
theorem runEndsIdle : Obligations.RunEndsIdle := by
  intro s
  induction hin : s.inputs generalizing s with
  | nil =>
    obtain ⟨t, ht, hbusy, hinputs⟩ := coreTurn_next { s with inputs := [] }
    have hstep : step s = .next t := (step_core s [] (.inl ⟨hin, rfl⟩)).trans ht
    exact ⟨t, runFor_succ 0 s t hstep, hbusy, hinputs⟩
  | cons e es ih =>
    obtain ⟨t, ht, htail⟩ := step_next s
    rw [hin] at htail
    obtain ⟨u, hu, hend⟩ := ih t htail
    exact ⟨u, (runFor_succ _ s t ht).trans hu, hend⟩

/-! ### `FCLR` (R147) -/

theorem encode_fclr : encode .fclr = fclrWord := by decide

/-- The one legal word with the opcode of `FCLR` is its own (R73, R147). -/
theorem decode_fclrOpcode {w : Word} (ho : opcField w = 0x01#8) (hw : w ≠ fclrWord) : decode w = none := by
  have hfields : ¬ (dField w = 0 ∧ aField w = 0 ∧ bField w = 0 ∧ lowField w = 0) := fun h =>
    hw (((formatR_eq_iff 0x01#8 0 0 0 w).2 ⟨ho, h⟩).symm.trans encode_fclr)
  rw [decode, if_pos ho, if_neg hfields]

/-- Settles O18: `FCLR` is issued in two steps whatever `FAULT` is, and while a fault stands every other word is dropped. -/
theorem fclrAcknowledgesTheFault : Obligations.FclrAcknowledgesTheFault := by
  refine ⟨encode_fclr, fun _ => rfl, fun s rest hb hi => ?_, fun w ho hw => decode_fclrOpcode ho hw,
    fun s w rest hb hf hw hi => step_write_cmd_dropped hb hf hw hi⟩
  exact runFor_issue 0 s _ fclrWord .fclr rest hb (.inr rfl) decode_fclrWord hi rfl

end Sys2Proof.Proofs

/-! PROOFS. The family `60_exceptions.md`: what a faulting completion leaves, what a standing fault blocks, and the same
command issued again. -/

namespace Sys2Proof.Proofs

open Sys2Proof Sys2Proof.Machine Sys2Proof.Laws

/-! ### An illegal word (R161) -/

/-- Settles O4: no row matches, so the decoder refuses the word, and the turn of `CORE` takes the fault. -/
theorem illegalWordFaults : Obligations.IllegalWordFaults := by
  intro s rest hb hm hrow
  rw [step_core s rest hm]
  exact coreTurn_illegal { s with inputs := rest } hb (decode_eq_none_of_no_row hrow)

theorem completeStep_illegal {s : State} (hd : decode s.cmd = none) :
    completeStep s = .next (takeFault s ⟨.illegalCommand, 0⟩) := by rw [completeStep, hd]

/-! ### What a faulting completion leaves (R163) -/

/-- Where no fault stood, a completion that leaves one has taken the fault its command raised, and done no more. -/
theorem takeFault_of_exec {i : Instr} {s t : State} (h : exec i s = .next t) (hs : s.fault = false)
    (ht : t.fault = true) : ∃ f, result i s = .error f ∧ t = takeFault s f := by
  rcases exec_cases s i with ⟨s', -, he, hw⟩ | ⟨f, hr, he⟩ <;> rw [he] at h <;> cases h
  · rw [finish_fault, writes_fault_false hw hs] at ht
    cases ht
  · exact ⟨f, hr, rfl⟩

/-- Settles O17: a completion with a fault is `takeFault` of a fault of the command's own, or of `IllegalCommand`. -/
theorem faultingCompletionWritesNothingElse : Obligations.FaultingCompletionWritesNothingElse := by
  refine ⟨fun i s t hc hs h ht => ?_, fun s hd => ⟨_, completeStep_illegal hd, rfl⟩⟩
  obtain ⟨f, hr, rfl⟩ := takeFault_of_exec h hs ht
  obtain ⟨hraise, hinfo, hloc⟩ := result_fault s i hc f hr
  exact ⟨f.kind, f.info, hraise, hinfo, hloc, rfl⟩

/-! ### While a fault stands (R174) -/

/-- In `t` the block is idle in the fault that `s` records, and the flags are as they were. -/
def SameFaultStands (s t : State) : Prop :=
  t.fault = true ∧ t.busy = false ∧ t.fcode = s.fcode ∧ t.finfo = s.finfo ∧ t.cmd = s.cmd ∧ t.t = s.t ∧
    t.endFlag = s.endFlag

/-- A host access that starts no command leaves a standing fault as it is. -/
theorem hostEffect_sameFaultStands {s t : State} (h : HostEffect s t) (hf : s.fault = true) (hb : s.busy = false)
    (ht : t.busy = false) : SameFaultStands s t := by
  cases h with
  | read | dropped => exact ⟨hf, hb, rfl, rfl, rfl, rfl, rfl⟩
  | accepted w => cases ht
  | stored t hdata =>
    rw [hdata]
    exact ⟨hf, hb, rfl, rfl, rfl, rfl, rfl⟩

/-- The only step that starts a command while a fault stands is the acceptance of `FCLR` (R145, R174). -/
theorem inputs_fclr_of_starts {s t : State} (hf : s.fault = true) (hb : s.busy = false) (h : step s = .next t)
    (ht : t.busy = true) : s.inputs = .write 0x000#10 fclrWord :: t.inputs := by
  obtain ⟨w, hin, -, -⟩ := (onlyAWriteToCmdStartsACommand s t hb h).2 ht
  by_cases hw : w = fclrWord
  · rw [hin, hw]
  · have hdrop := h.symm.trans (step_write_cmd_dropped hb hf hw hin)
    injection hdrop with hdrop
    rw [hdrop] at ht
    exact absurd (hb.symm.trans ht) nofun

/-- Settles O19: a step that starts a command accepts `FCLR`; of the others only a reset writes the fault record. -/
theorem standingFaultBlocksEveryCommand : Obligations.StandingFaultBlocksEveryCommand := by
  intro s t hf hb h
  rcases Bool.eq_false_or_eq_true t.busy with ht | ht
  · exact .inr (.inl (inputs_fclr_of_starts hf hb h ht))
  · obtain ⟨rest, ⟨-, hcore⟩ | hhost | ⟨d, hin, rfl⟩⟩ := step_next_cases h
    · rw [coreTurn_idle { s with inputs := rest } hb] at hcore
      cases hcore
      exact .inl ⟨hf, hb, rfl, rfl, rfl, rfl, rfl⟩
    · exact .inl (hostEffect_sameFaultStands (s := { s with inputs := rest }) hhost hf hb ht)
    · exact .inr (.inr ⟨d, hin⟩)

/-! ### The same command issued again (R174) -/

/-- `s` after `FCLR` was accepted and completed, with `rest` to come (R147). -/
def acknowledged (s : State) (rest : List HostEvent) : State := finish (faultReturn (accepted s fclrWord rest))

/-- An idle block accepts `FCLR` and completes it, whether a fault stands or not. -/
theorem runFor_acknowledge (n : Nat) {s : State} {rest : List HostEvent} (hb : s.busy = false)
    (hi : s.inputs = .write 0x000#10 fclrWord :: .core :: rest) : runFor (n + 2) s = runFor n (acknowledged s rest) :=
  runFor_issue n s _ fclrWord .fclr rest hb (.inr rfl) decode_fclrWord hi rfl

/-- `s` with the word accepted again, after the fault `f` was taken and acknowledged. -/
def reissued (s : State) (f : Raised) (w : Word) (rest : List HostEvent) : State :=
  accepted (acknowledged (takeFault s f) rest) w rest

/-- Neither the fault, nor `FCLR`, nor the acceptance of a word writes an operand of a command (R147, R163, R175). -/
theorem sameOperands_reissued (i : Instr) (s : State) (f : Raised) (w : Word) (rest : List HostEvent) :
    SameOperands i s (reissued s f w rest) := by
  cases i
  case fclr | pldg => trivial
  case modmul | modpow | padd | smul | seqinit | b58dec | addrdec => exact ⟨rfl, rfl⟩
  case seqnext => exact ⟨rfl, rfl, rfl, rfl⟩
  case modinv | pdbl | oncurve | derive | b58enc | hashpk | addrenc | addrgen => exact rfl

/-- On the same operands a command raises the same fault. -/
theorem result_error_congr {i : Instr} {s s' : State} {f : Raised} (h : SameOperands i s s')
    (hr : result i s = .error f) : result i s' = .error f := by
  have hout := sameOutcome_result h
  rw [hr] at hout
  generalize result i s' = r at hout ⊢
  cases hout
  rfl

theorem exec_reissued {i : Instr} {s : State} {f : Raised} (w : Word) (rest : List HostEvent)
    (hr : result i s = .error f) : exec i (reissued s f w rest) = .next (takeFault (reissued s f w rest) f) := by
  rw [exec_eq, result_error_congr (sameOperands_reissued i s f w rest) hr, complete_error]

/-- Settles O20: two steps acknowledge the fault, and two issue the command, which finds its operands as they were. -/
theorem sameCommandFaultsAgain : Obligations.SameCommandFaultsAgain := by
  intro s t i rest hd hs _ h ht hin
  obtain ⟨f, hr, rfl⟩ := takeFault_of_exec h hs ht
  have hack := runFor_acknowledge 2 (s := takeFault s f) rfl hin
  refine ⟨takeFault (reissued s f s.cmd rest) f, hack.trans ?_, rfl⟩
  exact runFor_issue 0 _ _ s.cmd i rest rfl (.inl rfl) hd rfl (exec_reissued s.cmd rest hr)

end Sys2Proof.Proofs

/-! PROOFS. The family `70_reset_and_hazards.md`: a command straight after a reset, and what touches the sequence state. -/

namespace Sys2Proof.Proofs

open Sys2Proof Sys2Proof.Machine Sys2Proof.Laws

/-! ### A command straight after a reset (R38, R191) -/

/-- A reset leaves no fault standing, so the block accepts the command the host issues next, which then completes. -/
theorem runFor_reset_issue {s t : State} {d : Draws} {i : Instr} {rest : List HostEvent} (hwf : i.wf = true)
    (hi : s.inputs = .reset d :: .write 0x000#10 (encode i) :: .core :: rest)
    (ht : exec i (accepted (resetEvent s d) (encode i) rest) = .next t) : runFor 3 s = .next t :=
  (runFor_succ 2 s _ (step_reset s d _ hi)).trans
    (runFor_issue 0 _ t _ i rest rfl (.inl rfl) (decode_encode i hwf) rfl ht)

/-- With `SLEN` 0 the string operand is the empty string, whatever the bytes of `S` (R24, R123). -/
theorem rdstring_empty {s : State} (h : s.slen = 0) : rdstring s = .ok [] := by
  rw [rdstring_short s (by rw [h]; decide), readString, h]
  rfl

/-- Settles O26: after a reset `SLEN` is 0, so `B58DEC` decodes the empty string; and `SEQIDX` and `SEQCNT` are 0, so `SEQNEXT`
finds the sequence exhausted. -/
theorem resetThenDecodeOrSequence : Obligations.ResetThenDecodeOrSequence := by
  intro s d x rest
  refine ⟨fun hx hi => ?_, fun hx hi => ?_⟩
  · obtain ⟨t, ht, hread, honly, -⟩ := exec_intReg (v := 0)
      (result_b58dec_ok (s := accepted (resetEvent s d) (encode (.b58dec x)) rest) (d := x) (rdstring_empty rfl) rfl)
      (by decide)
    refine ⟨t, runFor_reset_issue (i := .b58dec x) hx hi ht, BitVec.eq_of_toNat_eq hread, ?_⟩
    rw [honly]
    exact ⟨rfl, rfl, rfl⟩
  · obtain ⟨-, t, ht, rfl⟩ := seqnextReportsTheEnd x (accepted (resetEvent s d) (encode (.seqnext x)) rest) le_rfl
    exact ⟨_, runFor_reset_issue (i := .seqnext x) hx hi ht, rfl, rfl, rfl, rfl, rfl⟩

/-! ### What touches the sequence state (R33, R198) -/

/-- Only `SEQINIT` and `SEQNEXT` write the sequence state (R107, R108). -/
theorem writes_sameSequence {i : Instr} {s s' : State} (h : Writes i s s') :
    ((∃ a b, i = .seqinit a b) ∨ ∃ d, i = .seqnext d) ∨ SameSequence s s' := by
  cases writeKind_of_writes h with
  | seqStart a b hi => exact .inl (.inl ⟨a, b, hi⟩)
  | seqEnd d hi | seqPoint d P hi => exact .inl (.inr ⟨d, hi⟩)
  | _ => exact .inr ⟨rfl, rfl, rfl, rfl⟩

/-- A turn of `CORE` that touches the sequence state completes one of the two commands: an idle turn does nothing, and taking a
fault writes no sequence state (R163). -/
theorem coreTurn_sameSequence {s t : State} (h : coreTurn s = .next t) :
    SameSequence s t ∨ (s.busy = true ∧ t.inputs = s.inputs ∧
      ((∃ a b, decode s.cmd = some (.seqinit a b)) ∨ ∃ d, decode s.cmd = some (.seqnext d))) := by
  rcases coreTurn_cases s with ⟨-, he⟩ | ⟨-, -, he⟩ | ⟨i, hb, hd, ⟨s', -, he, hw⟩ | ⟨f, -, he⟩⟩ <;> rw [he] at h <;> cases h
  case inr.inr.inl =>
    obtain ⟨-, -, -, hin, -⟩ := writes_frame s i s' hw
    rcases writes_sameSequence hw with (⟨a, b, rfl⟩ | ⟨d, rfl⟩) | hsame
    · exact .inr ⟨hb, hin, .inl ⟨a, b, hd⟩⟩
    · exact .inr ⟨hb, hin, .inr ⟨d, hd⟩⟩
    · exact .inl hsame
  all_goals exact .inl ⟨rfl, rfl, rfl, rfl⟩

/-- Settles O47: by who moves. -/
theorem onlySequenceCommandsTouchTheSequence : Obligations.OnlySequenceCommandsTouchTheSequence := by
  intro s t h
  obtain ⟨rest, ⟨hm, hcore⟩ | hhost | ⟨d, hin, rfl⟩⟩ := step_next_cases h
  · rcases coreTurn_sameSequence hcore with hsame | ⟨hb, hin, hcommand⟩
    · exact .inl hsame
    · exact .inr (.inl ⟨hb, hin ▸ hm, hcommand⟩)
  · exact .inl (hostEffect_sameSequence (s := { s with inputs := rest }) hhost)
  · exact .inr (.inr ⟨d, hin⟩)

end Sys2Proof.Proofs
